-- ==== Sys2Proof/Word.lean ====
section
/-! DEFINITION. The word types of SWX (00_scope.md R7, R12): every value is unsigned and wraps at its width. -/

namespace Sys2Proof

/-- `UInt8`: a register value, a command byte, a byte of an exchange or of a request (R7, R12). -/
abbrev Byte := BitVec 8

/-- A register address after masking to `REG_ADDR_BITS` = 5 bits (R7, 20_memory.md R61). -/
abbrev RegAddr := BitVec 5

/-- `UInt40`: a radio address (R7). -/
abbrev Addr := BitVec 40

/-- A byte string (R12). -/
abbrev Bytes := List Byte

end Sys2Proof
end

