-- ==== Sys2Proof/Config.lean ====
section
/-! DEFINITION. The configuration record `cfg` (00_scope.md R6 to R11), its constraints, the port events of the
history (40_register_access.md R123), and the model's free values: the OPEN parameters and the chip's answers. -/

namespace Sys2Proof

/-- The argument of `Wait(T)`: a parameter NAME of 00_scope.md R8 or a literal number of microseconds (R122). A
WAIT event carries no duration (70_reset_and_hazards.md R277). -/
inductive Delay where
  | tCeUp
  | tCeDown
  | tRadio
  | tRx
  | tTxPoll
  | tRxPoll
  | micros (us : BitVec 32)
deriving DecidableEq, Repr

/-- A port event of the history `H` (R123): one bus transaction with its request and response, one drive of the
chip-enable output, one observed delay. -/
inductive Event where
  | xchg (b r : Bytes)
  | ce (level : Bool)
  | wait (d : Delay)
deriving DecidableEq, Repr

/-- The configuration record (R6): fixed when the block is constructed; no request changes it. Register numbers
are held in the 5 bits a register address has (log 16). -/
structure Cfg where
  /-- `T_CE_UP`, microseconds (R8). -/
  tCeUp : Nat
  /-- `T_CE_DOWN`, OPEN (R8). -/
  tCeDown : Nat
  /-- `T_RADIO` (R8). -/
  tRadio : Nat
  /-- `T_RX` (R8). -/
  tRx : Nat
  /-- `TX_POLL_CAP` (R8). -/
  txPollCap : Nat
  /-- `T_TX_POLL` (R8). -/
  tTxPoll : Nat
  /-- `T_RX_POLL`, OPEN (R8). -/
  tRxPoll : Nat
  /-- `CMD_R_REGISTER` (R9); the command parameters follow in R9's order. -/
  cmdRRegister : Byte
  cmdWRegister : Byte
  cmdRRxPlWid : Byte
  cmdRRxPayload : Byte
  cmdWTxPayload : Byte
  cmdFlushTx : Byte
  cmdFlushRx : Byte
  cmdNop : Byte
  /-- `REG_CONFIG` (R9); the register parameters follow in R9's order. -/
  regConfig : RegAddr
  regSetupRetr : RegAddr
  regRfCh : RegAddr
  regRfSetup : RegAddr
  regStatus : RegAddr
  regRxAddrP0 : RegAddr
  regRxAddrP1 : RegAddr
  regRxAddrP2 : RegAddr
  regRxAddrP3 : RegAddr
  regRxAddrP4 : RegAddr
  regRxAddrP5 : RegAddr
  regTxAddr : RegAddr
  regDynpd : RegAddr
  regFeature : RegAddr
  /-- `CFG_PRIM_RX` (R10); the masks follow in R10's order. -/
  cfgPrimRx : Byte
  cfgPwrUp : Byte
  stMaxRt : Byte
  stTxDs : Byte
  stRxDr : Byte
  stRxEmptyField : Byte
  /-- `FIXED_LEN`, OPEN, range 0 to 32 (R11). -/
  fixedLen : Fin 33
  /-- `FIXED_RX_CLEAR` (R11): true is 1, the clear is made. -/
  fixedRxClear : Bool
  /-- `RX_PIPE`, one of the pipes 0 to 5 (R11, R19). -/
  rxPipe : Fin 6
  /-- `INIT_RF_SETUP`, OPEN (R11). -/
  initRfSetup : Byte
  /-- `INIT_DYNPD`, OPEN (R11). -/
  initDynpd : Byte
  /-- `INIT_FEATURE`, OPEN (R11). -/
  initFeature : Byte
  /-- `INIT_CONFIG`, OPEN (R11). -/
  initConfig : Byte
  /-- `RXBUF_CAP` (R11). -/
  rxbufCap : Nat
deriving DecidableEq, Repr

/-- The microseconds that the delay port is asked for (R8). No rule of the machine reads it (R277); the settle
predicates of Safety.lean compare literal waits with it (70_reset_and_hazards.md R274). -/
def Cfg.duration (c : Cfg) : Delay → Nat
  | .tCeUp => c.tCeUp
  | .tCeDown => c.tCeDown
  | .tRadio => c.tRadio
  | .tRx => c.tRx
  | .tTxPoll => c.tTxPoll
  | .tRxPoll => c.tRxPoll
  | .micros us => us.toNat

/-- The mask has exactly one bit. -/
abbrev singleBit (m : Byte) : Prop := m ≠ 0#8 ∧ m &&& (m - 1#8) = 0#8

/-- The two command bits take a register address in their low 5 bits (R9). -/
abbrev Cfg.CommandBitsFree (c : Cfg) : Prop :=
  c.cmdRRegister &&& 0x1F#8 = 0#8 ∧ c.cmdWRegister &&& 0x1F#8 = 0#8

/-- The commands whose byte 0 is one fixed value (30_encoding.md R99 to R103). -/
def Cfg.fixedCommands (c : Cfg) : List Byte :=
  [c.cmdRRxPlWid, c.cmdRRxPayload, c.cmdWTxPayload, c.cmdFlushTx, c.cmdFlushRx]

/-- 30_encoding.md R105: the command parameters are pairwise distinct, and no `rdcmd(m)` or `wrcmd(m)` equals a
fixed command. With the low 5 bits of the command bits clear, the latter says that the top 3 bits differ. -/
abbrev Cfg.CommandsDistinct (c : Cfg) : Prop :=
  (c.cmdRRegister :: c.cmdWRegister :: c.cmdNop :: c.fixedCommands).Nodup ∧
    ∀ x ∈ c.fixedCommands, x &&& 0xE0#8 ≠ c.cmdRRegister ∧ x &&& 0xE0#8 ≠ c.cmdWRegister

/-- The register parameters, in R9's order. -/
def Cfg.registers (c : Cfg) : List RegAddr :=
  [c.regConfig, c.regSetupRetr, c.regRfCh, c.regRfSetup, c.regStatus, c.regRxAddrP0, c.regRxAddrP1, c.regRxAddrP2,
    c.regRxAddrP3, c.regRxAddrP4, c.regRxAddrP5, c.regTxAddr, c.regDynpd, c.regFeature]

/-- Every `REG_*` value is in 0x00 to 0x1D (R9). -/
abbrev Cfg.RegistersInRange (c : Cfg) : Prop := ∀ m ∈ c.registers, m ≤ 0x1D#5

/-- The constraints of R10 on the masks. -/
abbrev Cfg.MasksValid (c : Cfg) : Prop :=
  (singleBit c.cfgPrimRx ∧ singleBit c.cfgPwrUp ∧ c.cfgPrimRx ≠ c.cfgPwrUp) ∧
    (singleBit c.stMaxRt ∧ singleBit c.stTxDs ∧ singleBit c.stRxDr) ∧
    (c.stMaxRt ≠ c.stTxDs ∧ c.stMaxRt ≠ c.stRxDr ∧ c.stTxDs ≠ c.stRxDr) ∧
    (c.stMaxRt &&& c.stRxEmptyField = 0#8 ∧ c.stTxDs &&& c.stRxEmptyField = 0#8 ∧
      c.stRxDr &&& c.stRxEmptyField = 0#8)

/-- All constraints the spec puts on `cfg`: R8, R9, R10 and 30_encoding.md R105. -/
structure Cfg.Valid (c : Cfg) : Prop where
  commandBits : c.CommandBitsFree
  commands : c.CommandsDistinct
  registers : c.RegistersInRange
  masks : c.MasksValid
  ceDown : c.tCeUp < c.tCeDown
  pollCap : 1 ≤ c.txPollCap

/-- The register numbers are pairwise distinct. R9 lists distinct defaults and states no such constraint: a
statement that needs it takes it as a premise. -/
abbrev Cfg.RegistersDistinct (c : Cfg) : Prop := c.registers.Nodup

/-- OPEN parameter `T_CE_DOWN` (R8), as its excess over `T_CE_UP + 1`, so that `T_CE_DOWN > T_CE_UP` holds of
every value. A free value: log 3. -/
opaque Config.tCeDownExcess : Nat

/-- OPEN parameter `T_RX_POLL` (R8). A free value: log 3. -/
opaque Config.tRxPoll : Nat

/-- OPEN parameter `FIXED_LEN` (R11). A free value: log 3. -/
opaque Config.fixedLen : Fin 33

/-- OPEN parameter `INIT_RF_SETUP` (R11). A free value: log 3. -/
opaque Config.initRfSetup : Byte

/-- OPEN parameter `INIT_DYNPD` (R11). A free value: log 3. -/
opaque Config.initDynpd : Byte

/-- OPEN parameter `INIT_FEATURE` (R11). A free value: log 3. -/
opaque Config.initFeature : Byte

/-- OPEN parameter `INIT_CONFIG` (R11). A free value: log 3. -/
opaque Config.initConfig : Byte

/-- The oracle `oracle(H, b)` of 40_register_access.md R120, byte `i` of the answer: a draw that may depend on the
whole history (R18). A free value: log 1. -/
opaque Config.chipAnswer : List Event → Bytes → Nat → Byte

/-- The configuration with the spec's defaults (R8 to R11; numeric codes PRESUMED from general knowledge by the
spec itself, 93_implementation_defined.md GK1 to GK4: log 4) and the free values for the OPEN parameters. -/
def Config.cfg : Cfg where
  tCeUp := 1000
  tCeDown := 1000 + 1 + Config.tCeDownExcess
  tRadio := 1500
  tRx := 150
  txPollCap := 100
  tTxPoll := 100
  tRxPoll := Config.tRxPoll
  cmdRRegister := 0x00
  cmdWRegister := 0x20
  cmdRRxPlWid := 0x60
  cmdRRxPayload := 0x61
  cmdWTxPayload := 0xA0
  cmdFlushTx := 0xE1
  cmdFlushRx := 0xE2
  cmdNop := 0xFF
  regConfig := 0x00
  regSetupRetr := 0x04
  regRfCh := 0x05
  regRfSetup := 0x06
  regStatus := 0x07
  regRxAddrP0 := 0x0A
  regRxAddrP1 := 0x0B
  regRxAddrP2 := 0x0C
  regRxAddrP3 := 0x0D
  regRxAddrP4 := 0x0E
  regRxAddrP5 := 0x0F
  regTxAddr := 0x10
  regDynpd := 0x1C
  regFeature := 0x1D
  cfgPrimRx := 0x01
  cfgPwrUp := 0x02
  stMaxRt := 0x10
  stTxDs := 0x20
  stRxDr := 0x40
  stRxEmptyField := 0x0E
  fixedLen := Config.fixedLen
  fixedRxClear := true
  rxPipe := 1
  initRfSetup := Config.initRfSetup
  initDynpd := Config.initDynpd
  initFeature := Config.initFeature
  initConfig := Config.initConfig
  rxbufCap := 33

end Sys2Proof
end

