-- ==== Sys2Proof/Machine/State.lean ====
section
/-! DEFINITION. The state of the block as plain data (10_state.md R30 to R36, 40_register_access.md R123, 20_memory.md
R60), the reasons a step stops, and the state after construction (70_reset_and_hazards.md R270). -/

namespace Sys2Proof.Machine

/-- The fault kinds of 60_exceptions.md R240, in the order of their codes. -/
inductive FaultKind where
  | illegalReq
  | width
  | addrReg
  | payloadLen
  | rxbuf
  | busClosed
deriving DecidableEq, Repr

/-- A fault record `{kind, info}` (10_state.md R34). -/
structure FaultRecord where
  kind : FaultKind
  info : Nat
deriving DecidableEq, Repr

/-- A result record (30_encoding.md R109): `done`, and the fields that the request's row of R93 names. A field the
row does not name is absent. -/
structure Result where
  done : Bool
  v8 : Option Byte := none
  v40 : Option Addr := none
  ok : Option Bool := none
  len : Option Byte := none
  bytes : Option Bytes := none
  payloads : Option (List Bytes) := none
deriving DecidableEq, Repr

/-- A host buffer (20_memory.md R60): bytes by offset, offsets strictly rising. An offset that is not listed has no
value (log 9). -/
abbrev Memory := List Host.Cell

/-- The state of SWX. -/
structure State where
  /-- The configuration record (00_scope.md R6), carried by the state because `step` takes nothing else: log 3. -/
  cfg : Cfg
  /-- The host's request stream (10_state.md R35, R36), indexed by `pc`: log 2. -/
  stream : List Bytes
  /-- The chip's next answers, one an exchange (00_scope.md R18): the model's own field, log 1. -/
  answers : List Bytes
  /-- Exchanges that SWX is to make alone, for the opcode table's bus commands: the model's own field, log 5. -/
  busq : List Bytes
  /-- `ce` (R31). -/
  ce : Bool
  /-- `cfgsh` (R32); `none` is `UNKNOWN`. -/
  cfgsh : Option Byte
  /-- `open` (R33). -/
  isOpen : Bool
  /-- `fault` (R34); `none` is `NONE`. -/
  fault : Option FaultRecord
  /-- `pc` (R35). -/
  pc : Nat
  /-- The history `H` (40_register_access.md R123), oldest event first. -/
  hist : List Event
  /-- The host receive buffer `RXB` (20_memory.md R60). -/
  rxb : Memory
  /-- What the result port has returned (30_encoding.md R90, R109), oldest first: log 8. -/
  results : List Result
deriving DecidableEq, Repr

/-- Why the machine stops. -/
inductive Fault where
  /-- `x[fault]` is set, and SWX takes no further request (60_exceptions.md R242, 93_implementation_defined.md U8).
  Raised by `step` alone. Safe: the spec defines no step there. -/
  | blockFaulted
deriving DecidableEq, Repr

/-- Why a step has no meaning. -/
inductive Refusal where
  /-- The instruction has no meaning in the model yet. Raised by an arm of `exec`. Safe. -/
  | notModelled (mnemonic : String)
  /-- The stream holds an empty byte string, which is no request (30_encoding.md R90). Raised by the fetch. Safe:
  log 12. -/
  | emptyRequest
  /-- The bytes to be sent on the bus are no bus command (30_encoding.md R96, 91_not_in_source.md N6). Raised by the
  fetch. Safe: log 13. -/
  | notABusCommand
deriving DecidableEq, Repr

/-- The block right after construction with the configuration `c` (70_reset_and_hazards.md R270); the input fields
are empty (log 1, log 2, log 5, log 8, log 9). -/
def State.construct (c : Cfg) : State where
  cfg := c
  stream := []
  answers := []
  busq := []
  ce := false
  cfgsh := none
  isOpen := true
  fault := none
  pc := 0
  hist := []
  rxb := []
  results := []

/-- The machine right after reset (70_reset_and_hazards.md R270). -/
def State.reset : State := State.construct Config.cfg

end Sys2Proof.Machine
end

