-- ==== Sys2Proof/Machine/Flags.lean ====
section
/-! DEFINITION. Every flag the spec computes: the STATUS fields SWX tests (10_state.md R39, 43_framing.md R191, R194),
the CONFIG bits it sets and clears (R41, 42_power_fsm.md R172), the fault codes (60_exceptions.md R240) and the power
state (10_state.md R43). -/

namespace Sys2Proof.Machine

/-- The receive FIFO sub-field is not "all set empty" (43_framing.md R191). -/
def statusReady (c : Cfg) (status : Byte) : Bool := decide (status &&& c.stRxEmptyField ≠ c.stRxEmptyField)

/-- TX_DS is set (43_framing.md R194). -/
def statusSent (c : Cfg) (status : Byte) : Bool := decide (status &&& c.stTxDs ≠ 0#8)

/-- MAX_RT is set (43_framing.md R194). -/
def statusMaxRt (c : Cfg) (status : Byte) : Bool := decide (status &&& c.stMaxRt ≠ 0#8)

/-- The byte `setCfg` writes back (42_power_fsm.md R172). -/
def setBits (v mask : Byte) : Byte := v ||| mask

/-- The byte `clrCfg` writes back (42_power_fsm.md R172). -/
def clearBits (v mask : Byte) : Byte := v &&& ~~~mask

/-- The power states of 10_state.md R43 and R44. -/
inductive PowerState where
  | unknown
  | poweredDown
  | standby
  | listening
  | transmitting
deriving DecidableEq, Repr

/-- `pstate(ce, cfgsh)` (10_state.md R43). -/
def pstate (c : Cfg) (ce : Bool) (cfgsh : Option Byte) : PowerState :=
  match cfgsh with
  | none => .unknown
  | some v =>
    if v &&& c.cfgPwrUp = 0#8 then .poweredDown
    else if ce = false then .standby
    else if v &&& c.cfgPrimRx ≠ 0#8 then .listening
    else .transmitting

/-- The power state of the block. -/
def State.power (s : State) : PowerState := pstate s.cfg s.ce s.cfgsh

/-- The code of a fault kind (60_exceptions.md R240). -/
def FaultKind.code : FaultKind → Nat
  | .illegalReq => 1
  | .width => 2
  | .addrReg => 3
  | .payloadLen => 4
  | .rxbuf => 5
  | .busClosed => 6

end Sys2Proof.Machine
end

