-- ==== Sys2Proof/Syntax.lean ====
section
/-! DEFINITION. The instructions: one constructor per row of spec/opcode_table.json, the 23 requests of
30_encoding.md R93, the reserved row of R94 and the 8 bus commands of R97 to R104. -/

namespace Sys2Proof

/-- A request, with the operands of its format (30_encoding.md R91), or a bus command, with what its exchange
carries (20_memory.md R69). -/
inductive Instr where
  | readReg (reg : Byte)
  | writeReg (reg val : Byte)
  | readAddr (reg : Byte)
  | writeAddr (reg : Byte) (v : Addr)
  | addrEncode (n : Byte) (v : Addr)
  | addrDecode (n : Byte) (s : Bytes)
  | addrParse (k : Byte) (t : Bytes)
  | powerUp
  | powerDown
  | startRadio
  | stopRadio
  | startRx
  | stopRx
  | rxReady
  | rxDyn
  | rxFixed
  | tx (len : Byte) (txb : Bytes)
  | flushTx
  | flushRx
  | init (txa rxa : Addr) (ch rt : Byte)
  | rxLoop (cnt : BitVec 16)
  | shutdown
  | wait (us : BitVec 32)
  /-- A request whose op is reserved, of any length (R94). -/
  | reserved (op : Byte) (rest : Bytes)
  /-- R97: 1 filler for a register, 5 for a long address. -/
  | busRRegister (m : RegAddr) (long : Bool)
  /-- R98: 1 data byte for a register, 5 for a long address. -/
  | busWRegister (m : RegAddr) (data : Bytes)
  | busRRxPlWid
  /-- R100: `n` fillers. -/
  | busRRxPayload (n : Nat)
  /-- R101: the payload bytes. -/
  | busWTxPayload (data : Bytes)
  | busFlushTx
  | busFlushRx
  /-- R104: the filler byte by itself. -/
  | busNop
deriving DecidableEq, Repr

/-- Where the bytes of an instruction stand: on the request port (R90) or as an exchange SWX sends on its bus port
(R96). The two spaces share byte values (opcode_table.json, "kind"). -/
inductive Port where
  | request
  | bus
deriving DecidableEq, Repr

/-- The port an instruction belongs to. -/
def Instr.port : Instr → Port
  | .readReg _ => .request
  | .writeReg _ _ => .request
  | .readAddr _ => .request
  | .writeAddr _ _ => .request
  | .addrEncode _ _ => .request
  | .addrDecode _ _ => .request
  | .addrParse _ _ => .request
  | .powerUp => .request
  | .powerDown => .request
  | .startRadio => .request
  | .stopRadio => .request
  | .startRx => .request
  | .stopRx => .request
  | .rxReady => .request
  | .rxDyn => .request
  | .rxFixed => .request
  | .tx _ _ => .request
  | .flushTx => .request
  | .flushRx => .request
  | .init _ _ _ _ => .request
  | .rxLoop _ => .request
  | .shutdown => .request
  | .wait _ => .request
  | .reserved _ _ => .request
  | .busRRegister _ _ => .bus
  | .busWRegister _ _ => .bus
  | .busRRxPlWid => .bus
  | .busRRxPayload _ => .bus
  | .busWTxPayload _ => .bus
  | .busFlushTx => .bus
  | .busFlushRx => .bus
  | .busNop => .bus

end Sys2Proof
end

