-- ==== Sys2Proof/WellFormed.lean ====
section
/-! DEFINITION. What makes an instruction term one that an encoding can express: lengths that agree with their
length operand (30_encoding.md R91, R95), reserved ops (R94), exchange widths (20_memory.md R69). -/

namespace Sys2Proof

/-- Op 0x00 and ops 0x18 to 0xFF are reserved (30_encoding.md R94). -/
def reservedOp (op : Byte) : Bool := op == 0x00#8 || decide (0x18#8 ≤ op)

/-- The instruction can be written in its encoding. -/
def Instr.wf : Instr → Bool
  | .addrDecode n s => s.length == n.toNat
  | .addrParse k t => t.length == k.toNat
  | .tx len txb => txb.length == len.toNat
  | .reserved op _ => reservedOp op
  | .busWRegister _ data => data.length == 1 || data.length == 5
  | .busRRxPayload n => decide (n ≤ 32)
  | .busWTxPayload data => decide (data.length ≤ 32)
  | .readReg _ => true
  | .writeReg _ _ => true
  | .readAddr _ => true
  | .writeAddr _ _ => true
  | .addrEncode _ _ => true
  | .powerUp => true
  | .powerDown => true
  | .startRadio => true
  | .stopRadio => true
  | .startRx => true
  | .stopRx => true
  | .rxReady => true
  | .rxDyn => true
  | .rxFixed => true
  | .flushTx => true
  | .flushRx => true
  | .init _ _ _ _ => true
  | .rxLoop _ => true
  | .shutdown => true
  | .wait _ => true
  | .busRRegister _ _ => true
  | .busRRxPlWid => true
  | .busFlushTx => true
  | .busFlushRx => true
  | .busNop => true

end Sys2Proof
end

