-- ==== Sys2Proof/Decode.lean ====
section
/-! DEFINITION. From bytes to instructions and back: byte order (20_memory.md R64, R67), command byte composition
(R61, R62), the request decoder (30_encoding.md R90 to R95), the bus command reader (R96 to R104), the encoder, and
the reading of an opcode-table word. -/

namespace Sys2Proof

/-! ### Byte order and command bytes -/

/-- The `n` low bytes of `v`, least significant first (R64, R67). -/
def leBytes : Nat → Nat → Bytes
  | 0, _ => []
  | n + 1, v => BitVec.ofNat 8 v :: leBytes n (v / 256)

/-- The number whose bytes, least significant first, are given (R64, R67). -/
def leNat : Bytes → Nat
  | [] => 0
  | b :: bs => b.toNat + 256 * leNat bs

/-- A 40-bit operand from its five bytes (R91). -/
def leAddr (s : Bytes) : Addr := BitVec.ofNat 40 (leNat s)

/-- `ma(reg) = reg & 0x1F` (20_memory.md R61): bits 7 to 5 are dropped. -/
def ma (reg : Byte) : RegAddr := reg.setWidth 5

/-- `rdcmd` (20_memory.md R62) of a masked register address. -/
def rdcmd (c : Cfg) (m : RegAddr) : Byte := c.cmdRRegister ||| m.setWidth 8

/-- `wrcmd` (20_memory.md R62) of a masked register address. -/
def wrcmd (c : Cfg) (m : RegAddr) : Byte := c.cmdWRegister ||| m.setWidth 8

/-! ### Ops, formats and lengths -/

/-- The op map: one constructor per row of 30_encoding.md R93. -/
inductive Op where
  | readReg
  | writeReg
  | readAddr
  | writeAddr
  | addrEncode
  | addrDecode
  | addrParse
  | powerUp
  | powerDown
  | startRadio
  | stopRadio
  | startRx
  | stopRx
  | rxReady
  | rxDyn
  | rxFixed
  | tx
  | flushTx
  | flushRx
  | init
  | rxLoop
  | shutdown
  | wait
deriving DecidableEq, Repr

/-- The op byte of a row (R93). -/
def Op.code : Op → Byte
  | .readReg => 0x01#8
  | .writeReg => 0x02#8
  | .readAddr => 0x03#8
  | .writeAddr => 0x04#8
  | .addrEncode => 0x05#8
  | .addrDecode => 0x06#8
  | .addrParse => 0x07#8
  | .powerUp => 0x08#8
  | .powerDown => 0x09#8
  | .startRadio => 0x0A#8
  | .stopRadio => 0x0B#8
  | .startRx => 0x0C#8
  | .stopRx => 0x0D#8
  | .rxReady => 0x0E#8
  | .rxDyn => 0x0F#8
  | .rxFixed => 0x10#8
  | .tx => 0x11#8
  | .flushTx => 0x12#8
  | .flushRx => 0x13#8
  | .init => 0x14#8
  | .rxLoop => 0x15#8
  | .shutdown => 0x16#8
  | .wait => 0x17#8

/-- The rows of the op map. -/
def Op.all : List Op :=
  [.readReg, .writeReg, .readAddr, .writeAddr, .addrEncode, .addrDecode, .addrParse, .powerUp, .powerDown, .startRadio, .stopRadio, .startRx,
    .stopRx, .rxReady, .rxDyn, .rxFixed, .tx, .flushTx, .flushRx, .init, .rxLoop, .shutdown, .wait]

/-- The row that an op byte selects; none for a reserved op (R94). -/
def Op.ofByte (op : Byte) : Option Op := Op.all.find? fun o => o.code == op

/-- The request formats of 30_encoding.md R91. -/
inductive Format where
  | n | r | rv | ra | ea | db | ts | tx | inn | c16 | c32
deriving DecidableEq, Repr

/-- The format column of 30_encoding.md R93. -/
def Op.format : Op → Format
  | .readReg => .r
  | .writeReg => .rv
  | .readAddr => .r
  | .writeAddr => .ra
  | .addrEncode => .ea
  | .addrDecode => .db
  | .addrParse => .ts
  | .powerUp => .n
  | .powerDown => .n
  | .startRadio => .n
  | .stopRadio => .n
  | .startRx => .n
  | .stopRx => .n
  | .rxReady => .n
  | .rxDyn => .n
  | .rxFixed => .n
  | .tx => .tx
  | .flushTx => .n
  | .flushRx => .n
  | .init => .inn
  | .rxLoop => .c16
  | .shutdown => .n
  | .wait => .c32

/-- The format an op byte selects; none for a reserved op (R94). -/
def opFormat (op : Byte) : Option Format := (Op.ofByte op).map Op.format

/-- The length of a request of the format, from its byte 1 where the format is variable (30_encoding.md R91,
R95). -/
def formatLength : Format → Byte → Nat
  | .n, _ => 1
  | .r, _ => 2
  | .rv, _ => 3
  | .ra, _ => 7
  | .ea, _ => 7
  | .db, b1 => 2 + b1.toNat
  | .ts, b1 => 2 + b1.toNat
  | .tx, b1 => 2 + b1.toNat
  | .inn, _ => 13
  | .c16, _ => 3
  | .c32, _ => 5

/-! ### Decoding -/

/-- Why a byte string is no instruction. -/
inductive DecodeError where
  /-- A request has length 1 or more (30_encoding.md R90). -/
  | emptyRequest
  /-- The op is in the op map and the length is not its format's (R94). -/
  | badLength (op : Byte)
  /-- No bus command has these exchange bytes (R96, 20_memory.md R69). -/
  | notABusCommand
deriving DecidableEq, Repr

/-- A request with no operand (format N). -/
def plain (i : Instr) : Bytes → Option Instr
  | [] => some i
  | _ => none

/-- A request whose operand bytes are counted by its byte 1 (formats DB, TS, TX). -/
def counted (make : Byte → Bytes → Instr) : Bytes → Option Instr
  | n :: s => if s.length = n.toNat then some (make n s) else none
  | [] => none

/-- A register or width byte and a 40-bit address (formats RA, EA). -/
def withAddr (make : Byte → Addr → Instr) : Bytes → Option Instr
  | [b, a0, a1, a2, a3, a4] => some (make b (leAddr [a0, a1, a2, a3, a4]))
  | _ => none

/-- The operands of INIT (format IN). -/
def initOperands : Bytes → Option Instr
  | [t0, t1, t2, t3, t4, r0, r1, r2, r3, r4, ch, rt] =>
    some (.init (leAddr [t0, t1, t2, t3, t4]) (leAddr [r0, r1, r2, r3, r4]) ch rt)
  | _ => none

/-- One byte operand (format R). -/
def oneByte (make : Byte → Instr) : Bytes → Option Instr
  | [reg] => some (make reg)
  | _ => none

/-- Two byte operands (format RV). -/
def twoBytes (make : Byte → Byte → Instr) : Bytes → Option Instr
  | [reg, val] => some (make reg val)
  | _ => none

/-- A count or a duration, least significant byte first (formats C16, C32). -/
def numeral (size : Nat) (make : Nat → Instr) (rest : Bytes) : Option Instr :=
  if rest.length = size then some (make (leNat rest)) else none

/-- The request of a row with its operands (30_encoding.md R91, R93), where their number fits the format. -/
def Op.operands : Op → Bytes → Option Instr
  | .readReg => oneByte .readReg
  | .writeReg => twoBytes .writeReg
  | .readAddr => oneByte .readAddr
  | .writeAddr => withAddr .writeAddr
  | .addrEncode => withAddr .addrEncode
  | .addrDecode => counted .addrDecode
  | .addrParse => counted .addrParse
  | .powerUp => plain .powerUp
  | .powerDown => plain .powerDown
  | .startRadio => plain .startRadio
  | .stopRadio => plain .stopRadio
  | .startRx => plain .startRx
  | .stopRx => plain .stopRx
  | .rxReady => plain .rxReady
  | .rxDyn => plain .rxDyn
  | .rxFixed => plain .rxFixed
  | .tx => counted .tx
  | .flushTx => plain .flushTx
  | .flushRx => plain .flushRx
  | .init => initOperands
  | .rxLoop => numeral 2 fun n => .rxLoop (BitVec.ofNat 16 n)
  | .shutdown => plain .shutdown
  | .wait => numeral 4 fun n => .wait (BitVec.ofNat 32 n)

/-- The request decoder (30_encoding.md R90 to R95): an op that is not in the op map is a reserved request of any
length. -/
def decode : Bytes → Except DecodeError Instr
  | [] => .error .emptyRequest
  | op :: rest =>
    match Op.ofByte op with
    | none => .ok (.reserved op rest)
    | some o =>
      match o.operands rest with
      | some i => .ok i
      | none => .error (.badLength op)

/-- The bus command that an exchange's request bytes are (30_encoding.md R96 to R104, widths 20_memory.md R69). A
register command with 5 fillers or 5 data bytes is taken for every register: R97 and R98 give 5 to a long address and
say nothing of another register (DESIGN CHOICE, log 26). -/
def decodeBus (c : Cfg) : Bytes → Option Instr
  | [] => none
  | cmd :: rest =>
    if cmd = c.cmdRRxPlWid then
      if rest = [c.cmdNop] then some .busRRxPlWid else none
    else if cmd = c.cmdRRxPayload then
      if rest.length ≤ 32 ∧ rest = List.replicate rest.length c.cmdNop then some (.busRRxPayload rest.length) else none
    else if cmd = c.cmdWTxPayload then
      if rest.length ≤ 32 then some (.busWTxPayload rest) else none
    else if cmd = c.cmdFlushTx then
      if rest = [] then some .busFlushTx else none
    else if cmd = c.cmdFlushRx then
      if rest = [] then some .busFlushRx else none
    else if cmd = c.cmdNop ∧ rest = [] then some .busNop
    else if cmd = rdcmd c (ma cmd) then
      if rest = [c.cmdNop] then some (.busRRegister (ma cmd) false)
      else if rest = List.replicate 5 c.cmdNop then some (.busRRegister (ma cmd) true)
      else none
    else if cmd = wrcmd c (ma cmd) then
      if rest.length = 1 ∨ rest.length = 5 then some (.busWRegister (ma cmd) rest) else none
    else none

/-- The instruction that the bytes on a port are. -/
def decodeAt (c : Cfg) : Port → Bytes → Except DecodeError Instr
  | .request, q => decode q
  | .bus, b =>
    match decodeBus c b with
    | some i => .ok i
    | none => .error .notABusCommand

/-! ### Encoding -/

/-- The bytes of a well-formed instruction on its port: a request by 30_encoding.md R91 and R93, a bus command by
20_memory.md R69. -/
def encode (c : Cfg) : Instr → Bytes
  | .readReg reg => [0x01, reg]
  | .writeReg reg val => [0x02, reg, val]
  | .readAddr reg => [0x03, reg]
  | .writeAddr reg v => 0x04 :: reg :: leBytes 5 v.toNat
  | .addrEncode n v => 0x05 :: n :: leBytes 5 v.toNat
  | .addrDecode n s => 0x06 :: n :: s
  | .addrParse k t => 0x07 :: k :: t
  | .powerUp => [0x08]
  | .powerDown => [0x09]
  | .startRadio => [0x0A]
  | .stopRadio => [0x0B]
  | .startRx => [0x0C]
  | .stopRx => [0x0D]
  | .rxReady => [0x0E]
  | .rxDyn => [0x0F]
  | .rxFixed => [0x10]
  | .tx len d => 0x11 :: len :: d
  | .flushTx => [0x12]
  | .flushRx => [0x13]
  | .init txa rxa ch rt => 0x14 :: (leBytes 5 txa.toNat ++ leBytes 5 rxa.toNat ++ [ch, rt])
  | .rxLoop cnt => 0x15 :: leBytes 2 cnt.toNat
  | .shutdown => [0x16]
  | .wait us => 0x17 :: leBytes 4 us.toNat
  | .reserved op rest => op :: rest
  | .busRRegister m long => rdcmd c m :: List.replicate (if long then 5 else 1) c.cmdNop
  | .busWRegister m data => wrcmd c m :: data
  | .busRRxPlWid => [c.cmdRRxPlWid, c.cmdNop]
  | .busRRxPayload n => c.cmdRRxPayload :: List.replicate n c.cmdNop
  | .busWTxPayload data => c.cmdWTxPayload :: data
  | .busFlushTx => [c.cmdFlushTx]
  | .busFlushRx => [c.cmdFlushRx]
  | .busNop => [c.cmdNop]

/-! ### Words of the opcode table -/

/-- The bytes of a table word, its bits above `nbits` zero. -/
def wordBytes (count nbits w : Nat) : Bytes := leBytes count (w % 2 ^ nbits)

/-- An exchange begun by its byte 0 alone, completed to the shortest exchange its command has (20_memory.md R69):
the filler after a read command, one zero data byte after a register write. -/
def completeExchange (c : Cfg) (cmd : Byte) : Bytes :=
  if cmd = c.cmdRRxPlWid then [cmd, c.cmdNop]
  else if cmd ∈ [c.cmdRRxPayload, c.cmdWTxPayload, c.cmdFlushTx, c.cmdFlushRx, c.cmdNop] then [cmd]
  else if cmd = rdcmd c (ma cmd) then [cmd, c.cmdNop]
  else [cmd, 0x00]

/-- The port and the bytes of an opcode-table word (log 5). A word names no port: an op of the op map is a request
of its format's length; any other first byte that is a bus command is that command's exchange; what is left is a
reserved request. -/
def tableWord (c : Cfg) (nbits w : Nat) : Port × Bytes :=
  let given := wordBytes (max 1 ((nbits + 7) / 8)) nbits w
  let op := given.headD 0
  match opFormat op with
  | some f => (.request, wordBytes (formatLength f (given.getD 1 0)) nbits w)
  | none =>
    let exchange := if given.length ≤ 1 then completeExchange c op else given
    match decodeBus c exchange with
    | some _ => (.bus, exchange)
    | none => (.request, given)

/-- The instruction the decoder reads from an opcode-table word. -/
def decodeTableWord (nbits w : Nat) : Option Instr :=
  let p := tableWord Config.cfg nbits w
  (decodeAt Config.cfg p.1 p.2).toOption

end Sys2Proof
end

