-- ==== Sys2Proof/Machine/Operands.lean ====
section
/-! DEFINITION. The operand forms: register address classes (20_memory.md R63), the receive pipe of INIT
(44_host_ops.md R220), bytes of an answer, and the request bytes of every exchange SWX makes (20_memory.md R69,
30_encoding.md R97 to R104). -/

namespace Sys2Proof.Machine

/-- `v[i]` of a byte string (00_scope.md R12); the answers it reads have the length of their request. -/
def byteAt (s : Bytes) (i : Nat) : Byte := s.getD i 0

/-- `rep(n, b)` (00_scope.md R12). -/
def rep (n : Nat) (b : Byte) : Bytes := List.replicate n b

/-- The classes of 20_memory.md R63. -/
inductive AddrClass where
  | long
  | short
  | none
deriving DecidableEq, Repr

/-- `addrClass(m)` (20_memory.md R63). -/
def addrClass (c : Cfg) (m : RegAddr) : AddrClass :=
  if m = c.regRxAddrP0 ∨ m = c.regRxAddrP1 ∨ m = c.regTxAddr then .long
  else if m = c.regRxAddrP2 ∨ m = c.regRxAddrP3 ∨ m = c.regRxAddrP4 ∨ m = c.regRxAddrP5 then .short
  else .none

/-- `cfg.REG_RX_ADDR_P<cfg.RX_PIPE>` (44_host_ops.md R220). -/
def rxPipeReg (c : Cfg) : RegAddr :=
  match c.rxPipe with
  | 0 => c.regRxAddrP0
  | 1 => c.regRxAddrP1
  | 2 => c.regRxAddrP2
  | 3 => c.regRxAddrP3
  | 4 => c.regRxAddrP4
  | 5 => c.regRxAddrP5

/-! ### Request bytes of the exchanges (20_memory.md R69) -/

/-- Read register: command and one filler (R97). -/
def readRegBytes (c : Cfg) (m : RegAddr) : Bytes := [rdcmd c m, c.cmdNop]

/-- Write register: command and value (R98). -/
def writeRegBytes (c : Cfg) (m : RegAddr) (v : Byte) : Bytes := [wrcmd c m, v]

/-- Read long address: command and five fillers (40_register_access.md R129). -/
def readLongBytes (c : Cfg) (m : RegAddr) : Bytes := rdcmd c m :: rep 5 c.cmdNop

/-- Length query (30_encoding.md R99). -/
def lengthQueryBytes (c : Cfg) : Bytes := [c.cmdRRxPlWid, c.cmdNop]

/-- Read payload: command and `n` fillers (30_encoding.md R100). -/
def readPayloadBytes (c : Cfg) (n : Nat) : Bytes := c.cmdRRxPayload :: rep n c.cmdNop

/-- Write payload: command and the payload (30_encoding.md R101). -/
def writePayloadBytes (c : Cfg) (d : Bytes) : Bytes := c.cmdWTxPayload :: d

/-- Flush-transmit (30_encoding.md R102). -/
def flushTxBytes (c : Cfg) : Bytes := [c.cmdFlushTx]

/-- Flush-receive (30_encoding.md R103). -/
def flushRxBytes (c : Cfg) : Bytes := [c.cmdFlushRx]

/-- `MemRead(TXB+0, n)` (00_scope.md R14): TXB is the TX request's operand bytes, which decoding makes `n` long
(20_memory.md R76; log 24). -/
def readTxb (txb : Bytes) (n : Nat) : Bytes := txb.take n

end Sys2Proof.Machine
end

