-- ==== Sys2Proof/Machine/Ops.lean ====
section
/-! DEFINITION. The shared operations: host buffers (00_scope.md R14), the port primitives Exchange, SetCE and Wait
(40_register_access.md R120 to R122), raising a fault (60_exceptions.md R242), completing a request (R127), and the
bodies that several requests run (R16). -/

namespace Sys2Proof.Machine

/-! ### Host buffers -/

/-- The byte at an offset; none where nothing has been written (log 9). -/
def Memory.read : Memory → Nat → Option Byte
  | [], _ => none
  | (b, w) :: m, a => if b = a then some w else Memory.read m a

/-- `MemWrite(B+a, 1, v)` (00_scope.md R14): the offsets stay strictly rising. -/
def Memory.write : Memory → Nat → Byte → Memory
  | [], a, v => [(a, v)]
  | (b, w) :: m, a, v =>
    if a < b then (a, v) :: (b, w) :: m
    else if a = b then (a, v) :: m
    else (b, w) :: Memory.write m a v

/-- `MemWrite(B+a, n, v)`, byte by byte in rising order (20_memory.md R65). -/
def Memory.writeBytes : Memory → Nat → Bytes → Memory
  | m, _, [] => m
  | m, a, v :: vs => Memory.writeBytes (Memory.write m a v) (a + 1) vs

/-- `MemRead(B+a, n)` of bytes that have been written (R14); an offset without a value contributes none (log 9). -/
def Memory.readBytes (m : Memory) (a n : Nat) : Bytes := (List.range n).filterMap fun i => Memory.read m (a + i)

/-- The canonical form: offsets strictly rising. -/
abbrev Memory.wf (m : Memory) : Prop := (m.map Prod.fst).Pairwise (· < ·)

/-- Every listed offset is inside a buffer of `cap` bytes (20_memory.md R60, R76). -/
abbrev Memory.within (m : Memory) (cap : Nat) : Prop := ∀ a ∈ m.map Prod.fst, a < cap

/-! ### Port primitives -/

/-- The answer of `Exchange(b)`: a draw of `len(b)` bytes (40_register_access.md R120). Byte `i` is the one the chip
is going to give, where `answers` holds it, and a free value that may depend on the whole history (00_scope.md R18)
where it does not: log 1. -/
def State.response (s : State) (b : Bytes) : Bytes :=
  (List.range b.length).map fun i => (s.answers.headD []).getD i (Config.chipAnswer s.hist b i)

/-- The CONFIG shadow after an exchange (10_state.md R32): only a 2-byte write to CONFIG changes it. -/
def shadowAfter (c : Cfg) (cfgsh : Option Byte) (b : Bytes) : Option Byte :=
  match b with
  | [cmd, v] => if cmd = wrcmd c c.regConfig then some v else cfgsh
  | _ => cfgsh

/-- The state after `Exchange(b)` (40_register_access.md R120); its answer is `s.response b`. -/
def State.exchange (s : State) (b : Bytes) : State :=
  { s with
    hist := s.hist ++ [.xchg b (s.response b)]
    answers := s.answers.drop 1
    cfgsh := shadowAfter s.cfg s.cfgsh b }

/-- `SetCE(v)` (40_register_access.md R121). -/
def State.setCE (s : State) (v : Bool) : State := { s with hist := s.hist ++ [.ce v], ce := v }

/-- `Wait(T)` (40_register_access.md R122). -/
def State.waitFor (s : State) (d : Delay) : State := { s with hist := s.hist ++ [.wait d] }

/-- `MemWrite(RXB+a, n, v)`. -/
def State.writeRxb (s : State) (a : Nat) (v : Bytes) : State := { s with rxb := Memory.writeBytes s.rxb a v }

/-! ### Ending a request -/

/-- `raise F(info)` (60_exceptions.md R242): the sticky fault is set, the request returns `done = 0`, and nothing
else changes. -/
def State.raise (s : State) (kind : FaultKind) (info : Nat) : State :=
  { s with fault := some ⟨kind, info⟩, results := s.results ++ [{ done := false }] }

/-- The request returns `r` and `pc` counts it (10_state.md R35, 40_register_access.md R127). -/
def State.complete (s : State) (r : Result) : State := { s with pc := s.pc + 1, results := s.results ++ [r] }

/-- The closed-bus check (40_register_access.md R124) before a body that performs port events; `op` is `q[0]`. -/
def State.onBus (s : State) (op : Byte) (body : State → State) : State :=
  if s.isOpen then body s else s.raise .busClosed op.toNat

/-! ### Bodies that other requests run (00_scope.md R16) -/

/-- The value the READ_REG body returns (40_register_access.md R125). -/
def readRegValue (m : RegAddr) (s : State) : Byte := byteAt (s.response (readRegBytes s.cfg m)) 1

/-- The READ_REG body (40_register_access.md R125). -/
def readRegBody (m : RegAddr) (s : State) : State := s.exchange (readRegBytes s.cfg m)

/-- The WRITE_REG body (40_register_access.md R126). -/
def writeRegBody (m : RegAddr) (v : Byte) (s : State) : State := s.exchange (writeRegBytes s.cfg m v)

/-- The powerUp body (42_power_fsm.md R170). -/
def powerUpBody (s : State) : State := (s.setCE true).waitFor .tCeUp

/-- The powerDown body (42_power_fsm.md R171). -/
def powerDownBody (s : State) : State := (s.setCE false).waitFor .tCeDown

/-- `setCfg(mask)` (42_power_fsm.md R172): CONFIG is read, then written with the mask's bits set. -/
def setCfgBody (mask : Byte) (s : State) : State :=
  writeRegBody s.cfg.regConfig (setBits (readRegValue s.cfg.regConfig s) mask) (readRegBody s.cfg.regConfig s)

/-- `clrCfg(mask)` (42_power_fsm.md R172): CONFIG is read, then written with the mask's bits clear. -/
def clrCfgBody (mask : Byte) (s : State) : State :=
  writeRegBody s.cfg.regConfig (clearBits (readRegValue s.cfg.regConfig s) mask) (readRegBody s.cfg.regConfig s)

end Sys2Proof.Machine
end

