-- ==== Sys2Proof/Machine/BusCommands.lean ====
section
/-! DEFINITION. The reserved requests (30_encoding.md R94) and the bus commands by themselves (R96 to R104): each
command's meaning is the one exchange it begins. A bus command is no request, so its exchange returns no result and
does not move `pc` (log 5); refused on a closed bus it returns a record with `done = 0` (log 7). -/

namespace Sys2Proof.Machine

/-- A bus command's exchange, under the precondition `x[open] = 1` of 40_register_access.md R120. On a closed bus it
raises F_BUS_CLOSED with its command byte, and that puts a record with `done = 0` on the result port though it is no
request (DESIGN CHOICE, log 7). -/
def State.busCommand (s : State) (b : Bytes) : State := s.onBus (byteAt b 0) fun s => s.exchange b

/-- A reserved request takes F_ILLEGAL_REQ(op) with no port event (R94). -/
def execReserved (op : Byte) (_rest : Bytes) (s : State) : Host.Outcome State Fault Refusal :=
  .next (s.raise .illegalReq op.toNat)

/-- BUS_R_REGISTER (R97): one filler for a register, five for a long address. -/
def execBusRRegister (m : RegAddr) (long : Bool) (s : State) : Host.Outcome State Fault Refusal :=
  .next (s.busCommand (if long then readLongBytes s.cfg m else readRegBytes s.cfg m))

/-- BUS_W_REGISTER (R98). -/
def execBusWRegister (m : RegAddr) (data : Bytes) (s : State) : Host.Outcome State Fault Refusal :=
  .next (s.busCommand (wrcmd s.cfg m :: data))

/-- BUS_R_RX_PL_WID (R99). -/
def execBusRRxPlWid (s : State) : Host.Outcome State Fault Refusal := .next (s.busCommand (lengthQueryBytes s.cfg))

/-- BUS_R_RX_PAYLOAD (R100). -/
def execBusRRxPayload (n : Nat) (s : State) : Host.Outcome State Fault Refusal :=
  .next (s.busCommand (readPayloadBytes s.cfg n))

/-- BUS_W_TX_PAYLOAD (R101). -/
def execBusWTxPayload (data : Bytes) (s : State) : Host.Outcome State Fault Refusal :=
  .next (s.busCommand (writePayloadBytes s.cfg data))

/-- BUS_FLUSH_TX (R102). -/
def execBusFlushTx (s : State) : Host.Outcome State Fault Refusal := .next (s.busCommand (flushTxBytes s.cfg))

/-- BUS_FLUSH_RX (R103). -/
def execBusFlushRx (s : State) : Host.Outcome State Fault Refusal := .next (s.busCommand (flushRxBytes s.cfg))

/-- BUS_NOP (R104): a filler is never byte 0 of an exchange, so by itself it begins none (log 6). -/
def execBusNop (s : State) : Host.Outcome State Fault Refusal := .next s

end Sys2Proof.Machine
end

