-- ==== Sys2Proof/Machine/Framing.lean ====
section
/-! DEFINITION. The packet framer (43_framing.md): receive-ready, dynamic and fixed receive, transmit with a bounded
poll, and the flushes. -/

namespace Sys2Proof.Machine

/-- What `rxReady()` returns (R191). -/
def rxReadyValue (s : State) : Bool := statusReady s.cfg (readRegValue s.cfg.regStatus s)

/-- The state after `rxReady()` (R191). -/
def rxReadyBody (s : State) : State := readRegBody s.cfg.regStatus s

/-- The status clear of one flag (R197). -/
def clearFlag (mask : Byte) (s : State) : State := writeRegBody s.cfg.regStatus mask s

/-- Steps 3 to 5 of the dynamic receive (R192), for a reported length `n` of at most 32: the payload and its
terminator go to RXB, and RX_DR is cleared. -/
def rxDynPayload (n : Byte) (s : State) : State :=
  let b := readPayloadBytes s.cfg n.toNat
  clearFlag s.cfg.stRxDr ((s.exchange b).writeRxb 0 ((s.response b).drop 1 ++ [0x00]))

/-- The RX_DYN body (R192): the length returned and the state after it. -/
def rxDynBody (s : State) : Byte × State :=
  let s1 := rxReadyBody s
  if rxReadyValue s then
    let n := byteAt (s1.response (lengthQueryBytes s.cfg)) 1
    let s2 := s1.exchange (lengthQueryBytes s.cfg)
    if 32 < n.toNat then (0, s2.exchange (flushRxBytes s.cfg)) else (n, rxDynPayload n s2)
  else (0, s1)

/-- The payload part of the fixed receive (R193), with the clear that `FIXED_RX_CLEAR` selects. -/
def rxFixedPayload (s : State) : State :=
  let b := readPayloadBytes s.cfg s.cfg.fixedLen.val
  let s1 := (s.exchange b).writeRxb 0 ((s.response b).drop 1)
  if s.cfg.fixedRxClear then clearFlag s.cfg.stRxDr s1 else s1

/-- The RX_FIXED body (R193): `ok` and the state after it. -/
def rxFixedBody (s : State) : Bool × State :=
  let s1 := rxReadyBody s
  if rxReadyValue s then (true, rxFixedPayload s1) else (false, s1)

/-- How a transmission ends (R198). -/
inductive TxOutcome where
  | success
  | hwFail
  | timeout
deriving DecidableEq, Repr

/-- The poll loop of TX (R194 steps 4 and 5) with `n` polls left. Success is tested first; the MAX_RT path flushes
before powerDown, the timeout path after it. -/
def txPoll : Nat → State → TxOutcome × State
  | 0, s => (.timeout, (powerDownBody s).exchange (flushTxBytes s.cfg))
  | n + 1, s =>
    let status := readRegValue s.cfg.regStatus s
    let s1 := readRegBody s.cfg.regStatus s
    if statusSent s.cfg status then (.success, powerDownBody (clearFlag s.cfg.stTxDs s1))
    else if statusMaxRt s.cfg status then
      (.hwFail, powerDownBody ((clearFlag s.cfg.stMaxRt s1).exchange (flushTxBytes s.cfg)))
    else txPoll n (s1.waitFor .tTxPoll)

/-- Steps 1 to 3 of TX (R194): the defensive flush, the load, powerUp. -/
def txLoad (payload : Bytes) (s : State) : State :=
  powerUpBody ((s.exchange (flushTxBytes s.cfg)).exchange (writePayloadBytes s.cfg payload))

/-- The TX body (R194): its outcome and the state after it. -/
def txBody (payload : Bytes) (s : State) : TxOutcome × State := txPoll s.cfg.txPollCap (txLoad payload s)

/-- RX_READY (R190). -/
def execRxReady (s : State) : Host.Outcome State Fault Refusal :=
  .next (s.onBus 0x0E fun s => (rxReadyBody s).complete { done := true, ok := some (rxReadyValue s) })

/-- RX_DYN (R192). -/
def execRxDyn (s : State) : Host.Outcome State Fault Refusal :=
  .next
    (if s.cfg.rxbufCap < 33 then s.raise .rxbuf 33
      else s.onBus 0x0F fun s => (rxDynBody s).2.complete { done := true, len := some (rxDynBody s).1 })

/-- RX_FIXED (R193). -/
def execRxFixed (s : State) : Host.Outcome State Fault Refusal :=
  .next
    (if s.cfg.rxbufCap < s.cfg.fixedLen.val then s.raise .rxbuf s.cfg.fixedLen.val
      else s.onBus 0x10 fun s => (rxFixedBody s).2.complete { done := true, ok := some (rxFixedBody s).1 })

/-- TX (R194); the outcome reaches the host only as `ok` (R198). -/
def execTx (len : Byte) (txb : Bytes) (s : State) : Host.Outcome State Fault Refusal :=
  .next
    (if 32 < len.toNat then s.raise .payloadLen len.toNat
      else s.onBus 0x11 fun s =>
        let r := txBody (readTxb txb len.toNat) s
        r.2.complete { done := true, ok := some (decide (r.1 = .success)) })

/-- FLUSH_TX (R195). -/
def execFlushTx (s : State) : Host.Outcome State Fault Refusal :=
  .next (s.onBus 0x12 fun s => (s.exchange (flushTxBytes s.cfg)).complete { done := true })

/-- FLUSH_RX (R196). -/
def execFlushRx (s : State) : Host.Outcome State Fault Refusal :=
  .next (s.onBus 0x13 fun s => (s.exchange (flushRxBytes s.cfg)).complete { done := true })

end Sys2Proof.Machine
end

