-- ==== Sys2Proof/Machine/Power.lean ====
section
/-! DEFINITION. The power state machine (42_power_fsm.md): the CE requests, the CONFIG power bit requests and the
receive role requests. -/

namespace Sys2Proof.Machine

/-- The startRadio body (R173). -/
def startRadioBody (s : State) : State := (setCfgBody s.cfg.cfgPwrUp s).waitFor .tRadio

/-- The stopRadio body (R174). -/
def stopRadioBody (s : State) : State := (clrCfgBody s.cfg.cfgPwrUp s).waitFor .tRadio

/-- The startRx body (R175). -/
def startRxBody (s : State) : State := (setCfgBody s.cfg.cfgPrimRx (powerUpBody s)).waitFor .tRx

/-- The stopRx body (R176). -/
def stopRxBody (s : State) : State := (clrCfgBody s.cfg.cfgPrimRx (powerDownBody s)).waitFor .tRx

/-- POWER_UP (R170). -/
def execPowerUp (s : State) : Host.Outcome State Fault Refusal :=
  .next (s.onBus 0x08 fun s => (powerUpBody s).complete { done := true })

/-- POWER_DOWN (R171). -/
def execPowerDown (s : State) : Host.Outcome State Fault Refusal :=
  .next (s.onBus 0x09 fun s => (powerDownBody s).complete { done := true })

/-- START_RADIO (R173). -/
def execStartRadio (s : State) : Host.Outcome State Fault Refusal :=
  .next (s.onBus 0x0A fun s => (startRadioBody s).complete { done := true })

/-- STOP_RADIO (R174). -/
def execStopRadio (s : State) : Host.Outcome State Fault Refusal :=
  .next (s.onBus 0x0B fun s => (stopRadioBody s).complete { done := true })

/-- START_RX (R175). -/
def execStartRx (s : State) : Host.Outcome State Fault Refusal :=
  .next (s.onBus 0x0C fun s => (startRxBody s).complete { done := true })

/-- STOP_RX (R176). -/
def execStopRx (s : State) : Host.Outcome State Fault Refusal :=
  .next (s.onBus 0x0D fun s => (stopRxBody s).complete { done := true })

end Sys2Proof.Machine
end

