-- ==== Sys2Proof/Machine/Codec.lean ====
section
/-! DEFINITION. The radio address encoder/decoder (41_address_codec.md): the functions and the three requests, which
perform no port event and do not look at `open` (40_register_access.md R124). -/

namespace Sys2Proof.Machine

/-- The encoder `enc(v, n)` (R150): byte `i` is `(v >> 8i) & 0xFF`. -/
def enc (v : Addr) (n : Nat) : Bytes := leBytes n v.toNat

/-- The decoder `dec(s, n)` of a byte string of length `n` (R151). -/
def dec (s : Bytes) : Addr := leAddr s

/-- Short-address composition (R153). -/
def compose (hi : Addr) (lo : Byte) : Addr := (hi &&& 0xFFFFFFFF00#40) ||| lo.setWidth 40

/-- `hexval(c)` (R157); none is BAD. -/
def hexval (ch : Byte) : Option Byte :=
  if 0x30#8 ≤ ch ∧ ch ≤ 0x39#8 then some (ch - 0x30#8)
  else if 0x61#8 ≤ ch ∧ ch ≤ 0x66#8 then some (ch - 0x61#8 + 10#8)
  else if 0x41#8 ≤ ch ∧ ch ≤ 0x46#8 then some (ch - 0x41#8 + 10#8)
  else none

/-- The loop of R156 over `n` pairs of hex digits, most significant pair first. -/
def parsePairs : Nat → Addr → Bytes → Option Addr
  | 0, v, _ => some v
  | n + 1, v, h :: l :: rest =>
    match hexval h, hexval l with
    | some hh, some ll => parsePairs n ((v <<< 8) ||| (hh * 16#8 + ll).setWidth 40) rest
    | _, _ => none
  | _ + 1, _, _ => none

/-- The address text parser (R156); none is a rejection. -/
def parseAddress (k : Nat) (t : Bytes) : Option Addr :=
  if k < 10 then none
  else
    match parsePairs 5 0 t with
    | some v => if v = 0 then none else some v
    | none => none

/-- A codec width is 1 to 5 (R154, R155). -/
def widthValid (n : Byte) : Bool := decide (1 ≤ n.toNat ∧ n.toNat ≤ 5)

/-- ADDR_ENCODE (R154). -/
def execAddrEncode (n : Byte) (v : Addr) (s : State) : Host.Outcome State Fault Refusal :=
  .next (if widthValid n then s.complete { done := true, bytes := some (enc v n.toNat) } else s.raise .width n.toNat)

/-- ADDR_DECODE (R155). -/
def execAddrDecode (n : Byte) (b : Bytes) (s : State) : Host.Outcome State Fault Refusal :=
  .next (if widthValid n then s.complete { done := true, v40 := some (dec b) } else s.raise .width n.toNat)

/-- What ADDR_PARSE returns (R156): a rejection is `ok = 0` with `v40 = 0`. -/
def parseResult : Option Addr → Result
  | some v => { done := true, ok := some true, v40 := some v }
  | none => { done := true, ok := some false, v40 := some 0 }

/-- ADDR_PARSE (R156). -/
def execAddrParse (k : Byte) (t : Bytes) (s : State) : Host.Outcome State Fault Refusal :=
  .next (s.complete (parseResult (parseAddress k.toNat t)))

end Sys2Proof.Machine
end

