-- ==== Sys2Proof/Machine/Registers.lean ====
section
/-! DEFINITION. The register access multiplexer (40_register_access.md): READ_REG, WRITE_REG, READ_ADDR, WRITE_ADDR,
and the address bodies that INIT runs too. -/

namespace Sys2Proof.Machine

/-- `readLong(m)`: the address returned (R129), response bytes 1 to 5. -/
def readLongValue (m : RegAddr) (s : State) : Addr := dec ((s.response (readLongBytes s.cfg m)).drop 1)

/-- `readLong(m)`: the state after it (R129). -/
def readLongBody (m : RegAddr) (s : State) : State := s.exchange (readLongBytes s.cfg m)

/-- `writeLong(m, v)` (R131). -/
def writeLongBody (m : RegAddr) (v : Addr) (s : State) : State := s.exchange (wrcmd s.cfg m :: enc v 5)

/-- The READ_REG meaning (R125). -/
def execReadReg (reg : Byte) (s : State) : Host.Outcome State Fault Refusal :=
  .next (s.onBus 0x01 fun s =>
    (readRegBody (ma reg) s).complete { done := true, v8 := some (readRegValue (ma reg) s) })

/-- The WRITE_REG meaning (R126). -/
def execWriteReg (reg val : Byte) (s : State) : Host.Outcome State Fault Refusal :=
  .next (s.onBus 0x02 fun s => (writeRegBody (ma reg) val s).complete { done := true })

/-- READ_ADDR of a long register (R128). -/
def readLongAddr (m : RegAddr) (s : State) : State :=
  (readLongBody m s).complete { done := true, v40 := some (readLongValue m s) }

/-- READ_ADDR of a short register (R128): pipe 1's address first, then this pipe's own byte. -/
def readShortAddr (m : RegAddr) (s : State) : State :=
  let s1 := readLongBody s.cfg.regRxAddrP1 s
  (readRegBody m s1).complete
    { done := true, v40 := some (compose (readLongValue s.cfg.regRxAddrP1 s) (readRegValue m s1)) }

/-- The READ_ADDR meaning (R128). -/
def execReadAddr (reg : Byte) (s : State) : Host.Outcome State Fault Refusal :=
  .next
    (match addrClass s.cfg (ma reg) with
      | .none => s.raise .addrReg reg.toNat
      | .long => s.onBus 0x03 (readLongAddr (ma reg))
      | .short => s.onBus 0x03 (readShortAddr (ma reg)))

/-- The WRITE_ADDR body of a register that has a class (R130). -/
def writeAddrBody (m : RegAddr) (v : Addr) (s : State) : State :=
  if addrClass s.cfg m = .long then writeLongBody m v s else writeRegBody m (v.setWidth 8) s

/-- The WRITE_ADDR meaning (R130). -/
def execWriteAddr (reg : Byte) (v : Addr) (s : State) : Host.Outcome State Fault Refusal :=
  .next
    (if addrClass s.cfg (ma reg) = .none then s.raise .addrReg reg.toNat
      else s.onBus 0x04 fun s => (writeAddrBody (ma reg) v s).complete { done := true })

end Sys2Proof.Machine
end

