-- ==== Sys2Proof/Machine/HostOps.lean ====
section
/-! DEFINITION. The host-level operations (44_host_ops.md): INIT, RX_LOOP, SHUTDOWN, WAIT. -/

namespace Sys2Proof.Machine

/-- The register programming of INIT (R220), in the order of the source's list. -/
def initWrites (txa rxa : Addr) (ch rt : Byte) (s : State) : State :=
  let c := s.cfg
  writeRegBody c.regSetupRetr rt
    (writeRegBody c.regConfig c.initConfig
      (writeRegBody c.regRfCh ch
        (writeRegBody c.regFeature c.initFeature
          (writeRegBody c.regDynpd c.initDynpd
            (writeRegBody c.regRfSetup c.initRfSetup
              (writeAddrBody (rxPipeReg c) rxa
                (writeLongBody c.regTxAddr txa s)))))))

/-- The INIT body (R220): the writes, startRadio, one FLUSH_RX. -/
def initBody (txa rxa : Addr) (ch rt : Byte) (s : State) : State :=
  (startRadioBody (initWrites txa rxa ch rt s)).exchange (flushRxBytes s.cfg)

/-- The loop of RX_LOOP (R221): `n` dynamic receives, each followed by `Wait(T_RX_POLL)`; a payload of positive
length is read back from RXB and appended. -/
def rxLoopIter : Nat → List Bytes → State → List Bytes × State
  | 0, ps, s => (ps, s)
  | n + 1, ps, s =>
    let r := rxDynBody s
    let ps' := if 0 < r.1.toNat then ps ++ [Memory.readBytes r.2.rxb 0 r.1.toNat] else ps
    rxLoopIter n ps' (r.2.waitFor .tRxPoll)

/-- The RX_LOOP body (R221): the payloads and the state after it. -/
def rxLoopBody (cnt : Nat) (s : State) : List Bytes × State :=
  let r := rxLoopIter cnt [] (startRxBody s)
  (r.1, stopRxBody r.2)

/-- The SHUTDOWN body (R222): stopRadio, then the handles are released; `ce` stays. -/
def shutdownBody (s : State) : State := { stopRadioBody s with isOpen := false }

/-- INIT (R220). -/
def execInit (txa rxa : Addr) (ch rt : Byte) (s : State) : Host.Outcome State Fault Refusal :=
  .next (s.onBus 0x14 fun s => (initBody txa rxa ch rt s).complete { done := true })

/-- RX_LOOP (R221). -/
def execRxLoop (cnt : BitVec 16) (s : State) : Host.Outcome State Fault Refusal :=
  .next
    (if s.cfg.rxbufCap < 33 then s.raise .rxbuf 33
      else s.onBus 0x15 fun s =>
        let r := rxLoopBody cnt.toNat s
        r.2.complete { done := true, payloads := some r.1 })

/-- SHUTDOWN (R222). -/
def execShutdown (s : State) : Host.Outcome State Fault Refusal :=
  .next (s.onBus 0x16 fun s => (shutdownBody s).complete { done := true })

/-- WAIT (R223): it runs whatever `open` is. -/
def execWait (us : BitVec 32) (s : State) : Host.Outcome State Fault Refusal :=
  .next ((s.waitFor (.micros us)).complete { done := true })

end Sys2Proof.Machine
end

