-- ==== Sys2Proof/Machine/Dispatch.lean ====
section
/-! DEFINITION. One arm per instruction. -/

namespace Sys2Proof.Machine

/-- The meaning of an instruction, once fetched (40_register_access.md R127). -/
def exec (i : Instr) (s : State) : Host.Outcome State Fault Refusal :=
  match i with
  | .readReg reg => Sys2Proof.Machine.execReadReg reg s
  | .writeReg reg val => Sys2Proof.Machine.execWriteReg reg val s
  | .readAddr reg => Sys2Proof.Machine.execReadAddr reg s
  | .writeAddr reg v => Sys2Proof.Machine.execWriteAddr reg v s
  | .addrEncode n v => Sys2Proof.Machine.execAddrEncode n v s
  | .addrDecode n b => Sys2Proof.Machine.execAddrDecode n b s
  | .addrParse k t => Sys2Proof.Machine.execAddrParse k t s
  | .powerUp => Sys2Proof.Machine.execPowerUp s
  | .powerDown => Sys2Proof.Machine.execPowerDown s
  | .startRadio => Sys2Proof.Machine.execStartRadio s
  | .stopRadio => Sys2Proof.Machine.execStopRadio s
  | .startRx => Sys2Proof.Machine.execStartRx s
  | .stopRx => Sys2Proof.Machine.execStopRx s
  | .rxReady => Sys2Proof.Machine.execRxReady s
  | .rxDyn => Sys2Proof.Machine.execRxDyn s
  | .rxFixed => Sys2Proof.Machine.execRxFixed s
  | .tx len txb => Sys2Proof.Machine.execTx len txb s
  | .flushTx => Sys2Proof.Machine.execFlushTx s
  | .flushRx => Sys2Proof.Machine.execFlushRx s
  | .init txa rxa ch rt => Sys2Proof.Machine.execInit txa rxa ch rt s
  | .rxLoop cnt => Sys2Proof.Machine.execRxLoop cnt s
  | .shutdown => Sys2Proof.Machine.execShutdown s
  | .wait us => Sys2Proof.Machine.execWait us s
  | .reserved op rest => Sys2Proof.Machine.execReserved op rest s
  | .busRRegister m long => Sys2Proof.Machine.execBusRRegister m long s
  | .busWRegister m data => Sys2Proof.Machine.execBusWRegister m data s
  | .busRRxPlWid => Sys2Proof.Machine.execBusRRxPlWid s
  | .busRRxPayload n => Sys2Proof.Machine.execBusRRxPayload n s
  | .busWTxPayload data => Sys2Proof.Machine.execBusWTxPayload data s
  | .busFlushTx => Sys2Proof.Machine.execBusFlushTx s
  | .busFlushRx => Sys2Proof.Machine.execBusFlushRx s
  | .busNop => Sys2Proof.Machine.execBusNop s

end Sys2Proof.Machine
end

