-- ==== Sys2Proof/Machine/Fetch.lean ====
section
/-! DEFINITION. Taking the next instruction: the fault check and the decode of 40_register_access.md R127, and the
placing of an opcode-table word where it is taken next. -/

namespace Sys2Proof.Machine

/-- What the block does next. -/
inductive Fetched where
  /-- The sticky fault is set: no step (60_exceptions.md R242). -/
  | stuck
  /-- No request is waiting: the block is idle (60_exceptions.md R252). -/
  | idle
  /-- A request of the wrong length: it raises F_ILLEGAL_REQ(op) (30_encoding.md R94). -/
  | illegal (op : Byte)
  /-- The bytes are no instruction. -/
  | refuse (r : Refusal)
  /-- Run the instruction in the state. -/
  | run (i : Instr) (s : State)
deriving DecidableEq, Repr

/-- What decoding the bytes on a port leads to; `s` is the state the instruction runs in. -/
def fetchAt (p : Port) (b : Bytes) (s : State) : Fetched :=
  match decodeAt s.cfg p b with
  | .ok i => .run i s
  | .error (.badLength op) => .illegal op
  | .error .emptyRequest => .refuse .emptyRequest
  | .error .notABusCommand => .refuse .notABusCommand

/-- The next thing the block does: nothing when faulted; the waiting bus command (log 5); else the request that `pc`
indexes (10_state.md R35), which stays in the stream. -/
def fetch (s : State) : Fetched :=
  match s.fault with
  | some _ => .stuck
  | none =>
    match s.busq with
    | b :: rest => fetchAt .bus b { s with busq := rest }
    | [] =>
      match s.stream[s.pc]? with
      | some q => fetchAt .request q s
      | none => .idle

/-- The stream with `q` as the request of index `n`; a shorter stream is filled up with a reserved request. -/
def placeRequest : List Bytes → Nat → Bytes → List Bytes
  | [], 0, q => [q]
  | _ :: rest, 0, q => q :: rest
  | [], n + 1, q => [0x00] :: placeRequest [] n q
  | r :: rest, n + 1, q => r :: placeRequest rest n q

/-- The bytes placed on a port, so that the next fetch takes them (log 2, log 5). -/
def State.place (s : State) (p : Port) (b : Bytes) : State :=
  match p with
  | .request => { s with stream := placeRequest s.stream s.pc b, busq := [] }
  | .bus => { s with busq := b :: s.busq }

end Sys2Proof.Machine
end

