-- ==== Sys2Proof/Machine/Step.lean ====
section
/-! DEFINITION. One step: one request from fetch to result (00_scope.md R17, 40_register_access.md R127). -/

namespace Sys2Proof.Machine

/-- The step of the block. -/
def step (s : State) : Host.Outcome State Fault Refusal :=
  match fetch s with
  | .stuck => .fault .blockFaulted
  | .idle => .next s
  | .illegal op => .next (s.raise .illegalReq op.toNat)
  | .refuse r => .refused r
  | .run i s' => exec i s'

/-- `s` with an opcode-table word placed where the next step takes it (log 2, log 5). -/
def State.withFetchWord (s : State) (nbits w : Nat) : State :=
  s.place (tableWord s.cfg nbits w).1 (tableWord s.cfg nbits w).2

end Sys2Proof.Machine
end

