-- ==== Sys2Proof/Machine/Assembler.lean ====
section
/-! DEFINITION. The request syntax of 30_encoding.md R106 and the pseudo-requests of R107: from a line of text to the
one request it stands for. Details the rule leaves open are in log 21. -/

namespace Sys2Proof.Machine

/-- The pseudo-requests of R107. -/
inductive Pseudo where
  | clearRxDr
  | clearTxDs
  | clearMaxRt
  | readStatus
  | setChannel (ch : Byte)
deriving DecidableEq, Repr

/-- A register parameter as an 8-bit register operand. -/
def regOperand (m : RegAddr) : Byte := m.setWidth 8

/-- The request a pseudo-request expands to (R107). -/
def Pseudo.expand (c : Cfg) : Pseudo → Instr
  | .clearRxDr => .writeReg (regOperand c.regStatus) c.stRxDr
  | .clearTxDs => .writeReg (regOperand c.regStatus) c.stTxDs
  | .clearMaxRt => .writeReg (regOperand c.regStatus) c.stMaxRt
  | .readStatus => .readReg (regOperand c.regStatus)
  | .setChannel ch => .writeReg (regOperand c.regRfCh) ch

/-- The text without the spaces around it. -/
def trimSpaces (cs : List Char) : List Char :=
  ((cs.dropWhile (· == ' ')).reverse.dropWhile (· == ' ')).reverse

/-- A digit of a base up to 16. -/
def digitValue (base : Nat) (ch : Char) : Option Nat :=
  let n := ch.toNat
  let d := if 48 ≤ n ∧ n ≤ 57 then n - 48
    else if 97 ≤ n ∧ n ≤ 102 then n - 97 + 10
    else if 65 ≤ n ∧ n ≤ 70 then n - 65 + 10
    else base
  if d < base then some d else none

/-- The digits read as a number, most significant first. -/
def digitsValue (base : Nat) : Nat → List Char → Option Nat
  | acc, [] => some acc
  | acc, ch :: cs =>
    match digitValue base ch with
    | some d => digitsValue base (acc * base + d) cs
    | none => none

/-- A number, hexadecimal with `0x` or decimal (R106), below `bound`. -/
def numberBelow (bound : Nat) (cs : List Char) : Option Nat :=
  let v := match cs with
    | '0' :: 'x' :: d :: ds => digitsValue 16 0 (d :: ds)
    | d :: ds => digitsValue 10 0 (d :: ds)
    | [] => none
  match v with
  | some n => if n < bound then some n else none
  | none => none

/-- A byte operand. -/
def byteOperand (cs : List Char) : Option Byte := (numberBelow 256 cs).map (BitVec.ofNat 8)

/-- A 40-bit operand. -/
def addrOperand (cs : List Char) : Option Addr := (numberBelow (2 ^ 40) cs).map (BitVec.ofNat 40)

/-- The register names of 00_scope.md R9. -/
def registerNames (c : Cfg) : List (List Char × RegAddr) :=
  [("CONFIG".toList, c.regConfig), ("SETUP_RETR".toList, c.regSetupRetr), ("RF_CH".toList, c.regRfCh),
    ("RF_SETUP".toList, c.regRfSetup), ("STATUS".toList, c.regStatus), ("RX_ADDR_P0".toList, c.regRxAddrP0),
    ("RX_ADDR_P1".toList, c.regRxAddrP1), ("RX_ADDR_P2".toList, c.regRxAddrP2), ("RX_ADDR_P3".toList, c.regRxAddrP3),
    ("RX_ADDR_P4".toList, c.regRxAddrP4), ("RX_ADDR_P5".toList, c.regRxAddrP5), ("TX_ADDR".toList, c.regTxAddr),
    ("DYNPD".toList, c.regDynpd), ("FEATURE".toList, c.regFeature)]

/-- The name without a leading `REG_`. -/
def withoutReg : List Char → List Char
  | 'R' :: 'E' :: 'G' :: '_' :: cs => cs
  | cs => cs

/-- A register operand: a number or a name (R106). -/
def registerOperand (c : Cfg) (cs : List Char) : Option Byte :=
  match byteOperand cs with
  | some b => some b
  | none => ((registerNames c).lookup (withoutReg cs)).map regOperand

/-- The text between the commas that stand outside brackets and quotes; `cur` is the current part, reversed. -/
def splitAtCommas : Nat → Bool → List Char → List Char → List (List Char)
  | _, _, cur, [] => [cur.reverse]
  | depth, true, cur, ch :: cs => splitAtCommas depth (ch != '"') (ch :: cur) cs
  | depth, false, cur, ch :: cs =>
    if ch == ',' && depth == 0 then cur.reverse :: splitAtCommas 0 false [] cs
    else if ch == '[' then splitAtCommas (depth + 1) false (ch :: cur) cs
    else if ch == ']' then splitAtCommas (depth - 1) false (ch :: cur) cs
    else splitAtCommas depth (ch == '"') (ch :: cur) cs

/-- The operands of a line; none for a text of spaces. -/
def splitOperands (cs : List Char) : List (List Char) :=
  match trimSpaces cs with
  | [] => []
  | cs' => (splitAtCommas 0 false [] cs').map trimSpaces

/-- All values, where each is present. -/
def allSome : List (Option Byte) → Option Bytes
  | [] => some []
  | none :: _ => none
  | some b :: bs => (allSome bs).map (b :: ·)

/-- The characters between an opening character already taken and the closing one at the end. -/
def untilLast (close : Char) (cs : List Char) : Option (List Char) :=
  match cs.reverse with
  | last :: body => if last == close then some body.reverse else none
  | [] => none

/-- A byte list in brackets. -/
def bytesOperand : List Char → Option Bytes
  | '[' :: cs =>
    match untilLast ']' cs with
    | some body => allSome ((splitOperands body).map byteOperand)
    | none => none
  | _ => none

/-- A text in double quotes, as its ASCII codes. It goes up to the last character, which is the closing quote; there is
no escape, and a quote or a backslash inside it stands for itself (DESIGN CHOICE, log 21). -/
def textOperand : List Char → Option Bytes
  | '"' :: cs =>
    match untilLast '"' cs with
    | some body => allSome (body.map fun ch => if ch.toNat < 128 then some (BitVec.ofNat 8 ch.toNat) else none)
    | none => none
  | _ => none

/-- A payload: a byte list or a text, with its length implied (R106). -/
def payloadOperand (cs : List Char) : Option Bytes :=
  match bytesOperand cs with
  | some d => some d
  | none => textOperand cs

/-- An instruction with a byte string and its length byte, where the length fits in a byte. -/
def withLength (make : Byte → Bytes → Instr) (d : Bytes) : Option Instr :=
  if d.length < 256 then some (make (BitVec.ofNat 8 d.length) d) else none

/-- A request with no operand (format N). -/
def assemblePlain (mnemonic : List Char) : Option Instr :=
  ([("POWER_UP".toList, Instr.powerUp), ("POWER_DOWN".toList, .powerDown), ("START_RADIO".toList, .startRadio),
    ("STOP_RADIO".toList, .stopRadio), ("START_RX".toList, .startRx), ("STOP_RX".toList, .stopRx),
    ("RX_READY".toList, .rxReady), ("RX_DYN".toList, .rxDyn), ("RX_FIXED".toList, .rxFixed),
    ("FLUSH_TX".toList, .flushTx), ("FLUSH_RX".toList, .flushRx), ("SHUTDOWN".toList, .shutdown)]).lookup mnemonic

/-- A pseudo-request (R107). -/
def assemblePseudo (mnemonic : List Char) (args : List (List Char)) : Option Pseudo :=
  match args with
  | [] =>
    ([("CLEAR_RX_DR".toList, Pseudo.clearRxDr), ("CLEAR_TX_DS".toList, .clearTxDs),
      ("CLEAR_MAX_RT".toList, .clearMaxRt), ("READ_STATUS".toList, .readStatus)]).lookup mnemonic
  | [ch] => if mnemonic = "SET_CHANNEL".toList then (byteOperand ch).map .setChannel else none
  | _ => none

/-- A request with operands (R106). -/
def assembleOperands (c : Cfg) (mnemonic : List Char) (args : List (List Char)) : Option Instr :=
  match args with
  | [a] =>
    if mnemonic = "READ_REG".toList then (registerOperand c a).map .readReg
    else if mnemonic = "READ_ADDR".toList then (registerOperand c a).map .readAddr
    else if mnemonic = "ADDR_PARSE".toList then (textOperand a).bind (withLength .addrParse)
    else if mnemonic = "TX".toList then (payloadOperand a).bind (withLength .tx)
    else if mnemonic = "RX_LOOP".toList then (numberBelow (2 ^ 16) a).map fun n => .rxLoop (BitVec.ofNat 16 n)
    else if mnemonic = "WAIT".toList then (numberBelow (2 ^ 32) a).map fun n => .wait (BitVec.ofNat 32 n)
    else none
  | [a, b] =>
    if mnemonic = "WRITE_REG".toList then
      (registerOperand c a).bind fun reg => (byteOperand b).map fun val => .writeReg reg val
    else if mnemonic = "WRITE_ADDR".toList then
      (registerOperand c a).bind fun reg => (addrOperand b).map fun v => .writeAddr reg v
    else if mnemonic = "ADDR_ENCODE".toList then
      (byteOperand a).bind fun n => (addrOperand b).map fun v => .addrEncode n v
    else if mnemonic = "ADDR_DECODE".toList then
      (byteOperand a).bind fun n => (bytesOperand b).map fun s => .addrDecode n s
    else none
  | [a, b, ch, rt] =>
    if mnemonic = "INIT".toList then
      (addrOperand a).bind fun txa => (addrOperand b).bind fun rxa =>
        (byteOperand ch).bind fun ch => (byteOperand rt).map fun rt => .init txa rxa ch rt
    else none
  | _ => none

/-- The request that one line of text stands for (R106, R107). -/
def assemble (c : Cfg) (line : List Char) : Option Instr :=
  let text := trimSpaces line
  let mnemonic := text.takeWhile (· != ' ')
  let args := splitOperands (text.dropWhile (· != ' '))
  match assemblePseudo mnemonic args with
  | some p => some (p.expand c)
  | none =>
    match args with
    | [] => assemblePlain mnemonic
    | _ => assembleOperands c mnemonic args

end Sys2Proof.Machine
end

