-- ==== Sys2Proof/Safety.lean ====
section
/-! DEFINITION. The terms in which claims speak of a safe run: the oracle's draws, what the history says, the invariant
of the block, the settle contract (70_reset_and_hazards.md R273, R274), the optional chip contract
(40_register_access.md R133, 10_state.md R40, R45), and the vocabulary of the transmit and receive claims. -/

namespace Sys2Proof.Machine

/-! ### Draws -/

/-- `r` is an answer to the request bytes `b` when `answers` is what the chip is going to say: it has the length of
`b` (40_register_access.md R120), and it holds every byte that the next answer gives. -/
def Drawn (answers : List Bytes) (b r : Bytes) : Prop :=
  r.length = b.length ∧ ∀ i x, i < b.length → (answers.headD [])[i]? = some x → r[i]? = some x

/-- Every exchange among the events is answered by a draw, in order, when `answers` is what the chip is going to
say. -/
def drawnAll : List Bytes → List Event → Prop
  | _, [] => True
  | answers, .xchg b r :: es => Drawn answers b r ∧ drawnAll (answers.drop 1) es
  | answers, .ce _ :: es => drawnAll answers es
  | answers, .wait _ :: es => drawnAll answers es

/-- The event is an exchange. -/
def isExchange : Event → Bool
  | .xchg _ _ => true
  | .ce _ => false
  | .wait _ => false

/-! ### What the history says -/

/-- The level an event drives the chip-enable output to. -/
def ceLevel : Event → Option Bool
  | .ce v => some v
  | .xchg _ _ => none
  | .wait _ => none

/-- The byte an event writes to CONFIG (10_state.md R32). -/
def configWrite (c : Cfg) : Event → Option Byte
  | .xchg [cmd, v] _ => if cmd = wrcmd c c.regConfig then some v else none
  | _ => none

/-- The level the history leaves the chip-enable output at: the last one driven, 0 before the first. -/
def ceOf (h : List Event) : Bool := ((h.filterMap ceLevel).getLast?).getD false

/-- The last byte the history writes to CONFIG (10_state.md R32). -/
def shadowOf (c : Cfg) (h : List Event) : Option Byte := (h.filterMap (configWrite c)).getLast?

/-- An exchange event is one of the bus commands of 30_encoding.md R97 to R103, of 1 to 33 bytes, with an answer of
its length (40_register_access.md R120). -/
def shaped (c : Cfg) : Event → Prop
  | .xchg b r => (1 ≤ b.length ∧ b.length ≤ 33 ∧ r.length = b.length) ∧ ∃ i, decodeBus c b = some i ∧ i ≠ .busNop
  | .ce _ => True
  | .wait _ => True

/-! ### The invariant of the block -/

/-- What every step keeps: the configuration is valid, `ce` and `cfgsh` are what the history says, every exchange is
a bus command, RXB is in canonical form and never written past its end, `pc` counts the requests that returned
`done = 1`, and the one `done = 0` is the fault's. -/
structure State.Inv (s : State) : Prop where
  valid : s.cfg.Valid
  ceTracks : s.ce = ceOf s.hist
  shadowTracks : s.cfgsh = shadowOf s.cfg s.hist
  exchanges : ∀ e ∈ s.hist, shaped s.cfg e
  rxbCanonical : Memory.wf s.rxb
  rxbInside : Memory.within s.rxb s.cfg.rxbufCap
  pcCounts : (s.results.filter (·.done)).length = s.pc
  faultReported : (s.results.filter fun r => !r.done).length = if s.fault = none then 0 else 1

/-! ### The settle contract -/

/-- The transitions that still owe their settle delay (R273, R274): the chip-enable line with the delay it owes, a
change of PWR_UP, which owes `T_RADIO`, and a change of PRIM_RX, which owes `T_RX`; and the byte CONFIG is known to
hold, from which a later write's changes are read (log 18). -/
structure Settle where
  ce : Option Delay
  power : Bool
  role : Bool
  config : Option Byte
deriving DecidableEq, Repr

/-- Nothing owes a delay. -/
def Settle.quiet (p : Settle) : Bool := p.ce.isNone && !p.power && !p.role

/-- Waiting `d` meets the delay `need`: it is a wait "of at least" that long (R274). -/
def covers (c : Cfg) (need d : Delay) : Bool := decide (c.duration need ≤ c.duration d)

/-- Writing `v` over `old` changes a bit of the mask; over an unknown byte it may (log 18). -/
def mayChange (mask : Byte) (old : Option Byte) (v : Byte) : Bool :=
  match old with
  | some o => decide ((o ^^^ v) &&& mask ≠ 0#8)
  | none => true

/-- The register addresses 0x1E and 0x1F, which name no register (20_memory.md R72). -/
def outsideMap (m : RegAddr) : Bool := decide (0x1D < m.toNat)

/-- What is owed after an exchange: a CONFIG write opens the window of each bit it changes (R274), and of both where
it is not the 2-byte write; so does a write to 0x1E or 0x1F, whose effect on the chip is unknown
(93_implementation_defined.md U1); a CONFIG read outside a window tells what CONFIG holds (log 18). -/
def Settle.afterExchange (c : Cfg) (p : Settle) (b r : Bytes) : Settle :=
  match b with
  | [] => p
  | cmd :: data =>
    if cmd = wrcmd c c.regConfig then
      match data with
      | [v] =>
        { p with
          power := p.power || mayChange c.cfgPwrUp p.config v
          role := p.role || mayChange c.cfgPrimRx p.config v
          config := some v }
      | _ => { p with power := true, role := true, config := none }
    else if cmd = wrcmd c (ma cmd) ∧ outsideMap (ma cmd) = true then
      { p with power := true, role := true, config := none }
    else if cmd = rdcmd c c.regConfig ∧ p.quiet = true then { p with config := r[1]? }
    else p

/-- What is owed after an event. -/
def Settle.after (c : Cfg) (p : Settle) : Event → Settle
  | .ce true => { p with ce := some .tCeUp }
  | .ce false => { p with ce := some .tCeDown }
  | .wait d =>
    { p with
      ce := p.ce.filter fun need => !covers c need d
      power := p.power && !covers c .tRadio d
      role := p.role && !covers c .tRx d }
  | .xchg b r => p.afterExchange c b r

/-- What is owed after a history. -/
def Settle.afterAll (c : Cfg) (p : Settle) (h : List Event) : Settle := h.foldl (fun q e => q.after c e) p

/-- The event reads STATUS. -/
def readsStatus (c : Cfg) : Event → Bool
  | .xchg b _ => b.head? == some (rdcmd c c.regStatus)
  | .ce _ => false
  | .wait _ => false

/-- The events in order, from what is owed before them; none where STATUS is read while a delay is owed, which R273
forbids. -/
def settleRun (c : Cfg) : Settle → List Event → Option Settle
  | p, [] => some p
  | p, e :: es => if readsStatus c e && !p.quiet then none else settleRun c (p.after c e) es

/-! ### The chip contract -/

/-- The chip as the contract speaks of it: the content of each register, least significant byte first, and the two
FIFOs, oldest payload first (10_state.md R37, R38, R45). How many payloads the transmit FIFO holds is in no source
(91_not_in_source.md N5), so `txDepth` is any number that the chip keeps (log 19). -/
structure Chip where
  content : RegAddr → Bytes
  txFifo : List Bytes
  rxFifo : List Bytes
  txDepth : Nat

/-- The bytes a register holds (10_state.md R38): five for a long address register, else one. -/
def registerWidth (c : Cfg) (m : RegAddr) : Nat := if addrClass c m = .long then 5 else 1

/-- A chip that holds what R38 and R45 say: registers of their width, payloads of 0 to 32 bytes. -/
structure Chip.Ok (c : Cfg) (k : Chip) : Prop where
  widths : ∀ m, (k.content m).length = registerWidth c m
  payloads : ∀ p ∈ k.txFifo ++ k.rxFifo, p.length ≤ 32
  depth : 1 ≤ k.txDepth ∧ k.txFifo.length ≤ k.txDepth

/-- The W1C flags of STATUS (10_state.md R39, R40). -/
def flagMask (c : Cfg) : Byte := c.stRxDr ||| c.stTxDs ||| c.stMaxRt

/-- What a write of `data` makes of the content `old` of register `m` (20_memory.md R71): STATUS loses the flags
written as 1 and nothing else changes (10_state.md R40); any other register holds the data. A write that is not of
the register's width (5 bytes to an 8-bit register, 1 byte to a long address) leaves any content, because no source
says what it does (92_eei_decisions.md D7; log 19). -/
def writtenContent (c : Cfg) (m : RegAddr) (data old new : Bytes) : Prop :=
  if m = c.regStatus then ∀ w, data = [w] → new = old.map fun x => x &&& ~~~(w &&& flagMask c)
  else data.length = registerWidth c m → new = data

/-- What an exchange does to the chip (10_state.md R40, R45, 20_memory.md R71; that a read takes the payload out is
93_implementation_defined.md GK6). Left open, so that anything may follow (log 19), are a register write to 0x1E or
0x1F (93_implementation_defined.md U1), what the transmit FIFO holds after a write-payload to a full one
(91_not_in_source.md N5), and bytes that are no command SWX emits (N6). -/
def Chip.after (c : Cfg) (k : Chip) (b : Bytes) (k' : Chip) : Prop :=
  k'.Ok c ∧ k'.txDepth = k.txDepth ∧
    match decodeBus c b with
    | some (.busRRegister _ _) => k' = k
    | some .busRRxPlWid => k' = k
    | some (.busWRegister m data) =>
      outsideMap m = false →
        (∀ m', m' ≠ m → k'.content m' = k.content m') ∧
          writtenContent c m data (k.content m) (k'.content m) ∧ k'.txFifo = k.txFifo ∧ k'.rxFifo = k.rxFifo
    | some (.busRRxPayload _) => k' = { k with rxFifo := k.rxFifo.tail }
    | some (.busWTxPayload d) =>
      k'.content = k.content ∧ k'.rxFifo = k.rxFifo ∧ (k.txFifo.length < k.txDepth → k'.txFifo = k.txFifo ++ [d])
    | some .busFlushTx => k' = { k with txFifo := [] }
    | some .busFlushRx => k' = { k with rxFifo := [] }
    | _ => True

/-- What the chip may do by itself between exchanges (log 19). A STATUS flag may be set and is not cleared, as R40's
"until the chip sets it again"; STATUS's other bits may change; the other registers of 00_scope.md R9 change only
through register access (10_state.md R37). Received payloads join the receive FIFO behind the oldest, and payloads
leave the transmit FIFO from its front. -/
def Chip.drift (c : Cfg) (k k' : Chip) : Prop :=
  k'.Ok c ∧ k'.txDepth = k.txDepth ∧
    (∀ m ∈ c.registers, m ≠ c.regStatus → k'.content m = k.content m) ∧
    (∀ old new, (k.content c.regStatus)[0]? = some old → (k'.content c.regStatus)[0]? = some new →
      old &&& flagMask c &&& ~~~new = 0#8) ∧
    k.rxFifo <+: k'.rxFifo ∧ k'.txFifo <:+ k.txFifo

/-- The exchanges whose response the contract leaves an unconstrained draw: a register read or write at 0x1E or 0x1F
(93_implementation_defined.md U1), a register read, STATUS among them, inside a settle window (U6,
70_reset_and_hazards.md R274), and bytes that are no command SWX emits (91_not_in_source.md N6, log 19). -/
def unboundResponse (c : Cfg) (quiet : Bool) (b : Bytes) : Bool :=
  match decodeBus c b with
  | some (.busRRegister m _) => outsideMap m || !quiet
  | some (.busWRegister m _) => outsideMap m
  | some .busRRxPlWid => false
  | some (.busRRxPayload _) => false
  | some (.busWTxPayload _) => false
  | some .busFlushTx => false
  | some .busFlushRx => false
  | _ => true

/-- The answer that the contract binds (40_register_access.md R133), for every exchange but those of
`unboundResponse`: the status snapshot (a), the content of the register read (b), and the length (c) and the bytes
(d) of the oldest received payload. -/
def Chip.answers (c : Cfg) (k : Chip) (quiet : Bool) (b r : Bytes) : Prop :=
  r.length = b.length ∧
    (unboundResponse c quiet b = false →
      (∀ x, (k.content c.regStatus)[0]? = some x → 0 < b.length → r[0]? = some x) ∧
        (∀ m i x, b.head? = some (rdcmd c m) → (k.content m)[i]? = some x → i + 1 < b.length → r[i + 1]? = some x) ∧
        (∀ p ps, k.rxFifo = p :: ps → b.head? = some c.cmdRRxPlWid → 1 < b.length →
          r[1]? = some (BitVec.ofNat 8 p.length)) ∧
        ∀ p ps i x, k.rxFifo = p :: ps → b.head? = some c.cmdRRxPayload → p[i]? = some x → i + 1 < b.length →
          r[i + 1]? = some x)

/-- The history conforms to the contract from a chip `k` and a settle state `p`: before each exchange the chip may do
what it does by itself, it answers by the contract, and the exchange has its effect. -/
def Conforms (c : Cfg) : Settle → Chip → List Event → Prop
  | _, _, [] => True
  | p, k, .xchg b r :: es =>
    ∃ k₁ k₂, k.drift c k₁ ∧ k₁.answers c p.quiet b r ∧ k₁.after c b k₂ ∧ Conforms c (p.after c (.xchg b r)) k₂ es
  | p, k, .ce v :: es => Conforms c (p.after c (.ce v)) k es
  | p, k, .wait d :: es => Conforms c (p.after c (.wait d)) k es

/-! ### Vocabulary of the claims -/

/-- A lower-case hex digit (41_address_codec.md R157). -/
def hexDigit (n : Nat) : Byte := if n < 10 then BitVec.ofNat 8 (0x30 + n) else BitVec.ofNat 8 (0x61 + (n - 10))

/-- The character `ch` is the hex digit of value `n` (41_address_codec.md R157). -/
def hexDigitOf (ch : Byte) (n : Nat) : Prop :=
  (0x30 ≤ ch.toNat ∧ ch.toNat ≤ 0x39 ∧ n = ch.toNat - 0x30) ∨
    (0x61 ≤ ch.toNat ∧ ch.toNat ≤ 0x66 ∧ n = ch.toNat - 0x61 + 10) ∨
    (0x41 ≤ ch.toNat ∧ ch.toNat ≤ 0x46 ∧ n = ch.toNat - 0x41 + 10)

/-- The address text of `v`: ten hex digits, most significant pair first (20_memory.md R66). -/
def addressText (v : Addr) : Bytes := (List.range 10).map fun i => hexDigit (v.toNat / 16 ^ (9 - i) % 16)

/-- The events of STATUS polls that found neither terminal bit, each followed by its delay (43_framing.md R194). -/
def missEvents (c : Cfg) (answers : List Bytes) : List Event :=
  answers.flatMap fun r => [.xchg [rdcmd c c.regStatus, c.cmdNop] r, .wait .tTxPoll]

/-- A poll's answer has neither terminal bit. -/
def pollMissed (c : Cfg) (r : Bytes) : Prop :=
  byteAt r 1 &&& c.stTxDs = 0#8 ∧ byteAt r 1 &&& c.stMaxRt = 0#8

/-- The payload an event reads from the chip. -/
def payloadRead (c : Cfg) : Event → Option Bytes
  | .xchg (cmd :: _) r => if cmd = c.cmdRRxPayload then some (r.drop 1) else none
  | _ => none

/-- The events of one iteration of RX_LOOP (44_host_ops.md R221): a dynamic receive (43_framing.md R192), which finds
no data, flushes a length above 32 or takes a payload, and then the poll delay. -/
def rxIteration (c : Cfg) (evs : List Event) : Prop :=
  ∃ r0,
    let e0 := Event.xchg [rdcmd c c.regStatus, c.cmdNop] r0
    (byteAt r0 1 &&& c.stRxEmptyField = c.stRxEmptyField ∧ evs = [e0, .wait .tRxPoll]) ∨
      (byteAt r0 1 &&& c.stRxEmptyField ≠ c.stRxEmptyField ∧ ∃ r1,
        let e1 := Event.xchg [c.cmdRRxPlWid, c.cmdNop] r1
        let n := (byteAt r1 1).toNat
        (32 < n ∧ ∃ r2, evs = [e0, e1, .xchg [c.cmdFlushRx] r2, .wait .tRxPoll]) ∨
          (n ≤ 32 ∧ ∃ r2 r3,
            evs = [e0, e1, .xchg (c.cmdRRxPayload :: List.replicate n c.cmdNop) r2,
              .xchg [wrcmd c c.regStatus, c.stRxDr] r3, .wait .tRxPoll]))

/-- The requests that perform a port event on the bus or the chip-enable line (40_register_access.md R124), with
their op. -/
def busOp : Instr → Option Byte
  | .readReg _ => some 0x01
  | .writeReg _ _ => some 0x02
  | .readAddr _ => some 0x03
  | .writeAddr _ _ => some 0x04
  | .powerUp => some 0x08
  | .powerDown => some 0x09
  | .startRadio => some 0x0A
  | .stopRadio => some 0x0B
  | .startRx => some 0x0C
  | .stopRx => some 0x0D
  | .rxReady => some 0x0E
  | .rxDyn => some 0x0F
  | .rxFixed => some 0x10
  | .tx _ _ => some 0x11
  | .flushTx => some 0x12
  | .flushRx => some 0x13
  | .init _ _ _ _ => some 0x14
  | .rxLoop _ => some 0x15
  | .shutdown => some 0x16
  | .addrEncode _ _ => none
  | .addrDecode _ _ => none
  | .addrParse _ _ => none
  | .wait _ => none
  | .reserved _ _ => none
  | .busRRegister _ _ => none
  | .busWRegister _ _ => none
  | .busRRxPlWid => none
  | .busRRxPayload _ => none
  | .busWTxPayload _ => none
  | .busFlushTx => none
  | .busFlushRx => none
  | .busNop => none

/-- The fault an operand check of the request raises (60_exceptions.md R240), and its info. -/
def operandFault (c : Cfg) : Instr → Option FaultRecord
  | .addrEncode n _ => if n.toNat < 1 ∨ 5 < n.toNat then some ⟨.width, n.toNat⟩ else none
  | .addrDecode n _ => if n.toNat < 1 ∨ 5 < n.toNat then some ⟨.width, n.toNat⟩ else none
  | .readAddr reg => if addrClass c (ma reg) = .none then some ⟨.addrReg, reg.toNat⟩ else none
  | .writeAddr reg _ => if addrClass c (ma reg) = .none then some ⟨.addrReg, reg.toNat⟩ else none
  | .tx len _ => if 32 < len.toNat then some ⟨.payloadLen, len.toNat⟩ else none
  | .rxDyn => if c.rxbufCap < 33 then some ⟨.rxbuf, 33⟩ else none
  | .rxLoop _ => if c.rxbufCap < 33 then some ⟨.rxbuf, 33⟩ else none
  | .rxFixed => if c.rxbufCap < c.fixedLen.val then some ⟨.rxbuf, c.fixedLen.val⟩ else none
  | .readReg _ => none
  | .writeReg _ _ => none
  | .addrParse _ _ => none
  | .powerUp => none
  | .powerDown => none
  | .startRadio => none
  | .stopRadio => none
  | .startRx => none
  | .stopRx => none
  | .rxReady => none
  | .flushTx => none
  | .flushRx => none
  | .init _ _ _ _ => none
  | .shutdown => none
  | .wait _ => none
  | .reserved _ _ => none
  | .busRRegister _ _ => none
  | .busWRegister _ _ => none
  | .busRRxPlWid => none
  | .busRRxPayload _ => none
  | .busWTxPayload _ => none
  | .busFlushTx => none
  | .busFlushRx => none
  | .busNop => none

/-- The power state after a request that starts in `p` with the chip-enable level `ce` and the shadow's PRIM_RX bit
`prim`: the table of 42_power_fsm.md R177, for known power states. -/
def powerTable : Instr → PowerState → Bool → Bool → Option PowerState
  | .powerUp, p, _, prim =>
    some (match p with
      | .poweredDown => .poweredDown
      | .standby => if prim then .listening else .transmitting
      | p => p)
  | .powerDown, p, _, _ => some (if p = .poweredDown then .poweredDown else .standby)
  | .startRadio, p, ce, prim =>
    some (match p with
      | .poweredDown => if ce then (if prim then .listening else .transmitting) else .standby
      | p => p)
  | .stopRadio, _, _, _ => some .poweredDown
  | .startRx, p, _, _ => some (if p = .poweredDown then .poweredDown else .listening)
  | .stopRx, p, _, _ => some (if p = .poweredDown then .poweredDown else .standby)
  | .tx _ _, p, _, _ => some (if p = .poweredDown then .poweredDown else .standby)
  | .readReg _, _, _, _ => none
  | .writeReg _ _, _, _, _ => none
  | .readAddr _, _, _, _ => none
  | .writeAddr _ _, _, _, _ => none
  | .addrEncode _ _, _, _, _ => none
  | .addrDecode _ _, _, _, _ => none
  | .addrParse _ _, _, _, _ => none
  | .rxReady, _, _, _ => none
  | .rxDyn, _, _, _ => none
  | .rxFixed, _, _, _ => none
  | .flushTx, _, _, _ => none
  | .flushRx, _, _, _ => none
  | .init _ _ _ _, _, _, _ => none
  | .rxLoop _, _, _, _ => none
  | .shutdown, _, _, _ => none
  | .wait _, _, _, _ => none
  | .reserved _ _, _, _, _ => none
  | .busRRegister _ _, _, _, _ => none
  | .busWRegister _ _, _, _, _ => none
  | .busRRxPlWid, _, _, _ => none
  | .busRRxPayload _, _, _, _ => none
  | .busWTxPayload _, _, _, _ => none
  | .busFlushTx, _, _, _ => none
  | .busFlushRx, _, _, _ => none
  | .busNop, _, _, _ => none

/-- `s` after a request that performed the events `evs`, took `taken` of the chip's answers and returned `r`; nothing
else is changed. -/
def State.did (s : State) (evs : List Event) (taken : Nat) (r : Result) : State :=
  { s with
    hist := s.hist ++ evs
    answers := s.answers.drop taken
    pc := s.pc + 1
    results := s.results ++ [r] }

/-- `s` after `raise F(info)` (60_exceptions.md R242): the sticky fault, a result with `done = 0`, nothing else. -/
def State.faulted (s : State) (kind : FaultKind) (info : Nat) : State :=
  { s with fault := some ⟨kind, info⟩, results := s.results ++ [{ done := false }] }

/-- The 40-bit value of five bytes, least significant first (41_address_codec.md R151). -/
def addrOf (b0 b1 b2 b3 b4 : Byte) : Addr := b4 ++ b3 ++ b2 ++ b1 ++ b0

/-- Which fields a result record holds: `v8`, `v40`, `ok`, `len`, `bytes`, `payloads` (30_encoding.md R109). -/
def Result.fields (r : Result) : List Bool :=
  [r.v8.isSome, r.v40.isSome, r.ok.isSome, r.len.isSome, r.bytes.isSome, r.payloads.isSome]

/-- The result column of 30_encoding.md R93, in the order of `Result.fields`. -/
def rowFields : Instr → List Bool
  | .readReg _ => [true, false, false, false, false, false]
  | .readAddr _ => [false, true, false, false, false, false]
  | .addrDecode _ _ => [false, true, false, false, false, false]
  | .addrEncode _ _ => [false, false, false, false, true, false]
  | .addrParse _ _ => [false, true, true, false, false, false]
  | .rxReady => [false, false, true, false, false, false]
  | .rxFixed => [false, false, true, false, false, false]
  | .tx _ _ => [false, false, true, false, false, false]
  | .rxDyn => [false, false, false, true, false, false]
  | .rxLoop _ => [false, false, false, false, false, true]
  | .writeReg _ _ => [false, false, false, false, false, false]
  | .writeAddr _ _ => [false, false, false, false, false, false]
  | .powerUp => [false, false, false, false, false, false]
  | .powerDown => [false, false, false, false, false, false]
  | .startRadio => [false, false, false, false, false, false]
  | .stopRadio => [false, false, false, false, false, false]
  | .startRx => [false, false, false, false, false, false]
  | .stopRx => [false, false, false, false, false, false]
  | .flushTx => [false, false, false, false, false, false]
  | .flushRx => [false, false, false, false, false, false]
  | .init _ _ _ _ => [false, false, false, false, false, false]
  | .shutdown => [false, false, false, false, false, false]
  | .wait _ => [false, false, false, false, false, false]
  | .reserved _ _ => [false, false, false, false, false, false]
  | .busRRegister _ _ => [false, false, false, false, false, false]
  | .busWRegister _ _ => [false, false, false, false, false, false]
  | .busRRxPlWid => [false, false, false, false, false, false]
  | .busRRxPayload _ => [false, false, false, false, false, false]
  | .busWTxPayload _ => [false, false, false, false, false, false]
  | .busFlushTx => [false, false, false, false, false, false]
  | .busFlushRx => [false, false, false, false, false, false]
  | .busNop => [false, false, false, false, false, false]

/-- The most events an instruction performs (70_reset_and_hazards.md R277 for TX and RX_LOOP; the others as their
procedures list them). -/
def eventBound (c : Cfg) : Instr → Nat
  | .tx _ _ => 2 * c.txPollCap + 7
  | .rxLoop cnt => 10 + 5 * cnt.toNat
  | .readReg _ => 1
  | .writeReg _ _ => 1
  | .readAddr _ => 2
  | .writeAddr _ _ => 1
  | .addrEncode _ _ => 0
  | .addrDecode _ _ => 0
  | .addrParse _ _ => 0
  | .powerUp => 2
  | .powerDown => 2
  | .startRadio => 3
  | .stopRadio => 3
  | .startRx => 5
  | .stopRx => 5
  | .rxReady => 1
  | .rxDyn => 4
  | .rxFixed => 3
  | .flushTx => 1
  | .flushRx => 1
  | .init _ _ _ _ => 12
  | .shutdown => 3
  | .wait _ => 1
  | .reserved _ _ => 0
  | .busRRegister _ _ => 1
  | .busWRegister _ _ => 1
  | .busRRxPlWid => 1
  | .busRRxPayload _ => 1
  | .busWTxPayload _ => 1
  | .busFlushTx => 1
  | .busFlushRx => 1
  | .busNop => 0

/-- The STATUS flag masks of which a status clear writes exactly one (43_framing.md R197). -/
def statusFlags (c : Cfg) : List Byte := [c.stRxDr, c.stTxDs, c.stMaxRt]

end Sys2Proof.Machine
end

