-- ==== Sys2Proof/Certificates/Slice0/Obligations.lean ====
section
/-! DEFINITION. The statements for the provers. Each one's docstring names the rule of spec/ it formalises. The bytes
of the exchanges, the events, the flags and the fault records are written out from the rules, not through the
operations of Machine/. -/

open Sys2Proof Sys2Proof.Machine

/-! ### Reset and the step -/

/-- 70_reset_and_hazards.md R270: the state after construction, and the power state it has. -/
def Obligations.ResetIsTheConstructedBlock : Prop :=
  (State.reset.ce = false ∧ State.reset.cfgsh = none ∧ State.reset.isOpen = true ∧ State.reset.fault = none ∧
      State.reset.pc = 0 ∧ State.reset.hist = []) ∧
    State.reset.power = .unknown

/-- 40_register_access.md R127: the request that `pc` indexes runs as its meaning, in the state as it is; the stream
keeps it (log 2). -/
def Obligations.StepRunsTheDecodedRequest : Prop :=
  ∀ (s : State) (q : Bytes) (i : Instr), s.fault = none → s.busq = [] → s.stream[s.pc]? = some q →
    decode q = .ok i → step s = exec i s

/-- A bus command that waits alone is taken before the stream and leaves the queue (the model's own input, log 5). -/
def Obligations.StepRunsTheWaitingBusCommand : Prop :=
  ∀ (s : State) (b : Bytes) (bs : List Bytes) (i : Instr), s.fault = none → s.busq = b :: bs →
    decodeBus s.cfg b = some i → step s = exec i { s with busq := bs }

/-- 60_exceptions.md R242: a step stops with a fault exactly when the sticky fault is set, so no instruction's meaning
answers with a fault of its own; R252: with nothing waiting, a block that is not faulted is idle (log 11). -/
def Obligations.StepIsStuckExactlyWhenFaulted : Prop :=
  (∀ s : State, (∃ r, step s = .fault r) ↔ s.fault ≠ none) ∧
    ∀ s : State, s.fault = none → s.busq = [] → s.stream[s.pc]? = none → step s = .next s

/-- 30_encoding.md R94: a request with a reserved op, and one whose length differs from its format's, raises
F_ILLEGAL_REQ(q[0]) with no port event; the length of formats DB, TS and TX is computed from byte 1 (R95). -/
def Obligations.IllegalRequestsRaiseTheFault : Prop :=
  ∀ (s : State) (op : Byte) (rest : Bytes), s.fault = none → s.busq = [] → s.stream[s.pc]? = some (op :: rest) →
    op = 0x00#8 ∨ 0x18#8 ≤ op ∨
      (∃ f, opFormat op = some f ∧ rest.length + 1 ≠ formatLength f (rest.headD 0)) →
    step s = .next (s.faulted .illegalReq op.toNat)

/-! ### Encoding -/

/-- 30_encoding.md R91, R93, R94 and 20_memory.md R69: decoding the encoding of a well-formed instruction gives it
back, with every operand at every value, for every valid configuration. -/
def Obligations.DecodingAnEncodingGivesTheInstruction : Prop :=
  ∀ (c : Cfg) (i : Instr), c.Valid → i.wf = true → decodeAt c i.port (encode c i) = .ok i

/-- The other direction: what either port's decoder reads is well formed, belongs to that port, and encodes to
exactly the bytes it was read from. -/
def Obligations.EncodingADecodingGivesTheBytes : Prop :=
  ∀ (c : Cfg) (p : Port) (b : Bytes) (i : Instr), decodeAt c p b = .ok i →
    i.wf = true ∧ i.port = p ∧ encode c i = b

/-- 30_encoding.md R94 and R95: a request of at least one byte fails to decode exactly when its op is in the op map
and its length is not the one that its first two bytes give. -/
def Obligations.DecodingFailsExactlyOnAWrongLength : Prop :=
  ∀ (op : Byte) (rest : Bytes) (e : DecodeError),
    decode (op :: rest) = .error e ↔
      e = .badLength op ∧ ∃ f, opFormat op = some f ∧ rest.length + 1 ≠ formatLength f (rest.headD 0)

/-- Words of 95_test_vectors.md, one or more of every family, decode to the instructions they stand for. The last one
is an exchange, read as a bus instruction (the model's choice, log 5) with the default command bytes of
93_implementation_defined.md GK1 (PRESUMED, log 4). -/
def Obligations.WrittenOutWordsDecode : Prop :=
  decode [0x02, 0x20, 0x0B] = .ok (.writeReg 0x20 0x0B) ∧
    decode [0x04, 0x0A, 0x01, 0x02, 0x03, 0x04, 0x05] = .ok (.writeAddr 0x0A 0x0504030201) ∧
    decode [0x05, 0x03, 0x9A, 0x78, 0x56, 0x34, 0x12] = .ok (.addrEncode 3 0x123456789A) ∧
    decode [0x0C] = .ok .startRx ∧
    decode [0x11, 0x02, 0xAA, 0x55] = .ok (.tx 2 [0xAA, 0x55]) ∧
    decode [0x14, 0x01, 0xF0, 0xF0, 0xF0, 0xF0, 0x02, 0xF0, 0xF0, 0xF0, 0xF0, 0x6E, 0x1F] =
      .ok (.init 0xF0F0F0F001 0xF0F0F0F002 110 0x1F) ∧
    decode [0x17, 0xDC, 0x05, 0x00, 0x00] = .ok (.wait 1500) ∧
    decode [0x18] = .ok (.reserved 0x18 []) ∧
    decodeBus Config.cfg [0x30, 0x01, 0xF0, 0xF0, 0xF0, 0xF0] =
      some (.busWRegister 0x10 [0x01, 0xF0, 0xF0, 0xF0, 0xF0])

/-- 30_encoding.md R107: what the pseudo-requests expand to with the default configuration, in bytes
(its numbers are PRESUMED, log 4). -/
def Obligations.PseudoRequestsExpand : Prop :=
  encode Config.cfg (Pseudo.clearRxDr.expand Config.cfg) = [0x02, 0x07, 0x40] ∧
    encode Config.cfg (Pseudo.clearTxDs.expand Config.cfg) = [0x02, 0x07, 0x20] ∧
    encode Config.cfg (Pseudo.clearMaxRt.expand Config.cfg) = [0x02, 0x07, 0x10] ∧
    encode Config.cfg (Pseudo.readStatus.expand Config.cfg) = [0x01, 0x07] ∧
    ∀ ch, encode Config.cfg ((Pseudo.setChannel ch).expand Config.cfg) = [0x02, 0x05, ch]

/-! ### Register access (40_register_access.md) -/

/-- R125, READ_REG. The operand's bits 7 to 5 are dropped (20_memory.md R61), the shadow is not touched. -/
def Obligations.ReadRegReturnsTheAnswerByte : Prop :=
  ∀ (reg : Byte) (s : State), s.cfg.Valid →
    decode [0x01, reg] = .ok (.readReg reg) ∧
    (s.isOpen = true → ∃ r, Drawn s.answers [s.cfg.cmdRRegister ||| (reg &&& 0x1F#8), s.cfg.cmdNop] r ∧
      exec (.readReg reg) s =
        .next (s.did [.xchg [s.cfg.cmdRRegister ||| (reg &&& 0x1F#8), s.cfg.cmdNop] r] 1 { done := true, v8 := r[1]? })) ∧
    (s.isOpen = false → exec (.readReg reg) s = .next (s.faulted .busClosed 0x01))

/-- R126, WRITE_REG: one 2-byte exchange; a write to CONFIG sets the shadow (10_state.md R32), and a chip of the
contract (Safety.lean, log 19) takes a write to STATUS as clearing the flags whose bits are 1 (10_state.md R40). -/
def Obligations.WriteRegSendsTheValue : Prop :=
  ∀ (reg val : Byte) (s : State), s.cfg.Valid →
    decode [0x02, reg, val] = .ok (.writeReg reg val) ∧
    (s.isOpen = true → ∃ r, Drawn s.answers [s.cfg.cmdWRegister ||| (reg &&& 0x1F#8), val] r ∧
      exec (.writeReg reg val) s =
        .next { s.did [.xchg [s.cfg.cmdWRegister ||| (reg &&& 0x1F#8), val] r] 1 { done := true } with
          cfgsh := if reg &&& 0x1F#8 = s.cfg.regConfig.setWidth 8 then some val else s.cfgsh }) ∧
    (s.isOpen = false → exec (.writeReg reg val) s = .next (s.faulted .busClosed 0x02)) ∧
    ∀ k k' : Chip, reg &&& 0x1F#8 = s.cfg.regStatus.setWidth 8 →
      k.after s.cfg [s.cfg.cmdWRegister ||| (reg &&& 0x1F#8), val] k' →
      k'.content s.cfg.regStatus =
        (k.content s.cfg.regStatus).map fun old => old &&& ~~~(val &&& (s.cfg.stRxDr ||| s.cfg.stTxDs ||| s.cfg.stMaxRt))

/-- R128 and R129, READ_ADDR. A long register: one 6-byte exchange, response bytes 1 to 5 least significant first. A
short register: pipe 1's address is read first, then this pipe's own byte, which replaces the lowest byte. Any other
register: F_ADDR_REG(reg), whether the bus is open or not. -/
def Obligations.ReadAddrReadsTheAddress : Prop :=
  ∀ (reg : Byte) (s : State), s.cfg.Valid →
    let longs := [s.cfg.regRxAddrP0, s.cfg.regRxAddrP1, s.cfg.regTxAddr]
    let shorts := [s.cfg.regRxAddrP2, s.cfg.regRxAddrP3, s.cfg.regRxAddrP4, s.cfg.regRxAddrP5]
    let long := fun m : Byte => (s.cfg.cmdRRegister ||| m) :: List.replicate 5 s.cfg.cmdNop
    let own := [s.cfg.cmdRRegister ||| (reg &&& 0x1F#8), s.cfg.cmdNop]
    decode [0x03, reg] = .ok (.readAddr reg) ∧
    (s.isOpen = true → ma reg ∈ longs →
      ∃ r, Drawn s.answers (long (reg &&& 0x1F#8)) r ∧
        exec (.readAddr reg) s =
          .next (s.did [.xchg (long (reg &&& 0x1F#8)) r] 1
            { done := true, v40 := some (addrOf (byteAt r 1) (byteAt r 2) (byteAt r 3) (byteAt r 4) (byteAt r 5)) })) ∧
    (s.isOpen = true → ma reg ∉ longs → ma reg ∈ shorts →
      ∃ r1 r2, Drawn s.answers (long (s.cfg.regRxAddrP1.setWidth 8)) r1 ∧ Drawn (s.answers.drop 1) own r2 ∧
        exec (.readAddr reg) s =
          .next (s.did [.xchg (long (s.cfg.regRxAddrP1.setWidth 8)) r1, .xchg own r2] 2
            { done := true, v40 := some (addrOf (byteAt r2 1) (byteAt r1 2) (byteAt r1 3) (byteAt r1 4) (byteAt r1 5)) })) ∧
    (s.isOpen = false → ma reg ∈ longs ++ shorts → exec (.readAddr reg) s = .next (s.faulted .busClosed 0x03)) ∧
    (ma reg ∉ longs ++ shorts → exec (.readAddr reg) s = .next (s.faulted .addrReg reg.toNat))

/-- R130 and R131, WRITE_ADDR: a long register takes all five bytes, least significant first, in one exchange; a
short one takes the lowest byte, and bits 39 to 8 are discarded; any other raises F_ADDR_REG(reg), whether the bus is
open or not. The shadow follows only where a short register is CONFIG itself, which RegistersDistinct rules out. -/
def Obligations.WriteAddrSendsTheAddress : Prop :=
  ∀ (reg : Byte) (v : Addr) (s : State), s.cfg.Valid → s.cfg.RegistersDistinct →
    let longs := [s.cfg.regRxAddrP0, s.cfg.regRxAddrP1, s.cfg.regTxAddr]
    let shorts := [s.cfg.regRxAddrP2, s.cfg.regRxAddrP3, s.cfg.regRxAddrP4, s.cfg.regRxAddrP5]
    let bytes := [v.extractLsb' 0 8, v.extractLsb' 8 8, v.extractLsb' 16 8, v.extractLsb' 24 8, v.extractLsb' 32 8]
    let b := (s.cfg.cmdWRegister ||| (reg &&& 0x1F#8)) :: if ma reg ∈ longs then bytes else [v.extractLsb' 0 8]
    decode (0x04 :: reg :: bytes) = .ok (.writeAddr reg v) ∧
    (s.isOpen = true → ma reg ∈ longs ++ shorts → ∃ r, Drawn s.answers b r ∧
      exec (.writeAddr reg v) s = .next (s.did [.xchg b r] 1 { done := true })) ∧
    (s.isOpen = false → ma reg ∈ longs ++ shorts → exec (.writeAddr reg v) s = .next (s.faulted .busClosed 0x04)) ∧
    (ma reg ∉ longs ++ shorts → exec (.writeAddr reg v) s = .next (s.faulted .addrReg reg.toNat))

/-! ### Address codec (41_address_codec.md) -/

/-- R154 with R150, ADDR_ENCODE, whatever `open` is: byte `i` is `(v >> 8i) & 0xFF`; a width outside 1 to 5 raises
F_WIDTH(n). -/
def Obligations.AddrEncodeGivesTheLowBytes : Prop :=
  ∀ (n : Byte) (v : Addr) (s : State),
    decode (0x05 :: n :: ((List.range 5).map fun i => (v >>> (8 * i)).setWidth 8)) = .ok (.addrEncode n v) ∧
    (1 ≤ n.toNat → n.toNat ≤ 5 →
      exec (.addrEncode n v) s =
        .next (s.did [] 0
          { done := true, bytes := some ((List.range n.toNat).map fun i => (v >>> (8 * i)).setWidth 8) })) ∧
    (¬(1 ≤ n.toNat ∧ n.toNat ≤ 5) → exec (.addrEncode n v) s = .next (s.faulted .width n.toNat))

/-- R155 with R151, ADDR_DECODE, whatever `open` is: `s[0] | s[1] << 8 | …`; a width outside 1 to 5 raises
F_WIDTH(n). -/
def Obligations.AddrDecodeAssemblesTheBytes : Prop :=
  ∀ (n : Byte) (b : Bytes) (s : State), b.length = n.toNat →
    decode (0x06 :: n :: b) = .ok (.addrDecode n b) ∧
    (1 ≤ n.toNat → n.toNat ≤ 5 →
      exec (.addrDecode n b) s =
        .next (s.did [] 0
          { done := true,
            v40 := some ((List.range n.toNat).foldl (fun acc i => acc ||| (byteAt b i).setWidth 40 <<< (8 * i)) 0) })) ∧
    (¬(1 ≤ n.toNat ∧ n.toNat ≤ 5) → exec (.addrDecode n b) s = .next (s.faulted .width n.toNat))

/-- The codec laws (a) to (d) of R152, which the spec marks [derived: from rule R150 and rule R151]. -/
def Obligations.CodecLaws : Prop :=
  (∀ v : Addr, dec (enc v 5) = v) ∧
    (∀ b : Bytes, b.length = 5 → enc (dec b) 5 = b) ∧
    (∀ (v : Addr) (n : Nat), 1 ≤ n → n ≤ 5 → (dec (enc v n)).toNat = v.toNat % 2 ^ (8 * n)) ∧
    ∀ v w : Addr, enc v 5 = enc w 5 → v = w

/-- The text order of 20_memory.md R66: the ten lower-case digits of a nonzero address, most significant first, parse
to that address, whatever follows them. -/
def Obligations.ParsingAnAddressTextGivesTheAddress : Prop :=
  ∀ (v : Addr) (tail : Bytes) (k : Byte) (s : State), v ≠ 0 → k.toNat = 10 + tail.length →
    exec (.addrParse k (addressText v ++ tail)) s =
      .next (s.did [] 0 { done := true, ok := some true, v40 := some v })

/-- R156 and R157, ADDR_PARSE, whatever `open` is: a text shorter than ten characters, and one with a character among
the first ten that is no hex digit, is rejected with `ok = 0` and no fault; ten digits of either case give their
number, most significant first, unless it is zero, which is rejected; later characters are ignored. -/
def Obligations.AddrParseReadsTenHexDigits : Prop :=
  ∀ (k : Byte) (t : Bytes) (s : State), t.length = k.toNat →
    decode (0x07 :: k :: t) = .ok (.addrParse k t) ∧
    (k.toNat < 10 ∨ (∃ i ch, i < 10 ∧ t[i]? = some ch ∧ ∀ n, ¬hexDigitOf ch n) →
      exec (.addrParse k t) s = .next (s.did [] 0 { done := true, ok := some false, v40 := some 0 })) ∧
    ∀ d : List Nat, d.length = 10 → (∀ (i n : Nat), d[i]? = some n → ∃ ch, t[i]? = some ch ∧ hexDigitOf ch n) →
      exec (.addrParse k t) s =
        .next (s.did [] 0
          (if d.foldl (fun v n => 16 * v + n) 0 = 0 then { done := true, ok := some false, v40 := some 0 }
            else { done := true, ok := some true, v40 := some (BitVec.ofNat 40 (d.foldl (fun v n => 16 * v + n) 0)) }))

/-! ### Power state machine (42_power_fsm.md) -/

/-- R170 and R171, POWER_UP and POWER_DOWN: the CE event, the settle delay, and nothing of CONFIG. -/
def Obligations.PowerUpAndDownDriveTheLine : Prop :=
  (decode [0x08] = .ok .powerUp ∧ decode [0x09] = .ok .powerDown) ∧
  ∀ s : State,
    (s.isOpen = true →
      exec .powerUp s = .next { s.did [.ce true, .wait .tCeUp] 0 { done := true } with ce := true } ∧
        exec .powerDown s = .next { s.did [.ce false, .wait .tCeDown] 0 { done := true } with ce := false }) ∧
    (s.isOpen = false →
      exec .powerUp s = .next (s.faulted .busClosed 0x08) ∧ exec .powerDown s = .next (s.faulted .busClosed 0x09))

/-- R173 and R174 with R172, START_RADIO and STOP_RADIO: CONFIG is read, written back with PWR_UP set or clear, and
`T_RADIO` is waited; `ce` stays. -/
def Obligations.StartAndStopRadioWritePowerUp : Prop :=
  (decode [0x0A] = .ok .startRadio ∧ decode [0x0B] = .ok .stopRadio) ∧
  ∀ s : State, s.cfg.Valid →
    let rd := [s.cfg.cmdRRegister ||| s.cfg.regConfig.setWidth 8, s.cfg.cmdNop]
    let wr := fun v : Byte => [s.cfg.cmdWRegister ||| s.cfg.regConfig.setWidth 8, v]
    (s.isOpen = true → ∃ r, Drawn s.answers rd r ∧
      (∃ r2, Drawn (s.answers.drop 1) (wr (byteAt r 1 ||| s.cfg.cfgPwrUp)) r2 ∧
        exec .startRadio s =
          .next { s.did [.xchg rd r, .xchg (wr (byteAt r 1 ||| s.cfg.cfgPwrUp)) r2, .wait .tRadio] 2 { done := true } with
            cfgsh := some (byteAt r 1 ||| s.cfg.cfgPwrUp) }) ∧
      (∃ r2, Drawn (s.answers.drop 1) (wr (byteAt r 1 &&& ~~~s.cfg.cfgPwrUp)) r2 ∧
        exec .stopRadio s =
          .next { s.did [.xchg rd r, .xchg (wr (byteAt r 1 &&& ~~~s.cfg.cfgPwrUp)) r2, .wait .tRadio] 2 { done := true } with
            cfgsh := some (byteAt r 1 &&& ~~~s.cfg.cfgPwrUp) })) ∧
    (s.isOpen = false →
      exec .startRadio s = .next (s.faulted .busClosed 0x0A) ∧ exec .stopRadio s = .next (s.faulted .busClosed 0x0B))

/-- R175 and R176 with R172, START_RX and STOP_RX: CE changes and settles before CONFIG is read and written back with
PRIM_RX set or clear; then `T_RX` is waited. -/
def Obligations.StartAndStopRxMoveTheLineThenTheRole : Prop :=
  (decode [0x0C] = .ok .startRx ∧ decode [0x0D] = .ok .stopRx) ∧
  ∀ s : State, s.cfg.Valid →
    let rd := [s.cfg.cmdRRegister ||| s.cfg.regConfig.setWidth 8, s.cfg.cmdNop]
    let wr := fun v : Byte => [s.cfg.cmdWRegister ||| s.cfg.regConfig.setWidth 8, v]
    (s.isOpen = true →
      (∃ r r2, Drawn s.answers rd r ∧ Drawn (s.answers.drop 1) (wr (byteAt r 1 ||| s.cfg.cfgPrimRx)) r2 ∧
        exec .startRx s =
          .next { s.did [.ce true, .wait .tCeUp, .xchg rd r, .xchg (wr (byteAt r 1 ||| s.cfg.cfgPrimRx)) r2,
              .wait .tRx] 2 { done := true } with
            ce := true, cfgsh := some (byteAt r 1 ||| s.cfg.cfgPrimRx) }) ∧
      ∃ r r2, Drawn s.answers rd r ∧ Drawn (s.answers.drop 1) (wr (byteAt r 1 &&& ~~~s.cfg.cfgPrimRx)) r2 ∧
        exec .stopRx s =
          .next { s.did [.ce false, .wait .tCeDown, .xchg rd r, .xchg (wr (byteAt r 1 &&& ~~~s.cfg.cfgPrimRx)) r2,
              .wait .tRx] 2 { done := true } with
            ce := false, cfgsh := some (byteAt r 1 &&& ~~~s.cfg.cfgPrimRx) }) ∧
    (s.isOpen = false →
      exec .startRx s = .next (s.faulted .busClosed 0x0C) ∧ exec .stopRx s = .next (s.faulted .busClosed 0x0D))

/-- The transition table of R177, which the spec marks [derived: from rule R170 to rule R176, 10_state.md rule R43 and
43_framing.md rule R194], where the CONFIG read of a request that makes one answers what was last written; and
from Unknown, POWER_UP and POWER_DOWN stay there while the four CONFIG-writing requests leave it. -/
def Obligations.PowerTransitionTable : Prop :=
  (∀ (i : Instr) (s : State) (v : Byte) (p : PowerState), s.cfg.Valid → s.cfg.RegistersDistinct → s.isOpen = true →
    s.cfgsh = some v → operandFault s.cfg i = none →
    (i ∈ [Instr.startRadio, .stopRadio, .startRx, .stopRx] → (s.answers.headD [])[1]? = some v) →
    powerTable i s.power s.ce (decide (v &&& s.cfg.cfgPrimRx ≠ 0#8)) = some p →
    ∃ t, exec i s = .next t ∧ t.power = p) ∧
  ∀ s : State, s.cfg.Valid → s.isOpen = true → s.cfgsh = none →
    (∀ i ∈ [Instr.powerUp, .powerDown], ∃ t, exec i s = .next t ∧ t.power = .unknown) ∧
      ∀ i ∈ [Instr.startRadio, .stopRadio, .startRx, .stopRx], ∃ t, exec i s = .next t ∧ t.power ≠ .unknown

/-! ### Packet framer (43_framing.md) -/

/-- R190 and R191, RX_READY: ready unless the receive FIFO sub-field of the STATUS byte read is all ones. -/
def Obligations.RxReadyTestsTheFifoField : Prop :=
  decode [0x0E] = .ok .rxReady ∧
  ∀ s : State, s.cfg.Valid →
    let rd := [s.cfg.cmdRRegister ||| s.cfg.regStatus.setWidth 8, s.cfg.cmdNop]
    (s.isOpen = true → ∃ r, Drawn s.answers rd r ∧
      exec .rxReady s =
        .next (s.did [.xchg rd r] 1
          { done := true, ok := some (decide (byteAt r 1 &&& s.cfg.stRxEmptyField ≠ s.cfg.stRxEmptyField)) })) ∧
    (s.isOpen = false → exec .rxReady s = .next (s.faulted .busClosed 0x0E))

/-- R192, RX_DYN: no data; a reported length above 32, flushed; a payload of 0 to 32 bytes, stored with its
terminator. RXB is given by its reads: only offsets 0 to `n` change, and only on the payload path. -/
def Obligations.RxDynReceivesOnePayload : Prop :=
  decode [0x0F] = .ok .rxDyn ∧
  (∀ s : State, s.cfg.rxbufCap < 33 → exec .rxDyn s = .next (s.faulted .rxbuf 33)) ∧
  (∀ s : State, 33 ≤ s.cfg.rxbufCap → s.isOpen = false → exec .rxDyn s = .next (s.faulted .busClosed 0x0F)) ∧
  ∀ s : State, s.cfg.Valid → s.cfg.RegistersDistinct → 33 ≤ s.cfg.rxbufCap → s.isOpen = true →
    ∃ r0, Drawn s.answers [s.cfg.cmdRRegister ||| s.cfg.regStatus.setWidth 8, s.cfg.cmdNop] r0 ∧
      let e0 := Event.xchg [s.cfg.cmdRRegister ||| s.cfg.regStatus.setWidth 8, s.cfg.cmdNop] r0
      (byteAt r0 1 &&& s.cfg.stRxEmptyField = s.cfg.stRxEmptyField →
        exec .rxDyn s = .next (s.did [e0] 1 { done := true, len := some 0 })) ∧
      (byteAt r0 1 &&& s.cfg.stRxEmptyField ≠ s.cfg.stRxEmptyField →
        ∃ r1, Drawn (s.answers.drop 1) [s.cfg.cmdRRxPlWid, s.cfg.cmdNop] r1 ∧
          let e1 := Event.xchg [s.cfg.cmdRRxPlWid, s.cfg.cmdNop] r1
          (32 < (byteAt r1 1).toNat → ∃ r2, Drawn (s.answers.drop 2) [s.cfg.cmdFlushRx] r2 ∧
            exec .rxDyn s =
              .next (s.did [e0, e1, .xchg [s.cfg.cmdFlushRx] r2] 3 { done := true, len := some 0 })) ∧
          ((byteAt r1 1).toNat ≤ 32 →
            ∃ r2 r3 rxb,
              Drawn (s.answers.drop 2) (s.cfg.cmdRRxPayload :: List.replicate (byteAt r1 1).toNat s.cfg.cmdNop) r2 ∧
              Drawn (s.answers.drop 3) [s.cfg.cmdWRegister ||| s.cfg.regStatus.setWidth 8, s.cfg.stRxDr] r3 ∧
              (∀ a, Memory.read rxb a =
                if a < (byteAt r1 1).toNat then r2[a + 1]?
                else if a = (byteAt r1 1).toNat then some 0x00 else Memory.read s.rxb a) ∧
              exec .rxDyn s =
                .next { s.did [e0, e1,
                    .xchg (s.cfg.cmdRRxPayload :: List.replicate (byteAt r1 1).toNat s.cfg.cmdNop) r2,
                    .xchg [s.cfg.cmdWRegister ||| s.cfg.regStatus.setWidth 8, s.cfg.stRxDr] r3] 4
                    { done := true, len := some (byteAt r1 1) } with
                  rxb := rxb }))

/-- R192's corner case "The result never exceeds 32 [derived: from this rule]"; the source's property is
95_test_vectors.md L1-6. -/
def Obligations.RxDynNeverReturnsMoreThan32 : Prop :=
  ∀ (s t : State) (r : Result) (n : Byte), exec .rxDyn s = .next t → t.results = s.results ++ [r] →
    r.len = some n → n.toNat ≤ 32

/-- R193, RX_FIXED: no length query on any path; `FIXED_LEN` bytes are stored without a terminator; the clear is
made where `FIXED_RX_CLEAR` is 1. -/
def Obligations.RxFixedReceivesAConstantLength : Prop :=
  decode [0x10] = .ok .rxFixed ∧
  (∀ s : State, s.cfg.rxbufCap < s.cfg.fixedLen.val →
    exec .rxFixed s = .next (s.faulted .rxbuf s.cfg.fixedLen.val)) ∧
  (∀ s : State, s.cfg.fixedLen.val ≤ s.cfg.rxbufCap → s.isOpen = false →
    exec .rxFixed s = .next (s.faulted .busClosed 0x10)) ∧
  ∀ s : State, s.cfg.Valid → s.cfg.RegistersDistinct → s.cfg.fixedLen.val ≤ s.cfg.rxbufCap → s.isOpen = true →
    ∃ r0, Drawn s.answers [s.cfg.cmdRRegister ||| s.cfg.regStatus.setWidth 8, s.cfg.cmdNop] r0 ∧
      let e0 := Event.xchg [s.cfg.cmdRRegister ||| s.cfg.regStatus.setWidth 8, s.cfg.cmdNop] r0
      let pl := s.cfg.cmdRRxPayload :: List.replicate s.cfg.fixedLen.val s.cfg.cmdNop
      (byteAt r0 1 &&& s.cfg.stRxEmptyField = s.cfg.stRxEmptyField →
        exec .rxFixed s = .next (s.did [e0] 1 { done := true, ok := some false })) ∧
      (byteAt r0 1 &&& s.cfg.stRxEmptyField ≠ s.cfg.stRxEmptyField →
        ∃ r1 rxb, Drawn (s.answers.drop 1) pl r1 ∧
          (∀ a, Memory.read rxb a = if a < s.cfg.fixedLen.val then r1[a + 1]? else Memory.read s.rxb a) ∧
          (s.cfg.fixedRxClear = true →
            ∃ r2, Drawn (s.answers.drop 2) [s.cfg.cmdWRegister ||| s.cfg.regStatus.setWidth 8, s.cfg.stRxDr] r2 ∧
              exec .rxFixed s =
                .next { s.did [e0, .xchg pl r1,
                    .xchg [s.cfg.cmdWRegister ||| s.cfg.regStatus.setWidth 8, s.cfg.stRxDr] r2] 3
                    { done := true, ok := some true } with rxb := rxb }) ∧
          (s.cfg.fixedRxClear = false →
            exec .rxFixed s =
              .next { s.did [e0, .xchg pl r1] 2 { done := true, ok := some true } with rxb := rxb }))

/-- R194, TX: flush, load, powerUp, then polls that miss, then one of three ends: TX_DS (tested first), MAX_RT
without TX_DS, or as many misses as `TX_POLL_CAP`. The event lists are whole, in order. -/
def Obligations.TxEndsInOneOfThreeWays : Prop :=
  (∀ (len : Byte) (payload : Bytes) (s : State), payload.length = len.toNat →
    decode (0x11 :: len :: payload) = .ok (.tx len payload) ∧
    (32 < len.toNat → exec (.tx len payload) s = .next (s.faulted .payloadLen len.toNat)) ∧
    (len.toNat ≤ 32 → s.isOpen = false → exec (.tx len payload) s = .next (s.faulted .busClosed 0x11))) ∧
  ∀ (len : Byte) (payload : Bytes) (s : State), s.cfg.Valid → s.cfg.RegistersDistinct → s.isOpen = true →
    payload.length = len.toNat → len.toNat ≤ 32 →
    let st := [s.cfg.cmdRRegister ||| s.cfg.regStatus.setWidth 8, s.cfg.cmdNop]
    let clear := fun f : Byte => [s.cfg.cmdWRegister ||| s.cfg.regStatus.setWidth 8, f]
    let taken := fun n : Nat => s.answers.drop n
    ∃ f l misses, Drawn s.answers [s.cfg.cmdFlushTx] f ∧ Drawn (taken 1) (s.cfg.cmdWTxPayload :: payload) l ∧
      (∀ k, k < misses.length → Drawn (taken (2 + k)) st (misses.getD k [])) ∧ (∀ r ∈ misses, pollMissed s.cfg r) ∧
      let start := [Event.xchg [s.cfg.cmdFlushTx] f, .xchg (s.cfg.cmdWTxPayload :: payload) l, .ce true, .wait .tCeUp] ++
        missEvents s.cfg misses
      ((misses.length < s.cfg.txPollCap ∧ ∃ r w, Drawn (taken (2 + misses.length)) st r ∧
          Drawn (taken (3 + misses.length)) (clear s.cfg.stTxDs) w ∧ byteAt r 1 &&& s.cfg.stTxDs ≠ 0#8 ∧
          exec (.tx len payload) s =
            .next { s.did (start ++ [.xchg st r, .xchg (clear s.cfg.stTxDs) w, .ce false, .wait .tCeDown])
              (4 + misses.length) { done := true, ok := some true } with ce := false }) ∨
        (misses.length < s.cfg.txPollCap ∧ ∃ r w g, Drawn (taken (2 + misses.length)) st r ∧
          Drawn (taken (3 + misses.length)) (clear s.cfg.stMaxRt) w ∧
          Drawn (taken (4 + misses.length)) [s.cfg.cmdFlushTx] g ∧
          byteAt r 1 &&& s.cfg.stTxDs = 0#8 ∧ byteAt r 1 &&& s.cfg.stMaxRt ≠ 0#8 ∧
          exec (.tx len payload) s =
            .next { s.did (start ++ [.xchg st r, .xchg (clear s.cfg.stMaxRt) w, .xchg [s.cfg.cmdFlushTx] g, .ce false,
                .wait .tCeDown]) (5 + misses.length) { done := true, ok := some false } with ce := false }) ∨
        (misses.length = s.cfg.txPollCap ∧ ∃ g, Drawn (taken (2 + misses.length)) [s.cfg.cmdFlushTx] g ∧
          exec (.tx len payload) s =
            .next { s.did (start ++ [.ce false, .wait .tCeDown, .xchg [s.cfg.cmdFlushTx] g])
              (3 + misses.length) { done := true, ok := some false } with ce := false }))

/-- The event counts of R198, which the spec marks [derived: from rule R194, 42_power_fsm.md rule R170 and rule R171]:
with `k` STATUS polls, a success adds `2k + 6` events, a failure `2k + 7`, and `k` is at most `TX_POLL_CAP`. -/
def Obligations.TxEventCounts : Prop :=
  ∀ (len : Byte) (payload : Bytes) (s t : State), s.cfg.Valid → s.cfg.RegistersDistinct → s.isOpen = true →
    payload.length = len.toNat → len.toNat ≤ 32 → exec (.tx len payload) s = .next t →
    ∃ evs ok, t.hist = s.hist ++ evs ∧ t.results = s.results ++ [{ done := true, ok := some ok }] ∧
      (evs.filter (readsStatus s.cfg)).length ≤ s.cfg.txPollCap ∧
      evs.length = 2 * (evs.filter (readsStatus s.cfg)).length + (if ok then 6 else 7)

/-- R195 and R196, the flushes: one 1-byte exchange each; a chip of the contract (Safety.lean, log 19) empties the
named FIFO (10_state.md R45). -/
def Obligations.FlushesSendOneByte : Prop :=
  (decode [0x12] = .ok .flushTx ∧ decode [0x13] = .ok .flushRx) ∧
  ∀ s : State, s.cfg.Valid →
    (s.isOpen = true →
      (∃ r, Drawn s.answers [s.cfg.cmdFlushTx] r ∧
        exec .flushTx s = .next (s.did [.xchg [s.cfg.cmdFlushTx] r] 1 { done := true })) ∧
      ∃ r, Drawn s.answers [s.cfg.cmdFlushRx] r ∧
        exec .flushRx s = .next (s.did [.xchg [s.cfg.cmdFlushRx] r] 1 { done := true })) ∧
    (s.isOpen = false →
      exec .flushTx s = .next (s.faulted .busClosed 0x12) ∧ exec .flushRx s = .next (s.faulted .busClosed 0x13)) ∧
    ∀ k k' : Chip, (k.after s.cfg [s.cfg.cmdFlushTx] k' → k'.txFifo = []) ∧
      (k.after s.cfg [s.cfg.cmdFlushRx] k' → k'.rxFifo = [])

/-- R197: every STATUS write of a request other than the host's own WRITE_REG has exactly one flag bit. -/
def Obligations.StatusClearsWriteOneFlag : Prop :=
  ∀ (i : Instr) (s t : State) (evs : List Event) (v : Byte) (r : Bytes), s.cfg.Valid → s.cfg.RegistersDistinct →
    i.port = .request → (∀ reg val, i ≠ .writeReg reg val) → exec i s = .next t → t.hist = s.hist ++ evs →
    Event.xchg [wrcmd s.cfg s.cfg.regStatus, v] r ∈ evs → v ∈ statusFlags s.cfg

/-! ### Host-level operations (44_host_ops.md) -/

/-- R220, INIT: the twelve events, in the order of the source's list. -/
def Obligations.InitProgramsTheChip : Prop :=
  (∀ (txa rxa : Addr) (ch rt : Byte) (s : State), s.isOpen = false →
    exec (.init txa rxa ch rt) s = .next (s.faulted .busClosed 0x14)) ∧
  ∀ (txa rxa : Addr) (ch rt : Byte) (s : State), s.cfg.Valid → s.cfg.RegistersDistinct → s.isOpen = true →
    let c := s.cfg
    let w := fun m : RegAddr => c.cmdWRegister ||| m.setWidth 8
    let bytes := fun v : Addr =>
      [v.extractLsb' 0 8, v.extractLsb' 8 8, v.extractLsb' 16 8, v.extractLsb' 24 8, v.extractLsb' 32 8]
    let pipe := [c.regRxAddrP0, c.regRxAddrP1, c.regRxAddrP2, c.regRxAddrP3, c.regRxAddrP4, c.regRxAddrP5].getD
      c.rxPipe.val 0
    decode (0x14 :: (bytes txa ++ bytes rxa ++ [ch, rt])) = .ok (.init txa rxa ch rt) ∧
    ∃ r : Nat → Bytes,
      let sent := [w c.regTxAddr :: bytes txa,
        w pipe :: (if c.rxPipe.val ≤ 1 then bytes rxa else [rxa.extractLsb' 0 8]),
        [w c.regRfSetup, c.initRfSetup], [w c.regDynpd, c.initDynpd], [w c.regFeature, c.initFeature],
        [w c.regRfCh, ch], [w c.regConfig, c.initConfig], [w c.regSetupRetr, rt],
        [c.cmdRRegister ||| c.regConfig.setWidth 8, c.cmdNop], [w c.regConfig, byteAt (r 8) 1 ||| c.cfgPwrUp],
        [c.cmdFlushRx]]
      (∀ k, k < 11 → Drawn (s.answers.drop k) (sent.getD k []) (r k)) ∧
        exec (.init txa rxa ch rt) s =
          .next { s.did
            (((List.range 10).map fun k => Event.xchg (sent.getD k []) (r k)) ++
              [.wait .tRadio, .xchg [c.cmdFlushRx] (r 10)]) 11 { done := true } with
            cfgsh := some (byteAt (r 8) 1 ||| c.cfgPwrUp) }

/-- R221, RX_LOOP: START_RX's five events, `cnt` iterations of a dynamic receive and a poll delay, STOP_RX's five
events. The payloads returned are the payloads read on the bus that have at least one byte, in order; RXB is what the
payloads read, each followed by its terminator, leave when written one after the other at offset 0; CE ends low. -/
def Obligations.RxLoopReturnsThePayloadsRead : Prop :=
  (∀ (cnt : BitVec 16) (s : State),
    decode [0x15, cnt.extractLsb' 0 8, cnt.extractLsb' 8 8] = .ok (.rxLoop cnt) ∧
    (s.cfg.rxbufCap < 33 → exec (.rxLoop cnt) s = .next (s.faulted .rxbuf 33)) ∧
    (33 ≤ s.cfg.rxbufCap → s.isOpen = false → exec (.rxLoop cnt) s = .next (s.faulted .busClosed 0x15))) ∧
  ∀ (cnt : BitVec 16) (s : State), s.cfg.Valid → s.cfg.RegistersDistinct → 33 ≤ s.cfg.rxbufCap → s.isOpen = true →
    let rd := [s.cfg.cmdRRegister ||| s.cfg.regConfig.setWidth 8, s.cfg.cmdNop]
    let wr := fun v : Byte => [s.cfg.cmdWRegister ||| s.cfg.regConfig.setWidth 8, v]
    ∃ r1 r2 r3 r4 iters,
      let evs := [Event.ce true, .wait .tCeUp, .xchg rd r1, .xchg (wr (byteAt r1 1 ||| s.cfg.cfgPrimRx)) r2,
          .wait .tRx] ++ List.flatten iters ++
        [Event.ce false, .wait .tCeDown, .xchg rd r3, .xchg (wr (byteAt r3 1 &&& ~~~s.cfg.cfgPrimRx)) r4, .wait .tRx]
      let read := evs.filterMap (payloadRead s.cfg)
      iters.length = cnt.toNat ∧ (∀ it ∈ iters, rxIteration s.cfg it) ∧ drawnAll s.answers evs ∧
        exec (.rxLoop cnt) s =
          .next { s.did evs (evs.countP isExchange)
              { done := true, payloads := some (read.filter fun p => p ≠ []) } with
            ce := false, cfgsh := some (byteAt r3 1 &&& ~~~s.cfg.cfgPrimRx),
            rxb := read.foldl (fun m p => Memory.writeBytes m 0 (p ++ [0x00])) s.rxb }

/-- R222, SHUTDOWN: the stopRadio events, then the handles are released; `ce` is left as it was. A second SHUTDOWN
faults. -/
def Obligations.ShutdownReleasesTheBus : Prop :=
  decode [0x16] = .ok .shutdown ∧
  ∀ s : State, s.cfg.Valid →
    let rd := [s.cfg.cmdRRegister ||| s.cfg.regConfig.setWidth 8, s.cfg.cmdNop]
    (s.isOpen = true → ∃ r r2, Drawn s.answers rd r ∧
      Drawn (s.answers.drop 1) [s.cfg.cmdWRegister ||| s.cfg.regConfig.setWidth 8, byteAt r 1 &&& ~~~s.cfg.cfgPwrUp] r2 ∧
      exec .shutdown s =
        .next { s.did [.xchg rd r,
            .xchg [s.cfg.cmdWRegister ||| s.cfg.regConfig.setWidth 8, byteAt r 1 &&& ~~~s.cfg.cfgPwrUp] r2,
            .wait .tRadio] 2 { done := true } with
          isOpen := false, cfgsh := some (byteAt r 1 &&& ~~~s.cfg.cfgPwrUp) }) ∧
    (s.isOpen = false → exec .shutdown s = .next (s.faulted .busClosed 0x16))

/-- R223, WAIT: one event, whatever `open` is and whatever the duration. -/
def Obligations.WaitRecordsOneEvent : Prop :=
  ∀ (us : BitVec 32) (s : State),
    decode [0x17, us.extractLsb' 0 8, us.extractLsb' 8 8, us.extractLsb' 16 8, us.extractLsb' 24 8] = .ok (.wait us) ∧
      exec (.wait us) s = .next (s.did [.wait (.micros us)] 0 { done := true })

/-- 30_encoding.md R94, the reserved row: op 0x00 and every op from 0x18 decode to it at any length, and it raises
F_ILLEGAL_REQ(op) with no port event, whether the bus is open or not. -/
def Obligations.ReservedOpsAreIllegalRequests : Prop :=
  ∀ (op : Byte) (rest : Bytes) (s : State), op = 0x00#8 ∨ 0x18#8 ≤ op →
    decode (op :: rest) = .ok (.reserved op rest) ∧
      exec (.reserved op rest) s = .next (s.faulted .illegalReq op.toNat)

/-! ### Bus commands (30_encoding.md R96 to R104) -/

/-- R97, R99 and R100, the read commands by themselves: one exchange each, with the fillers of 20_memory.md R69;
`pc`, the results and the shadow stay. That they stand alone is the model's own (log 5), and so are five fillers on a
register that is no long address, and one filler on one that is (log 26). -/
def Obligations.BusReadCommandsMakeOneExchange : Prop :=
  ∀ (m : RegAddr) (n : Nat) (s : State), s.cfg.Valid → s.isOpen = true → n ≤ 32 →
    let one := fun (b r : Bytes) => { s with hist := s.hist ++ [.xchg b r], answers := s.answers.drop 1 }
    let rd := s.cfg.cmdRRegister ||| m.setWidth 8
    (∃ r, Drawn s.answers [rd, s.cfg.cmdNop] r ∧ exec (.busRRegister m false) s = .next (one [rd, s.cfg.cmdNop] r)) ∧
      (∃ r, Drawn s.answers (rd :: List.replicate 5 s.cfg.cmdNop) r ∧
        exec (.busRRegister m true) s = .next (one (rd :: List.replicate 5 s.cfg.cmdNop) r)) ∧
      (∃ r, Drawn s.answers [s.cfg.cmdRRxPlWid, s.cfg.cmdNop] r ∧
        exec .busRRxPlWid s = .next (one [s.cfg.cmdRRxPlWid, s.cfg.cmdNop] r)) ∧
      ∃ r, Drawn s.answers (s.cfg.cmdRRxPayload :: List.replicate n s.cfg.cmdNop) r ∧
        exec (.busRRxPayload n) s = .next (one (s.cfg.cmdRRxPayload :: List.replicate n s.cfg.cmdNop) r)

/-- R98, R101, R102 and R103, the write and flush commands by themselves: one exchange each; the shadow takes a
2-byte write to CONFIG (10_state.md R32) and nothing else. That they stand alone is the model's own (log 5), and so are
five data bytes on a register that is no long address, and one data byte on one that is (log 26). -/
def Obligations.BusWriteCommandsMakeOneExchange : Prop :=
  ∀ (m : RegAddr) (data payload : Bytes) (s : State), s.cfg.Valid → s.isOpen = true →
    data.length = 1 ∨ data.length = 5 → payload.length ≤ 32 →
    let one := fun (b r : Bytes) => { s with hist := s.hist ++ [.xchg b r], answers := s.answers.drop 1 }
    let wr := s.cfg.cmdWRegister ||| m.setWidth 8
    (∃ r, Drawn s.answers (wr :: data) r ∧
      exec (.busWRegister m data) s =
        .next { one (wr :: data) r with
          cfgsh := if m = s.cfg.regConfig ∧ data.length = 1 then data.head? else s.cfgsh }) ∧
      (∃ r, Drawn s.answers (s.cfg.cmdWTxPayload :: payload) r ∧
        exec (.busWTxPayload payload) s = .next (one (s.cfg.cmdWTxPayload :: payload) r)) ∧
      (∃ r, Drawn s.answers [s.cfg.cmdFlushTx] r ∧ exec .busFlushTx s = .next (one [s.cfg.cmdFlushTx] r)) ∧
      ∃ r, Drawn s.answers [s.cfg.cmdFlushRx] r ∧ exec .busFlushRx s = .next (one [s.cfg.cmdFlushRx] r)

/-- R104: the filler by itself begins no exchange, so the state is the same after it (the model's reading, log 6). -/
def Obligations.BusNopBeginsNoExchange : Prop := ∀ s : State, exec .busNop s = .next s

/-! ### Rules of the whole machine -/

/-- 40_register_access.md R124: every request with a port event, once its operand check passes, raises
F_BUS_CLOSED(q[0]) on a closed bus; the four requests with none never raise it. -/
def Obligations.ClosedBusRefusesEveryBusRequest : Prop :=
  (∀ (i : Instr) (op : Byte) (s : State), busOp i = some op → operandFault s.cfg i = none → s.isOpen = false →
    exec i s = .next (s.faulted .busClosed op.toNat)) ∧
  ∀ (i : Instr) (s : State), (∃ n v, i = .addrEncode n v) ∨ (∃ n b, i = .addrDecode n b) ∨ (∃ k t, i = .addrParse k t) ∨
      (∃ us, i = .wait us) → s.fault = none →
    ∃ t, exec i s = .next t ∧ ∀ info, t.fault ≠ some ⟨.busClosed, info⟩

/-- 60_exceptions.md R241: an operand fault is raised whatever `open` is. -/
def Obligations.OperandChecksComeBeforeTheBusCheck : Prop :=
  ∀ (i : Instr) (f : FaultRecord) (s : State), operandFault s.cfg i = some f →
    exec i s = .next (s.faulted f.kind f.info)

/-- 10_state.md R35, 60_exceptions.md R242 and 30_encoding.md R109: every request answers a next state, in which it
either completed (`pc` one more, one result with `done = 1` and exactly its row's fields) or raised a fault that
left everything else as it was. -/
def Obligations.EveryRequestCompletesOrFaultsPrecisely : Prop :=
  ∀ (i : Instr) (s : State), i.port = .request → s.fault = none →
    ∃ t, exec i s = .next t ∧
      ((t.fault = none ∧ t.pc = s.pc + 1 ∧
          ∃ r, t.results = s.results ++ [r] ∧ r.done = true ∧ r.fields = rowFields i) ∨
        ∃ kind info, t = s.faulted kind info)

/-- 60_exceptions.md R240: the only faults a request raises are its operand check's, F_BUS_CLOSED(op) while `open` is
0, and F_ILLEGAL_REQ of a reserved op. That a lone bus command raises F_BUS_CLOSED too is the model's choice, log 7;
the second clause does not say which info it then has. -/
def Obligations.FaultsComeFromTheTable : Prop :=
  ∀ (i : Instr) (s t : State) (f : FaultRecord), s.fault = none → exec i s = .next t → t.fault = some f →
    operandFault s.cfg i = some f ∨
      (s.isOpen = false ∧ f.kind = .busClosed ∧ (∀ op, busOp i = some op → f.info = op.toNat)) ∨
      ∃ op rest, i = .reserved op rest ∧ f = ⟨.illegalReq, op.toNat⟩

/-- The invariant of Safety.lean is kept by every step from every state that has it: 10_state.md R31, R32, R35,
30_encoding.md R96, 40_register_access.md R120, 70_reset_and_hazards.md R276, 60_exceptions.md R242. -/
def Obligations.EveryStepKeepsTheInvariant : Prop :=
  ∀ s t : State, s.Inv → step s = .next t → t.Inv

/-- The invariant holds after reset. -/
def Obligations.ResetHasTheInvariant : Prop := State.reset.Inv

/-- 40_register_access.md R123: the history only grows. -/
def Obligations.TheHistoryOnlyGrows : Prop :=
  ∀ s t : State, step s = .next t → s.hist <+: t.hist

/-- 00_scope.md R6 and 20_memory.md R75: no step changes the configuration or the requests. -/
def Obligations.NoStepChangesTheConfigurationOrTheRequests : Prop :=
  ∀ s t : State, step s = .next t → t.cfg = s.cfg ∧ t.stream = s.stream

/-- 10_state.md R31 and R32: whatever an instruction does, `ce` follows the CE events and `cfgsh` the 2-byte CONFIG
writes among the events it adds. -/
def Obligations.OutputAndShadowFollowTheEvents : Prop :=
  ∀ (i : Instr) (s t : State), exec i s = .next t →
    ∃ evs, t.hist = s.hist ++ evs ∧ t.ce = ((evs.filterMap ceLevel).getLast?).getD s.ce ∧
      t.cfgsh = ((evs.filterMap (configWrite s.cfg)).getLast?).or s.cfgsh

/-- 10_state.md R31 and 43_framing.md R194: only the requests that run powerUp or powerDown touch CE. -/
def Obligations.OnlyPowerRequestsTouchChipEnable : Prop :=
  ∀ (i : Instr) (s t : State) (v : Bool), exec i s = .next t →
    (∀ cnt, i ≠ .rxLoop cnt) → (∀ len d, i ≠ .tx len d) → i ∉ [Instr.powerUp, .powerDown, .startRx, .stopRx] →
    t.ce = s.ce ∧ t.hist.count (.ce v) = s.hist.count (.ce v)

/-- 10_state.md R33: only SHUTDOWN clears `open`, and nothing sets it. -/
def Obligations.OnlyShutdownClosesTheBus : Prop :=
  ∀ (i : Instr) (s t : State), exec i s = .next t → (t.isOpen = true ↔ s.isOpen = true ∧ i ≠ .shutdown)

/-- 10_state.md R33 and 40_register_access.md R124: once the bus is closed, a step adds nothing but WAIT events and
leaves `open`, `ce`, the shadow and RXB as they are. -/
def Obligations.AClosedBlockIsSilent : Prop :=
  ∀ s t : State, s.isOpen = false → step s = .next t →
    t.isOpen = false ∧ t.ce = s.ce ∧ t.cfgsh = s.cfgsh ∧ t.rxb = s.rxb ∧
      ∃ evs, t.hist = s.hist ++ evs ∧ ∀ e ∈ evs, ∃ us, e = .wait (.micros us)

/-- The conclusion of 70_reset_and_hazards.md R273, "So no SWX request performs a STATUS read inside a settle window",
which the spec marks [derived: from 42_power_fsm.md rule R170 to rule R176], for the windows as log 18 reads them: no
request that starts outside every settle window reads STATUS inside one, and each but the host's own WRITE_REG ends
with every window closed. INIT writes CONFIG whole and waits `T_RADIO` alone, which settles PRIM_RX too where it is at
least `T_RX`, as the default delays are. -/
def Obligations.RequestsKeepTheSettleContract : Prop :=
  ∀ (i : Instr) (s t : State) (p : Settle), s.cfg.Valid → s.cfg.RegistersDistinct → i.port = .request →
    p.quiet = true → exec i s = .next t →
    ∃ evs q, t.hist = s.hist ++ evs ∧ settleRun s.cfg p evs = some q ∧
      ((∀ reg val, i ≠ .writeReg reg val) → (∀ txa rxa ch rt, i = .init txa rxa ch rt → s.cfg.tRx ≤ s.cfg.tRadio) →
        q.quiet = true)

/-- The bounds of 70_reset_and_hazards.md R277, which the spec marks [derived: from 43_framing.md rule R198 and
44_host_ops.md rule R221]: every instruction performs a bounded number of events, at most
`2*TX_POLL_CAP + 7` for TX and `10 + 5*cnt` for RX_LOOP. -/
def Obligations.EventsAreBounded : Prop :=
  ∀ (i : Instr) (s t : State), exec i s = .next t → t.hist.length ≤ s.hist.length + eventBound s.cfg i

/-- 40_register_access.md R133(b) with 20_memory.md R70, for the contract as Safety.lean writes it (log 19): in a
history of bus commands that conforms to it, writes CONFIG only in 2-byte exchanges and writes neither 0x1E nor 0x1F
(93_implementation_defined.md U1: what that does to the chip is unknown), a CONFIG read outside every settle window
(log 18) answers the byte last written. This is the premise of R177's table. -/
def Obligations.AConformingChipReadsBackConfig : Prop :=
  ∀ (c : Cfg) (p : Settle) (k : Chip) (h : List Event) (r : Bytes) (v : Byte), c.Valid → c.RegistersDistinct →
    (∀ e ∈ h, shaped c e) →
    (∀ b a, Event.xchg b a ∈ h → b.head? = some (wrcmd c c.regConfig) → b.length = 2) →
    (∀ b a (m : RegAddr), Event.xchg b a ∈ h → 0x1D < m.toNat → b.head? ≠ some (wrcmd c m)) →
    (p.afterAll c h).quiet = true →
    Conforms c p k (h ++ [.xchg [rdcmd c c.regConfig, c.cmdNop] r]) → shadowOf c h = some v → r[1]? = some v

/-- 10_state.md R40 with 40_register_access.md R133(a) and (b), for the contract as Safety.lean writes it (log 19):
outside every settle window a STATUS read answers its own snapshot, and after a write of `w` to STATUS each flag that
was set and whose bit in `w` is 0 is still set. -/
def Obligations.AConformingChipKeepsItsFlags : Prop :=
  ∀ (c : Cfg) (p : Settle) (k : Chip) (w : Byte) (r1 r2 r3 : Bytes), c.Valid → c.RegistersDistinct → p.quiet = true →
    Conforms c p k
      [.xchg [rdcmd c c.regStatus, c.cmdNop] r1, .xchg [wrcmd c c.regStatus, w] r2,
        .xchg [rdcmd c c.regStatus, c.cmdNop] r3] →
    r1[0]? = r1[1]? ∧
      ∃ v1 v3, r1[1]? = some v1 ∧ r3[1]? = some v3 ∧
        v1 &&& (c.stRxDr ||| c.stTxDs ||| c.stMaxRt) &&& ~~~w &&& ~~~v3 = 0#8

/-- 10_state.md R45 with 40_register_access.md R133(c) and (d), for the contract as Safety.lean writes it (log 19): a
chip that holds a received payload reports its length, at most 32, and a read of that many bytes answers its bytes,
whatever has arrived meanwhile. -/
def Obligations.AConformingChipDeliversItsOldestPayload : Prop :=
  ∀ (c : Cfg) (p : Settle) (k : Chip) (payload : Bytes) (rest : List Bytes) (r1 r2 : Bytes), c.Valid →
    k.rxFifo = payload :: rest →
    Conforms c p k
      [.xchg [c.cmdRRxPlWid, c.cmdNop] r1,
        .xchg (c.cmdRRxPayload :: List.replicate payload.length c.cmdNop) r2] →
    payload.length ≤ 32 ∧ r1[1]? = some (BitVec.ofNat 8 payload.length) ∧ r2.drop 1 = payload

/-! ### Host buffers -/

/-- 00_scope.md R14 and 20_memory.md R76: a byte of RXB that a write does not cover keeps its value, a covered one
has the value written, and the canonical form is kept. -/
def Obligations.BufferWritesAreReadBack : Prop :=
  ∀ (m : Memory) (a : Nat) (v : Bytes), Memory.wf m →
    Memory.wf (Memory.writeBytes m a v) ∧
      ∀ x, Memory.read (Memory.writeBytes m a v) x =
        if a ≤ x ∧ x < a + v.length then v[x - a]? else Memory.read m x

/-- 20_memory.md R60: no instruction but RX_DYN, RX_FIXED and RX_LOOP changes a byte of RXB. -/
def Obligations.OnlyReceivesWriteTheBuffer : Prop :=
  ∀ (i : Instr) (s t : State) (a : Nat), i ≠ .rxDyn → i ≠ .rxFixed → (∀ cnt, i ≠ .rxLoop cnt) →
    exec i s = .next t → Memory.read t.rxb a = Memory.read s.rxb a

/-- 70_reset_and_hazards.md R276: RX_DYN and RX_LOOP write at most 33 bytes of RXB, RX_FIXED `FIXED_LEN`. -/
def Obligations.ReceivesWriteOnlyTheirBytes : Prop :=
  ∀ (s t : State) (a : Nat),
    (33 ≤ a → exec .rxDyn s = .next t → Memory.read t.rxb a = Memory.read s.rxb a) ∧
      (∀ cnt, 33 ≤ a → exec (.rxLoop cnt) s = .next t → Memory.read t.rxb a = Memory.read s.rxb a) ∧
      (s.cfg.fixedLen.val ≤ a → exec .rxFixed s = .next t → Memory.read t.rxb a = Memory.read s.rxb a)
end

