-- ==== Sys2Proof/Laws/Commands.lean ====
section
/-! SUPPORT. Command bytes of a valid configuration: the register address is read back from a command, no two kinds
of command share a byte 0, and an exchange changes the CONFIG shadow only as a 2-byte CONFIG write. -/

namespace Sys2Proof.Machine

/-- The mask of 20_memory.md R61, as bits kept in place. -/
theorem setWidth_ma (reg : Byte) : (ma reg).setWidth 8 = reg &&& 0x1F#8 := by
  apply BitVec.eq_of_toNat_eq
  have h := reg.isLt
  simp only [ma, BitVec.toNat_setWidth, BitVec.toNat_and, BitVec.toNat_ofNat]
  rw [show (31 % 2 ^ 8 : Nat) = 2 ^ 5 - 1 from rfl, Nat.and_two_pow_sub_one_eq_mod]
  omega

theorem rdcmd_ma (c : Cfg) (reg : Byte) : rdcmd c (ma reg) = c.cmdRRegister ||| (reg &&& 0x1F#8) := by
  rw [rdcmd, setWidth_ma]

theorem wrcmd_ma (c : Cfg) (reg : Byte) : wrcmd c (ma reg) = c.cmdWRegister ||| (reg &&& 0x1F#8) := by
  rw [wrcmd, setWidth_ma]

/-- A byte with its low 5 bits clear takes a register address and gives it back. -/
theorem ma_or {x : Byte} (h : x &&& 0x1F#8 = 0#8) (m : RegAddr) : ma (x ||| m.setWidth 8) = m := by
  have h' : (ma x).setWidth 8 = 0#8 := (setWidth_ma x).trans h
  have hx : ma x = 0#5 := by
    apply BitVec.eq_of_toNat_eq
    have := congrArg BitVec.toNat h'
    simp only [BitVec.toNat_setWidth, BitVec.toNat_ofNat] at this
    have hl := (ma x).isLt
    simp only [BitVec.toNat_ofNat]
    omega
  have hw : (x ||| m.setWidth 8).setWidth 5 = x.setWidth 5 ||| m := by
    rw [BitVec.setWidth_or]; simp
  rw [ma, hw]
  rw [ma] at hx
  rw [hx]; simp

/-- The top 3 bits of a command are its command bits. -/
theorem top_or {x : Byte} (h : x &&& 0x1F#8 = 0#8) (m : RegAddr) : (x ||| m.setWidth 8) &&& 0xE0#8 = x := by
  have h1 : x &&& 0xE0#8 = x := by
    have : x = (x &&& 0x1F#8) ||| (x &&& 0xE0#8) := by
      rw [← BitVec.and_or_distrib_left]
      rw [show (0x1F#8 ||| 0xE0#8) = BitVec.allOnes 8 from rfl, BitVec.and_allOnes]
    rw [h] at this
    simpa using this.symm
  have h2 : m.setWidth 8 &&& 0xE0#8 = 0#8 := by
    have : m.setWidth 8 = m.setWidth 8 &&& 0x1F#8 := by
      rw [← setWidth_ma]; simp [ma]
    rw [this, BitVec.and_assoc, show (0x1F#8 &&& 0xE0#8) = 0#8 from rfl, BitVec.and_zero]
  rw [BitVec.and_or_distrib_right, h1, h2, BitVec.or_zero]

section
variable {c : Cfg} (hv : c.Valid)
include hv

theorem ma_rdcmd (m : RegAddr) : ma (rdcmd c m) = m := ma_or hv.commandBits.1 m
theorem ma_wrcmd (m : RegAddr) : ma (wrcmd c m) = m := ma_or hv.commandBits.2 m
theorem top_rdcmd (m : RegAddr) : rdcmd c m &&& 0xE0#8 = c.cmdRRegister := top_or hv.commandBits.1 m
theorem top_wrcmd (m : RegAddr) : wrcmd c m &&& 0xE0#8 = c.cmdWRegister := top_or hv.commandBits.2 m

theorem cmdR_ne_cmdW : c.cmdRRegister ≠ c.cmdWRegister := by
  have h := hv.commands.1
  simp only [List.nodup_cons, List.mem_cons, not_or] at h
  exact h.1.1

theorem rdcmd_ne_wrcmd (m m' : RegAddr) : rdcmd c m ≠ wrcmd c m' := fun h =>
  cmdR_ne_cmdW hv (by rw [← top_rdcmd hv m, ← top_wrcmd hv m', h])

theorem rdcmd_inj {m m' : RegAddr} : rdcmd c m = rdcmd c m' ↔ m = m' :=
  ⟨fun h => by rw [← ma_rdcmd hv m, h, ma_rdcmd hv], fun h => by rw [h]⟩

theorem wrcmd_inj {m m' : RegAddr} : wrcmd c m = wrcmd c m' ↔ m = m' :=
  ⟨fun h => by rw [← ma_wrcmd hv m, h, ma_wrcmd hv], fun h => by rw [h]⟩

/-- 30_encoding.md R105: a fixed command is no register command. -/
theorem fixed_ne_rdcmd {x : Byte} (hx : x ∈ c.fixedCommands) (m : RegAddr) : x ≠ rdcmd c m := fun h =>
  (hv.commands.2 x hx).1 (by rw [h, top_rdcmd hv])

theorem fixed_ne_wrcmd {x : Byte} (hx : x ∈ c.fixedCommands) (m : RegAddr) : x ≠ wrcmd c m := fun h =>
  (hv.commands.2 x hx).2 (by rw [h, top_wrcmd hv])

/-- 30_encoding.md R105: the fixed commands and the filler are pairwise distinct. -/
theorem fixed_distinct :
    (c.cmdRRxPlWid ≠ c.cmdRRxPayload ∧ c.cmdRRxPlWid ≠ c.cmdWTxPayload ∧ c.cmdRRxPlWid ≠ c.cmdFlushTx ∧
        c.cmdRRxPlWid ≠ c.cmdFlushRx) ∧
      (c.cmdRRxPayload ≠ c.cmdWTxPayload ∧ c.cmdRRxPayload ≠ c.cmdFlushTx ∧ c.cmdRRxPayload ≠ c.cmdFlushRx) ∧
      (c.cmdWTxPayload ≠ c.cmdFlushTx ∧ c.cmdWTxPayload ≠ c.cmdFlushRx ∧ c.cmdFlushTx ≠ c.cmdFlushRx) ∧
      ∀ x ∈ c.fixedCommands, c.cmdNop ≠ x := by
  have h := hv.commands.1
  simp only [Cfg.fixedCommands, List.nodup_cons, List.mem_cons, not_or, List.not_mem_nil, not_false_eq_true,
    List.nodup_nil, and_true] at h
  obtain ⟨-, -, hn, h1, h2, h3, h4⟩ := h
  refine ⟨h1, h2, ⟨h3.1, h3.2, h4⟩, fun x hx => ?_⟩
  simp only [Cfg.fixedCommands, List.mem_cons, List.not_mem_nil, or_false] at hx
  rcases hx with rfl | rfl | rfl | rfl | rfl
  · exact hn.1
  · exact hn.2.1
  · exact hn.2.2.1
  · exact hn.2.2.2.1
  · exact hn.2.2.2.2

end

theorem plWid_mem (c : Cfg) : c.cmdRRxPlWid ∈ c.fixedCommands := by simp [Cfg.fixedCommands]
theorem rxPayload_mem (c : Cfg) : c.cmdRRxPayload ∈ c.fixedCommands := by simp [Cfg.fixedCommands]
theorem txPayload_mem (c : Cfg) : c.cmdWTxPayload ∈ c.fixedCommands := by simp [Cfg.fixedCommands]
theorem flushTx_mem (c : Cfg) : c.cmdFlushTx ∈ c.fixedCommands := by simp [Cfg.fixedCommands]
theorem flushRx_mem (c : Cfg) : c.cmdFlushRx ∈ c.fixedCommands := by simp [Cfg.fixedCommands]

/-! ### The CONFIG shadow (10_state.md R32) -/

/-- An exchange that does not begin with `wrcmd(REG_CONFIG)` leaves the shadow. -/
theorem shadowAfter_other {c : Cfg} {cmd : Byte} (h : cmd ≠ wrcmd c c.regConfig) (sh : Option Byte) (rest : Bytes) :
    shadowAfter c sh (cmd :: rest) = sh := by
  unfold shadowAfter
  split
  · rename_i heq
    simp only [List.cons.injEq] at heq
    rw [if_neg (by rw [← heq.1]; exact h)]
  · rfl

/-- An exchange that is not 2 bytes long leaves the shadow. -/
theorem shadowAfter_length {c : Cfg} {b : Bytes} (h : b.length ≠ 2) (sh : Option Byte) : shadowAfter c sh b = sh := by
  unfold shadowAfter
  split
  · simp at h
  · rfl

/-- A 2-byte register write sets the shadow where the register is CONFIG. -/
theorem shadowAfter_writeReg {c : Cfg} (hv : c.Valid) (sh : Option Byte) (m : RegAddr) (v : Byte) :
    shadowAfter c sh (writeRegBytes c m v) = if m = c.regConfig then some v else sh := by
  simp only [writeRegBytes, shadowAfter, wrcmd_inj hv]

theorem shadowAfter_read {c : Cfg} (hv : c.Valid) (sh : Option Byte) (m : RegAddr) (rest : Bytes) :
    shadowAfter c sh (rdcmd c m :: rest) = sh := shadowAfter_other (rdcmd_ne_wrcmd hv m _) sh rest

theorem shadowAfter_fixed {c : Cfg} (hv : c.Valid) {x : Byte} (hx : x ∈ c.fixedCommands) (sh : Option Byte)
    (rest : Bytes) : shadowAfter c sh (x :: rest) = sh := shadowAfter_other (fixed_ne_wrcmd hv hx _) sh rest

/-- The shadow after an exchange is what its event writes to CONFIG, or what it was. -/
theorem shadowAfter_configWrite (c : Cfg) (sh : Option Byte) (b r : Bytes) :
    shadowAfter c sh b = (configWrite c (.xchg b r)).or sh := by
  unfold shadowAfter configWrite
  split
  · rename_i cmd v
    by_cases h : cmd = wrcmd c c.regConfig <;> simp [h]
  · rename_i h
    split
    · rename_i heq
      simp only [Event.xchg.injEq] at heq
      exact absurd heq.1 (h _ _)
    · rfl

end Sys2Proof.Machine
end

