-- ==== Sys2Proof/Laws/State.lean ====
section
/-! SUPPORT. One lemma per field per update of the state, true by rfl. -/

namespace Sys2Proof.Machine

variable (s : State)

/-! `State.exchange` -/

@[simp] theorem State.exchange_cfg (b : Bytes) : (s.exchange b).cfg = s.cfg := rfl
@[simp] theorem State.exchange_stream (b : Bytes) : (s.exchange b).stream = s.stream := rfl
@[simp] theorem State.exchange_answers (b : Bytes) : (s.exchange b).answers = s.answers.drop 1 := rfl
@[simp] theorem State.exchange_busq (b : Bytes) : (s.exchange b).busq = s.busq := rfl
@[simp] theorem State.exchange_ce (b : Bytes) : (s.exchange b).ce = s.ce := rfl
@[simp] theorem State.exchange_cfgsh (b : Bytes) : (s.exchange b).cfgsh = shadowAfter s.cfg s.cfgsh b := rfl
@[simp] theorem State.exchange_isOpen (b : Bytes) : (s.exchange b).isOpen = s.isOpen := rfl
@[simp] theorem State.exchange_fault (b : Bytes) : (s.exchange b).fault = s.fault := rfl
@[simp] theorem State.exchange_pc (b : Bytes) : (s.exchange b).pc = s.pc := rfl
@[simp] theorem State.exchange_hist (b : Bytes) : (s.exchange b).hist = s.hist ++ [.xchg b (s.response b)] := rfl
@[simp] theorem State.exchange_rxb (b : Bytes) : (s.exchange b).rxb = s.rxb := rfl
@[simp] theorem State.exchange_results (b : Bytes) : (s.exchange b).results = s.results := rfl

/-! `State.setCE` -/

@[simp] theorem State.setCE_cfg (v : Bool) : (s.setCE v).cfg = s.cfg := rfl
@[simp] theorem State.setCE_stream (v : Bool) : (s.setCE v).stream = s.stream := rfl
@[simp] theorem State.setCE_answers (v : Bool) : (s.setCE v).answers = s.answers := rfl
@[simp] theorem State.setCE_busq (v : Bool) : (s.setCE v).busq = s.busq := rfl
@[simp] theorem State.setCE_ce (v : Bool) : (s.setCE v).ce = v := rfl
@[simp] theorem State.setCE_cfgsh (v : Bool) : (s.setCE v).cfgsh = s.cfgsh := rfl
@[simp] theorem State.setCE_isOpen (v : Bool) : (s.setCE v).isOpen = s.isOpen := rfl
@[simp] theorem State.setCE_fault (v : Bool) : (s.setCE v).fault = s.fault := rfl
@[simp] theorem State.setCE_pc (v : Bool) : (s.setCE v).pc = s.pc := rfl
@[simp] theorem State.setCE_hist (v : Bool) : (s.setCE v).hist = s.hist ++ [.ce v] := rfl
@[simp] theorem State.setCE_rxb (v : Bool) : (s.setCE v).rxb = s.rxb := rfl
@[simp] theorem State.setCE_results (v : Bool) : (s.setCE v).results = s.results := rfl

/-! `State.waitFor` -/

@[simp] theorem State.waitFor_cfg (d : Delay) : (s.waitFor d).cfg = s.cfg := rfl
@[simp] theorem State.waitFor_stream (d : Delay) : (s.waitFor d).stream = s.stream := rfl
@[simp] theorem State.waitFor_answers (d : Delay) : (s.waitFor d).answers = s.answers := rfl
@[simp] theorem State.waitFor_busq (d : Delay) : (s.waitFor d).busq = s.busq := rfl
@[simp] theorem State.waitFor_ce (d : Delay) : (s.waitFor d).ce = s.ce := rfl
@[simp] theorem State.waitFor_cfgsh (d : Delay) : (s.waitFor d).cfgsh = s.cfgsh := rfl
@[simp] theorem State.waitFor_isOpen (d : Delay) : (s.waitFor d).isOpen = s.isOpen := rfl
@[simp] theorem State.waitFor_fault (d : Delay) : (s.waitFor d).fault = s.fault := rfl
@[simp] theorem State.waitFor_pc (d : Delay) : (s.waitFor d).pc = s.pc := rfl
@[simp] theorem State.waitFor_hist (d : Delay) : (s.waitFor d).hist = s.hist ++ [.wait d] := rfl
@[simp] theorem State.waitFor_rxb (d : Delay) : (s.waitFor d).rxb = s.rxb := rfl
@[simp] theorem State.waitFor_results (d : Delay) : (s.waitFor d).results = s.results := rfl

/-! `State.writeRxb` -/

@[simp] theorem State.writeRxb_cfg (a : Nat) (v : Bytes) : (s.writeRxb a v).cfg = s.cfg := rfl
@[simp] theorem State.writeRxb_stream (a : Nat) (v : Bytes) : (s.writeRxb a v).stream = s.stream := rfl
@[simp] theorem State.writeRxb_answers (a : Nat) (v : Bytes) : (s.writeRxb a v).answers = s.answers := rfl
@[simp] theorem State.writeRxb_busq (a : Nat) (v : Bytes) : (s.writeRxb a v).busq = s.busq := rfl
@[simp] theorem State.writeRxb_ce (a : Nat) (v : Bytes) : (s.writeRxb a v).ce = s.ce := rfl
@[simp] theorem State.writeRxb_cfgsh (a : Nat) (v : Bytes) : (s.writeRxb a v).cfgsh = s.cfgsh := rfl
@[simp] theorem State.writeRxb_isOpen (a : Nat) (v : Bytes) : (s.writeRxb a v).isOpen = s.isOpen := rfl
@[simp] theorem State.writeRxb_fault (a : Nat) (v : Bytes) : (s.writeRxb a v).fault = s.fault := rfl
@[simp] theorem State.writeRxb_pc (a : Nat) (v : Bytes) : (s.writeRxb a v).pc = s.pc := rfl
@[simp] theorem State.writeRxb_hist (a : Nat) (v : Bytes) : (s.writeRxb a v).hist = s.hist := rfl
@[simp] theorem State.writeRxb_rxb (a : Nat) (v : Bytes) : (s.writeRxb a v).rxb = Memory.writeBytes s.rxb a v := rfl
@[simp] theorem State.writeRxb_results (a : Nat) (v : Bytes) : (s.writeRxb a v).results = s.results := rfl

/-! `State.raise` -/

@[simp] theorem State.raise_cfg (k : FaultKind) (n : Nat) : (s.raise k n).cfg = s.cfg := rfl
@[simp] theorem State.raise_stream (k : FaultKind) (n : Nat) : (s.raise k n).stream = s.stream := rfl
@[simp] theorem State.raise_answers (k : FaultKind) (n : Nat) : (s.raise k n).answers = s.answers := rfl
@[simp] theorem State.raise_busq (k : FaultKind) (n : Nat) : (s.raise k n).busq = s.busq := rfl
@[simp] theorem State.raise_ce (k : FaultKind) (n : Nat) : (s.raise k n).ce = s.ce := rfl
@[simp] theorem State.raise_cfgsh (k : FaultKind) (n : Nat) : (s.raise k n).cfgsh = s.cfgsh := rfl
@[simp] theorem State.raise_isOpen (k : FaultKind) (n : Nat) : (s.raise k n).isOpen = s.isOpen := rfl
@[simp] theorem State.raise_fault (k : FaultKind) (n : Nat) : (s.raise k n).fault = some ⟨k, n⟩ := rfl
@[simp] theorem State.raise_pc (k : FaultKind) (n : Nat) : (s.raise k n).pc = s.pc := rfl
@[simp] theorem State.raise_hist (k : FaultKind) (n : Nat) : (s.raise k n).hist = s.hist := rfl
@[simp] theorem State.raise_rxb (k : FaultKind) (n : Nat) : (s.raise k n).rxb = s.rxb := rfl
@[simp] theorem State.raise_results (k : FaultKind) (n : Nat) : (s.raise k n).results = s.results ++ [{ done := false }] := rfl

/-! `State.complete` -/

@[simp] theorem State.complete_cfg (r : Result) : (s.complete r).cfg = s.cfg := rfl
@[simp] theorem State.complete_stream (r : Result) : (s.complete r).stream = s.stream := rfl
@[simp] theorem State.complete_answers (r : Result) : (s.complete r).answers = s.answers := rfl
@[simp] theorem State.complete_busq (r : Result) : (s.complete r).busq = s.busq := rfl
@[simp] theorem State.complete_ce (r : Result) : (s.complete r).ce = s.ce := rfl
@[simp] theorem State.complete_cfgsh (r : Result) : (s.complete r).cfgsh = s.cfgsh := rfl
@[simp] theorem State.complete_isOpen (r : Result) : (s.complete r).isOpen = s.isOpen := rfl
@[simp] theorem State.complete_fault (r : Result) : (s.complete r).fault = s.fault := rfl
@[simp] theorem State.complete_pc (r : Result) : (s.complete r).pc = s.pc + 1 := rfl
@[simp] theorem State.complete_hist (r : Result) : (s.complete r).hist = s.hist := rfl
@[simp] theorem State.complete_rxb (r : Result) : (s.complete r).rxb = s.rxb := rfl
@[simp] theorem State.complete_results (r : Result) : (s.complete r).results = s.results ++ [r] := rfl

/-! `State.did` -/

@[simp] theorem State.did_cfg (evs : List Event) (n : Nat) (r : Result) : (s.did evs n r).cfg = s.cfg := rfl
@[simp] theorem State.did_stream (evs : List Event) (n : Nat) (r : Result) : (s.did evs n r).stream = s.stream := rfl
@[simp] theorem State.did_answers (evs : List Event) (n : Nat) (r : Result) : (s.did evs n r).answers = s.answers.drop n := rfl
@[simp] theorem State.did_busq (evs : List Event) (n : Nat) (r : Result) : (s.did evs n r).busq = s.busq := rfl
@[simp] theorem State.did_ce (evs : List Event) (n : Nat) (r : Result) : (s.did evs n r).ce = s.ce := rfl
@[simp] theorem State.did_cfgsh (evs : List Event) (n : Nat) (r : Result) : (s.did evs n r).cfgsh = s.cfgsh := rfl
@[simp] theorem State.did_isOpen (evs : List Event) (n : Nat) (r : Result) : (s.did evs n r).isOpen = s.isOpen := rfl
@[simp] theorem State.did_fault (evs : List Event) (n : Nat) (r : Result) : (s.did evs n r).fault = s.fault := rfl
@[simp] theorem State.did_pc (evs : List Event) (n : Nat) (r : Result) : (s.did evs n r).pc = s.pc + 1 := rfl
@[simp] theorem State.did_hist (evs : List Event) (n : Nat) (r : Result) : (s.did evs n r).hist = s.hist ++ evs := rfl
@[simp] theorem State.did_rxb (evs : List Event) (n : Nat) (r : Result) : (s.did evs n r).rxb = s.rxb := rfl
@[simp] theorem State.did_results (evs : List Event) (n : Nat) (r : Result) : (s.did evs n r).results = s.results ++ [r] := rfl

/-! `State.faulted` -/

@[simp] theorem State.faulted_cfg (k : FaultKind) (n : Nat) : (s.faulted k n).cfg = s.cfg := rfl
@[simp] theorem State.faulted_stream (k : FaultKind) (n : Nat) : (s.faulted k n).stream = s.stream := rfl
@[simp] theorem State.faulted_answers (k : FaultKind) (n : Nat) : (s.faulted k n).answers = s.answers := rfl
@[simp] theorem State.faulted_busq (k : FaultKind) (n : Nat) : (s.faulted k n).busq = s.busq := rfl
@[simp] theorem State.faulted_ce (k : FaultKind) (n : Nat) : (s.faulted k n).ce = s.ce := rfl
@[simp] theorem State.faulted_cfgsh (k : FaultKind) (n : Nat) : (s.faulted k n).cfgsh = s.cfgsh := rfl
@[simp] theorem State.faulted_isOpen (k : FaultKind) (n : Nat) : (s.faulted k n).isOpen = s.isOpen := rfl
@[simp] theorem State.faulted_fault (k : FaultKind) (n : Nat) : (s.faulted k n).fault = some ⟨k, n⟩ := rfl
@[simp] theorem State.faulted_pc (k : FaultKind) (n : Nat) : (s.faulted k n).pc = s.pc := rfl
@[simp] theorem State.faulted_hist (k : FaultKind) (n : Nat) : (s.faulted k n).hist = s.hist := rfl
@[simp] theorem State.faulted_rxb (k : FaultKind) (n : Nat) : (s.faulted k n).rxb = s.rxb := rfl
@[simp] theorem State.faulted_results (k : FaultKind) (n : Nat) : (s.faulted k n).results = s.results ++ [{ done := false }] := rfl

end Sys2Proof.Machine
end

