-- ==== Sys2Proof/Laws/Ops.lean ====
section
/-! SUPPORT. What each shared operation can do: host buffers keep their canonical form and read back, an answer is a
draw, a request on the bus runs its body or raises. -/

namespace Sys2Proof.Machine

/-! ### Host buffers -/

theorem Memory.read_write (m : Memory) (a : Nat) (v : Byte) (x : Nat) :
    Memory.read (Memory.write m a v) x = if x = a then some v else Memory.read m x := by
  induction m with
  | nil => by_cases h : a = x <;> simp [Memory.write, Memory.read, h, eq_comm]
  | cons e m ih =>
    obtain ⟨b, w⟩ := e
    simp only [Memory.write]
    split
    · by_cases h : a = x <;> simp [Memory.read, h, eq_comm]
    · split
      · rename_i h
        subst h
        by_cases h : a = x <;> simp [Memory.read, h, eq_comm]
      · rename_i h1 h2
        simp only [Memory.read, ih]
        by_cases h : b = x
        · have : ¬x = a := by omega
          simp [h, this]
        · simp [h]

/-- The offsets of a buffer after a write are the written one and the old ones. -/
theorem Memory.mem_write {m : Memory} {a x : Nat} {v : Byte} (h : x ∈ (Memory.write m a v).map Prod.fst) :
    x = a ∨ x ∈ m.map Prod.fst := by
  induction m with
  | nil => simpa [Memory.write] using h
  | cons e m ih =>
    obtain ⟨b, w⟩ := e
    simp only [Memory.write] at h
    split at h
    · simpa using h
    · split at h
      · simp only [List.map_cons, List.mem_cons] at h ⊢
        exact h.imp_right Or.inr
      · simp only [List.map_cons, List.mem_cons] at h ⊢
        rcases h with h | h
        · exact .inr (.inl h)
        · exact (ih h).imp_right Or.inr

/-- A write keeps the canonical form. -/
theorem Memory.write_wf {m : Memory} (h : Memory.wf m) (a : Nat) (v : Byte) : Memory.wf (Memory.write m a v) := by
  induction m with
  | nil => simp [Memory.write, Memory.wf]
  | cons e m ih =>
    obtain ⟨b, w⟩ := e
    simp only [Memory.wf, List.map_cons, List.pairwise_cons] at h ih ⊢
    simp only [Memory.write]
    split
    · rename_i hab
      simp only [List.map_cons, List.pairwise_cons, List.mem_cons]
      refine ⟨fun x hx => ?_, h⟩
      rcases hx with rfl | hx
      · exact hab
      · exact hab.trans (h.1 x hx)
    · split
      · rename_i hab
        subst hab
        simpa using h
      · rename_i h1 h2
        simp only [List.map_cons, List.pairwise_cons]
        refine ⟨fun x hx => ?_, ih h.2⟩
        rcases Memory.mem_write hx with rfl | hx
        · omega
        · exact h.1 x hx

theorem Memory.write_within {m : Memory} {cap : Nat} (h : Memory.within m cap) {a : Nat} (ha : a < cap) (v : Byte) :
    Memory.within (Memory.write m a v) cap := fun x hx => by
  rcases Memory.mem_write hx with rfl | hx
  · exact ha
  · exact h x hx

/-- A write of a byte string keeps the canonical form. -/
theorem Memory.writeBytes_wf {m : Memory} (h : Memory.wf m) (a : Nat) (v : Bytes) :
    Memory.wf (Memory.writeBytes m a v) := by
  induction v generalizing m a with
  | nil => exact h
  | cons b v ih => exact ih (Memory.write_wf h a b) (a + 1)

/-- A write inside a buffer leaves every offset inside it (20_memory.md R76). -/
theorem Memory.writeBytes_within {m : Memory} {cap : Nat} (h : Memory.within m cap) (a : Nat) (v : Bytes)
    (hv : a + v.length ≤ cap) : Memory.within (Memory.writeBytes m a v) cap := by
  induction v generalizing m a with
  | nil => exact h
  | cons b v ih =>
    simp only [List.length_cons] at hv
    exact ih (Memory.write_within h (by omega) b) (a + 1) (by omega)

theorem Memory.read_writeBytes_other (m : Memory) (a : Nat) (v : Bytes) (x : Nat) (hx : x < a ∨ a + v.length ≤ x) :
    Memory.read (Memory.writeBytes m a v) x = Memory.read m x := by
  induction v generalizing m a with
  | nil => rfl
  | cons b v ih =>
    simp only [List.length_cons] at hx
    rw [Memory.writeBytes, ih _ (a + 1) (by omega), Memory.read_write, if_neg (by omega)]

theorem Memory.read_writeBytes_inside (m : Memory) (a : Nat) (v : Bytes) (k : Nat) (hk : k < v.length) :
    Memory.read (Memory.writeBytes m a v) (a + k) = v[k]? := by
  induction v generalizing m a k with
  | nil => simp at hk
  | cons b v ih =>
    rw [Memory.writeBytes]
    cases k with
    | zero => rw [Memory.read_writeBytes_other _ _ _ _ (.inl (by omega)), Memory.read_write]; simp
    | succ k =>
      rw [show a + (k + 1) = a + 1 + k by omega, ih _ (a + 1) k (by simpa using hk)]
      simp

/-- What a read of the first bytes of a write gives (00_scope.md R14). -/
theorem Memory.readBytes_writeBytes (m : Memory) (v : Bytes) {n : Nat} (h : n ≤ v.length) :
    Memory.readBytes (Memory.writeBytes m 0 v) 0 n = v.take n := by
  have hr : ∀ i ∈ List.range n, Memory.read (Memory.writeBytes m 0 v) (0 + i) = v[i]? := fun i hi =>
    Memory.read_writeBytes_inside m 0 v i (by simp only [List.mem_range] at hi; omega)
  rw [Memory.readBytes, List.filterMap_congr hr]
  clear hr
  induction n with
  | zero => simp
  | succ n ih =>
    have hn : n < v.length := by omega
    rw [List.range_succ, List.filterMap_append, ih (by omega), List.take_add_one]
    simp [hn]

/-- The reset memory is in canonical form. -/
theorem reset_rxb_wf : Memory.wf State.reset.rxb := List.Pairwise.nil

/-! ### Answers -/

@[simp] theorem State.response_length (s : State) (b : Bytes) : (s.response b).length = b.length := by
  simp [State.response]

/-- The answer of an exchange is a draw (40_register_access.md R120). -/
theorem State.response_drawn (s : State) (b : Bytes) : Drawn s.answers b (s.response b) := by
  refine ⟨s.response_length b, fun i x hi hx => ?_⟩
  simp only [State.response, List.getElem?_map, List.getElem?_range hi, Option.map_some, List.getD, hx,
    Option.getD_some]

theorem byteAt_of_getElem? {s : Bytes} {i : Nat} {x : Byte} (h : s[i]? = some x) : byteAt s i = x := by
  simp [byteAt, List.getD, h]

theorem getElem?_of_lt {s : Bytes} {i : Nat} (h : i < s.length) : s[i]? = some (byteAt s i) := by
  simp [byteAt, List.getD, h]

/-- The answer of an exchange made when the chip's next answers are `as`. -/
theorem State.response_drawn_of {s : State} {as : List Bytes} (h : s.answers = as) (b : Bytes) :
    Drawn as b (s.response b) := h ▸ s.response_drawn b

/-! ### Requests on the bus -/

theorem State.onBus_open {s : State} (h : s.isOpen = true) (op : Byte) (body : State → State) :
    s.onBus op body = body s := by simp [State.onBus, h]

theorem State.onBus_closed {s : State} (h : s.isOpen = false) (op : Byte) (body : State → State) :
    s.onBus op body = s.faulted .busClosed op.toNat := by
  simp [State.onBus, h, State.raise, State.faulted]

theorem State.raise_eq_faulted (s : State) (k : FaultKind) (n : Nat) : s.raise k n = s.faulted k n := rfl

/-- A request of one exchange that leaves the shadow. -/
theorem State.exchange_complete {s : State} {b : Bytes} (h : shadowAfter s.cfg s.cfgsh b = s.cfgsh) (r : Result) :
    (s.exchange b).complete r = s.did [.xchg b (s.response b)] 1 r := by
  simp only [State.complete, State.exchange, State.did, h]

/-- A request with no port event. -/
theorem State.complete_eq (s : State) (r : Result) : s.complete r = s.did [] 0 r := by
  simp [State.complete, State.did]

/-- A request that ran `s` to `t` and completed is `did`, where only the history, the answers, `pc` and the results
changed. -/
theorem State.complete_eq_did (s t : State) (evs : List Event) (n : Nat) (r : Result)
    (h : t = { s with hist := s.hist ++ evs, answers := s.answers.drop n }) : t.complete r = s.did evs n r := by
  subst h; rfl

end Sys2Proof.Machine
end

