-- ==== Sys2Proof/Laws/Bodies.lean ====
section
/-! SUPPORT. What the bodies that several requests run leave (00_scope.md R16), said once for each. -/

namespace Sys2Proof.Machine

theorem powerUpBody_eq (s : State) :
    powerUpBody s = { s with hist := s.hist ++ [.ce true, .wait .tCeUp], ce := true } := by
  simp [powerUpBody, State.setCE, State.waitFor]

theorem powerDownBody_eq (s : State) :
    powerDownBody s = { s with hist := s.hist ++ [.ce false, .wait .tCeDown], ce := false } := by
  simp [powerDownBody, State.setCE, State.waitFor]

/-- A register read (40_register_access.md R125) leaves the shadow. -/
theorem readRegBody_eq {s : State} (hv : s.cfg.Valid) (m : RegAddr) :
    readRegBody m s =
      { s with
        hist := s.hist ++ [.xchg [rdcmd s.cfg m, s.cfg.cmdNop] (s.response [rdcmd s.cfg m, s.cfg.cmdNop])]
        answers := s.answers.drop 1 } := by
  simp only [readRegBody, readRegBytes, State.exchange, shadowAfter_read hv]

/-- A register write (40_register_access.md R126) sets the shadow where the register is CONFIG. -/
theorem writeRegBody_eq {s : State} (hv : s.cfg.Valid) (m : RegAddr) (v : Byte) :
    writeRegBody m v s =
      { s with
        hist := s.hist ++ [.xchg [wrcmd s.cfg m, v] (s.response [wrcmd s.cfg m, v])]
        answers := s.answers.drop 1
        cfgsh := if m = s.cfg.regConfig then some v else s.cfgsh } := by
  have h : shadowAfter s.cfg s.cfgsh [wrcmd s.cfg m, v] = if m = s.cfg.regConfig then some v else s.cfgsh :=
    shadowAfter_writeReg hv s.cfgsh m v
  simp only [writeRegBody, writeRegBytes, State.exchange, h]

/-- A CONFIG read and write (42_power_fsm.md R172) leave the written byte in the shadow. -/
theorem setCfgBody_frame {s : State} (hv : s.cfg.Valid) (mask : Byte) :
    (setCfgBody mask s).cfgsh = some (readRegValue s.cfg.regConfig s ||| mask) ∧ (setCfgBody mask s).ce = s.ce ∧
      (setCfgBody mask s).cfg = s.cfg ∧ (setCfgBody mask s).answers = s.answers.drop 2 := by
  have h := writeRegBody_eq (s := readRegBody s.cfg.regConfig s) hv s.cfg.regConfig
    (setBits (readRegValue s.cfg.regConfig s) mask)
  rw [setCfgBody, h]
  simp [readRegBody, setBits]

theorem clrCfgBody_frame {s : State} (hv : s.cfg.Valid) (mask : Byte) :
    (clrCfgBody mask s).cfgsh = some (readRegValue s.cfg.regConfig s &&& ~~~mask) ∧ (clrCfgBody mask s).ce = s.ce ∧
      (clrCfgBody mask s).cfg = s.cfg ∧ (clrCfgBody mask s).answers = s.answers.drop 2 := by
  have h := writeRegBody_eq (s := readRegBody s.cfg.regConfig s) hv s.cfg.regConfig
    (clearBits (readRegValue s.cfg.regConfig s) mask)
  rw [clrCfgBody, h]
  simp [readRegBody, clearBits]

/-- A register read returns the byte that the chip is going to answer, where it is known. -/
theorem readRegValue_of_answer {s : State} {v : Byte} {m : RegAddr} (h : (s.answers.headD [])[1]? = some v) :
    readRegValue m s = v :=
  byteAt_of_getElem? ((s.response_drawn (readRegBytes s.cfg m)).2 1 v (by simp [readRegBytes]) h)

/-- The events of a list of draws, split. -/
theorem drawnAll_append (answers : List Bytes) (es fs : List Event) :
    drawnAll answers (es ++ fs) ↔ drawnAll answers es ∧ drawnAll (answers.drop (es.countP isExchange)) fs := by
  induction es generalizing answers with
  | nil => simp [drawnAll]
  | cons e es ih => cases e <;> simp [drawnAll, ih, isExchange, List.countP_cons, and_assoc]

end Sys2Proof.Machine
end

