-- ==== Sys2Proof/Laws/Encoding.lean ====
section
/-! SUPPORT. Byte order read forwards and backwards (20_memory.md R64, R67), and the op map read forwards and backwards
(30_encoding.md R93, R94). -/

namespace Sys2Proof

/-! ### Byte order -/

@[simp] theorem leBytes_length (n v : Nat) : (leBytes n v).length = n := by
  induction n generalizing v with
  | zero => rfl
  | succ n ih => simp [leBytes, ih]

/-- Reading the `n` low bytes gives the number modulo `256^n`. -/
theorem leNat_leBytes (n v : Nat) : leNat (leBytes n v) = v % 256 ^ n := by
  induction n generalizing v with
  | zero => simp [leNat, leBytes, Nat.mod_one]
  | succ n ih =>
    simp only [leBytes, leNat, ih, BitVec.toNat_ofNat]
    rw [show 256 ^ (n + 1) = 256 * 256 ^ n from Nat.pow_succ', Nat.mod_mul]

/-- Writing the number that bytes stand for gives the bytes. -/
theorem leBytes_leNat (b : Bytes) : leBytes b.length (leNat b) = b := by
  induction b with
  | nil => rfl
  | cons x b ih =>
    simp only [List.length_cons, leBytes, leNat]
    have hx := x.isLt
    rw [show (x.toNat + 256 * leNat b) / 256 = leNat b by omega, ih]
    congr 1
    apply BitVec.eq_of_toNat_eq
    simp only [BitVec.toNat_ofNat]
    omega

theorem leNat_lt (b : Bytes) : leNat b < 256 ^ b.length := by
  induction b with
  | nil => simp [leNat]
  | cons x b ih =>
    simp only [List.length_cons, leNat, Nat.pow_succ]
    have := x.isLt
    omega

/-- A 40-bit operand read back from its five bytes. -/
theorem leAddr_leBytes (v : Addr) : leAddr (leBytes 5 v.toNat) = v := by
  apply BitVec.eq_of_toNat_eq
  have := v.isLt
  rw [leAddr, leNat_leBytes]
  simp only [BitVec.toNat_ofNat]
  omega

/-- Five bytes written back from the address they stand for. -/
theorem leBytes_leAddr {b : Bytes} (hb : b.length = 5) : leBytes 5 (leAddr b).toNat = b := by
  have h := leNat_lt b
  rw [hb] at h
  rw [leAddr, BitVec.toNat_ofNat, Nat.mod_eq_of_lt (by omega), ← hb, leBytes_leNat]

/-! ### The op map -/

/-- A row's op byte selects the row. -/
@[simp] theorem Op.ofByte_code (o : Op) : Op.ofByte o.code = some o := by cases o <;> rfl

/-- The row that an op byte selects has that byte. -/
theorem Op.code_of_ofByte {b : Byte} {o : Op} (h : Op.ofByte b = some o) : b = o.code := by
  have := List.find?_some h
  exact (by simpa using this : o.code = b).symm

/-- 30_encoding.md R94: the reserved ops are the bytes that no row has. -/
theorem reservedOp_iff (b : Byte) : reservedOp b = true ↔ Op.ofByte b = none := by
  simp only [Op.ofByte, Op.all, List.find?_eq_none, List.forall_mem_cons, Op.code, beq_iff_eq, reservedOp,
    Bool.or_eq_true, decide_eq_true_eq, BitVec.le_def, ← BitVec.toNat_inj, BitVec.toNat_ofNat, List.not_mem_nil,
    false_implies, implies_true, and_true]
  have := b.isLt
  omega

end Sys2Proof
end

