-- ==== Sys2Proof/Laws/Codec.lean ====
section
/-! SUPPORT. The codec's functions on bytes written out (41_address_codec.md R150, R151, R153, R157). -/

namespace Sys2Proof.Machine

/-- The five bytes of an address, least significant first (R150). -/
theorem enc_five (v : Addr) :
    enc v 5 = [v.extractLsb' 0 8, v.extractLsb' 8 8, v.extractLsb' 16 8, v.extractLsb' 24 8, v.extractLsb' 32 8] := by
  simp only [enc, leBytes, List.cons.injEq, and_true]
  refine ⟨?_, ?_, ?_, ?_, ?_⟩ <;> apply BitVec.eq_of_toNat_eq <;>
    simp [BitVec.extractLsb'_toNat, Nat.shiftRight_eq_div_pow] <;> omega

/-- The address of five bytes (R151). -/
theorem dec_five (b0 b1 b2 b3 b4 : Byte) : dec [b0, b1, b2, b3, b4] = addrOf b0 b1 b2 b3 b4 := by
  apply BitVec.eq_of_toNat_eq
  have h0 := b0.isLt; have h1 := b1.isLt; have h2 := b2.isLt; have h3 := b3.isLt; have h4 := b4.isLt
  simp only [dec, leAddr, leNat, addrOf, BitVec.toNat_ofNat, BitVec.toNat_append]
  rw [← Nat.shiftLeft_add_eq_or_of_lt h3, ← Nat.shiftLeft_add_eq_or_of_lt h2, ← Nat.shiftLeft_add_eq_or_of_lt h1,
    ← Nat.shiftLeft_add_eq_or_of_lt h0]
  simp only [Nat.shiftLeft_eq]
  omega

/-- The address in bytes 1 to 5 of a 6-byte answer (40_register_access.md R129). -/
theorem dec_drop_one {r : Bytes} (h : r.length = 6) :
    dec (r.drop 1) = addrOf (byteAt r 1) (byteAt r 2) (byteAt r 3) (byteAt r 4) (byteAt r 5) := by
  rcases r with _ | ⟨a, _ | ⟨b, _ | ⟨c, _ | ⟨d, _ | ⟨e, _ | ⟨f, _ | ⟨g, l⟩⟩⟩⟩⟩⟩⟩ <;> simp at h
  simp [byteAt, dec_five]

/-- The mask of R153 keeps bits 8 to 39 and drops bits 0 to 7. -/
theorem composeMask_bits : (∀ j : Fin 8, (0xFFFFFFFF00#40)[j.val] = false) ∧
    ∀ j : Fin 40, 8 ≤ j.val → (0xFFFFFFFF00#40)[j.val] = true := by decide

/-- Composition replaces the lowest byte (R153). -/
theorem compose_addrOf (b0 b1 b2 b3 b4 x : Byte) : compose (addrOf b0 b1 b2 b3 b4) x = addrOf x b1 b2 b3 b4 := by
  have key : ∀ (y : BitVec 32) (a x : Byte), compose (y ++ a : BitVec 40) x = (y ++ x : BitVec 40) := fun y a x => by
    unfold compose
    ext i hi
    simp only [BitVec.getElem_or, BitVec.getElem_and, BitVec.getElem_setWidth]
    rw [BitVec.getElem_append, BitVec.getElem_append]
    by_cases h : i < 8
    · rw [composeMask_bits.1 ⟨i, h⟩]
      simp [h, BitVec.getLsbD_eq_getElem]
    · rw [composeMask_bits.2 ⟨i, by simpa using hi⟩ (by simpa using h)]
      have h2 : x.getLsbD i = false := BitVec.getLsbD_of_ge _ _ (by omega)
      simp [h, h2]
  exact key (b4 ++ b3 ++ b2 ++ b1) b0 x

/-- A lower-case hex digit parses to its value (R157). -/
theorem hexval_hexDigit {n : Nat} (h : n < 16) : hexval (hexDigit n) = some (BitVec.ofNat 8 n) := by
  have all : ∀ n : Fin 16, hexval (hexDigit n.val) = some (BitVec.ofNat 8 n.val) := by decide
  exact all ⟨n, h⟩

end Sys2Proof.Machine
end

