-- ==== Sys2Proof/Laws/Contract.lean ====
section
/-! SUPPORT. The settle contract and the chip contract of Safety.lean: how a run of events settles, what an exchange
does to the settle state and to the chip, and what the contract binds of an answer. -/

namespace Sys2Proof.Machine

variable {c : Cfg}

/-! ### The settle contract (70_reset_and_hazards.md R273, R274) -/

@[simp] theorem covers_self (c : Cfg) (d : Delay) : covers c d d = true := by simp [covers]

theorem Settle.quiet_iff {p : Settle} : p.quiet = true ↔ p.ce = none ∧ p.power = false ∧ p.role = false := by
  simp [Settle.quiet, and_assoc]

/-- A run of events is the run of its first part, then of the rest. -/
theorem settleRun_append (c : Cfg) (p : Settle) (es fs : List Event) :
    settleRun c p (es ++ fs) = (settleRun c p es).bind fun q => settleRun c q fs := by
  induction es generalizing p with
  | nil => simp [settleRun]
  | cons e es ih =>
    simp only [List.cons_append, settleRun]
    split
    · simp
    · exact ih _

/-- Events that read no STATUS always run. -/
theorem settleRun_of_no_read (c : Cfg) (es : List Event) (p : Settle) (h : ∀ e ∈ es, readsStatus c e = false) :
    settleRun c p es = some (p.afterAll c es) := by
  induction es generalizing p with
  | nil => rfl
  | cons e es ih =>
    rw [settleRun, if_neg (by simp [h e (by simp)]), ih _ fun e he => h e (by simp [he])]
    rfl

/-- A register command whose register is one of the configuration's is inside the register map (00_scope.md R9). -/
theorem outsideMap_of_mem (hv : c.Valid) {m : RegAddr} (h : m ∈ c.registers) : outsideMap m = false := by
  have := BitVec.le_def.1 (hv.registers m h)
  simp only [outsideMap, decide_eq_false_iff_not]
  simp at this
  omega

/-- The exchange changes nothing whose settling is owed: it writes neither CONFIG nor 0x1E nor 0x1F. -/
def settlesNothing (c : Cfg) (b : Bytes) : Prop :=
  b.head? ≠ some (wrcmd c c.regConfig) ∧ ∀ m, outsideMap m = true → b.head? ≠ some (wrcmd c m)

/-- An exchange that writes neither CONFIG nor a register outside the map opens no window. -/
theorem Settle.afterExchange_quiet {p : Settle} {b : Bytes} (h : settlesNothing c b) (r : Bytes)
    (hp : p.quiet = true) : (p.afterExchange c b r).quiet = true := by
  unfold Settle.afterExchange
  split
  · exact hp
  · next cmd data =>
    rw [if_neg (by simpa using h.1), if_neg fun e => h.2 _ e.2 (by rw [← e.1]; rfl)]
    split <;> exact hp

/-- If it does not read CONFIG either, it leaves the settle state. -/
theorem Settle.afterExchange_other (p : Settle) {b : Bytes} (h : settlesNothing c b)
    (h' : b.head? ≠ some (rdcmd c c.regConfig)) (r : Bytes) : p.afterExchange c b r = p := by
  unfold Settle.afterExchange
  split
  · rfl
  · next cmd data =>
    rw [if_neg (by simpa using h.1), if_neg fun e => h.2 _ e.2 (by rw [← e.1]; rfl), if_neg fun e => h' (by simp [e.1])]

/-- A register read, and a write of a register inside the map other than CONFIG, settle nothing. -/
theorem settlesNothing_read (hv : c.Valid) (m : RegAddr) (rest : Bytes) : settlesNothing c (rdcmd c m :: rest) :=
  ⟨by simp [rdcmd_ne_wrcmd hv], fun m' _ => by simp [rdcmd_ne_wrcmd hv m m']⟩

theorem settlesNothing_write (hv : c.Valid) {m : RegAddr} (h : m ≠ c.regConfig) (ho : outsideMap m = false)
    (rest : Bytes) : settlesNothing c (wrcmd c m :: rest) := by
  refine ⟨by simp [wrcmd_inj hv, h], fun m' hm e => ?_⟩
  rw [List.head?_cons, Option.some.injEq, wrcmd_inj hv] at e
  rw [e, hm] at ho
  cases ho

/-- The commands with no register in them settle nothing. -/
theorem settlesNothing_fixed (hv : c.Valid) {x : Byte} (hx : x ∈ c.fixedCommands) (rest : Bytes) :
    settlesNothing c (x :: rest) :=
  ⟨by simp [fixed_ne_wrcmd hv hx], fun m _ => by simp [fixed_ne_wrcmd hv hx m]⟩

/-! ### The chip contract (40_register_access.md R133) -/

/-- A chip may do nothing by itself. -/
theorem Chip.drift_refl {k : Chip} (h : k.Ok c) : k.drift c k := by
  refine ⟨h, rfl, fun _ _ _ => rfl, fun old new ho hn => ?_, List.prefix_refl _, List.suffix_refl _⟩
  rw [ho] at hn
  cases hn
  ext i
  simp
  tauto

/-- A write-register command of one byte decodes to the write of that byte. -/
theorem decodeBus_write (hv : c.Valid) (m : RegAddr) (v : Byte) :
    decodeBus c [wrcmd c m, v] = some (.busWRegister m [v]) := by
  have hf := fun x hx => (fixed_ne_wrcmd hv (x := x) hx m).symm
  simp only [Cfg.fixedCommands, List.forall_mem_cons, List.not_mem_nil, false_implies, implies_true, and_true] at hf
  simp [decodeBus, hf, ma_wrcmd hv m, Ne.symm (rdcmd_ne_wrcmd hv m m)]

/-- A read-register command with one filler decodes to the read. -/
theorem decodeBus_read (hv : c.Valid) (m : RegAddr) :
    decodeBus c [rdcmd c m, c.cmdNop] = some (.busRRegister m false) := by
  have hf := fun x hx => (fixed_ne_rdcmd hv (x := x) hx m).symm
  simp only [Cfg.fixedCommands, List.forall_mem_cons, List.not_mem_nil, false_implies, implies_true, and_true] at hf
  simp [decodeBus, hf, ma_rdcmd hv m]

/-- A 2-byte register read leaves the chip as it is. -/
theorem Chip.after_read_iff (hv : c.Valid) {k k' : Chip} (m : RegAddr) :
    k.after c [rdcmd c m, c.cmdNop] k' ↔ k'.Ok c ∧ k' = k := by
  simp only [Chip.after, decodeBus_read hv]
  constructor
  · exact fun h => ⟨h.1, h.2.2⟩
  · rintro ⟨h, rfl⟩
    exact ⟨h, rfl, rfl⟩

/-- A 2-byte write of a register inside the map changes that register's content and nothing else. -/
theorem Chip.after_write_iff (hv : c.Valid) {k k' : Chip} {m : RegAddr} (hm : outsideMap m = false) (v : Byte) :
    k.after c [wrcmd c m, v] k' ↔
      k'.Ok c ∧ k'.txDepth = k.txDepth ∧ (∀ m', m' ≠ m → k'.content m' = k.content m') ∧
        writtenContent c m [v] (k.content m) (k'.content m) ∧ k'.txFifo = k.txFifo ∧ k'.rxFifo = k.rxFifo := by
  simp [Chip.after, decodeBus_write hv, hm]

/-- A 2-byte write to 0x1E or 0x1F leaves any chip of the same depth (93_implementation_defined.md U1). -/
theorem Chip.after_write_outside_iff (hv : c.Valid) {k k' : Chip} {m : RegAddr} (hm : outsideMap m = true) (v : Byte) :
    k.after c [wrcmd c m, v] k' ↔ k'.Ok c ∧ k'.txDepth = k.txDepth := by
  simp [Chip.after, decodeBus_write hv, hm]

/-- The response of a 2-byte register read is unbound exactly outside the map and inside a settle window. -/
theorem unboundResponse_read (hv : c.Valid) (quiet : Bool) (m : RegAddr) :
    unboundResponse c quiet [rdcmd c m, c.cmdNop] = (outsideMap m || !quiet) := by
  simp [unboundResponse, decodeBus_read hv]

/-- The response of a 2-byte register write is unbound exactly outside the map. -/
theorem unboundResponse_write (hv : c.Valid) (quiet : Bool) (m : RegAddr) (v : Byte) :
    unboundResponse c quiet [wrcmd c m, v] = outsideMap m := by
  simp [unboundResponse, decodeBus_write hv]

/-- The contract binds a 2-byte register read to the snapshot and the content, and to no more. -/
theorem Chip.answers_read (hv : c.Valid) {k : Chip} {m : RegAddr} {s v : Byte} (hs : k.content c.regStatus = [s])
    (hm : k.content m = [v]) (quiet : Bool) : k.answers c quiet [rdcmd c m, c.cmdNop] [s, v] := by
  refine ⟨rfl, fun _ => ⟨by simp [hs], ?_, ?_, ?_⟩⟩
  · intro m' i x hb hx hi
    rw [List.head?_cons, Option.some.injEq, rdcmd_inj hv] at hb
    subst hb
    obtain rfl : i = 0 := by simpa using hi
    simpa [hm] using hx
  · intro _ _ _ hb
    exact absurd (by simpa using hb) (fixed_ne_rdcmd hv (plWid_mem c) m).symm
  · intro _ _ _ _ _ hb
    exact absurd (by simpa using hb) (fixed_ne_rdcmd hv (rxPayload_mem c) m).symm

/-- The contract binds a 2-byte register write to the snapshot alone. -/
theorem Chip.answers_write (hv : c.Valid) {k : Chip} (m : RegAddr) (v : Byte) {s : Byte}
    (hs : k.content c.regStatus = [s]) (x : Byte) (quiet : Bool) : k.answers c quiet [wrcmd c m, v] [s, x] := by
  refine ⟨rfl, fun _ => ⟨by simp [hs], ?_, ?_, ?_⟩⟩
  · intro m' _ _ hb
    exact absurd (by simpa using hb) (rdcmd_ne_wrcmd hv m' m).symm
  · intro _ _ _ hb
    exact absurd (by simpa using hb) (fixed_ne_wrcmd hv (plWid_mem c) m).symm
  · intro _ _ _ _ _ hb
    exact absurd (by simpa using hb) (fixed_ne_wrcmd hv (rxPayload_mem c) m).symm

end Sys2Proof.Machine
end

