-- ==== Sys2Proof/Laws/Runs.lean ====
section
/-! SUPPORT. What a request's body can do, said once: a sequence of port primitives and RXB writes, with the exchanges
of 20_memory.md R69 and a count of the events. Every fact about all instructions is an induction over it. -/

namespace Sys2Proof.Machine

/-- The exchanges SWX makes (20_memory.md R69); `w` limits the registers and values of its 2-byte writes. -/
inductive Emitted (c : Cfg) (w : RegAddr → Byte → Prop) : Bytes → Prop where
  | readReg (m : RegAddr) : Emitted c w (readRegBytes c m)
  | writeReg (m : RegAddr) (v : Byte) (h : w m v) : Emitted c w (writeRegBytes c m v)
  | readLong (m : RegAddr) : Emitted c w (readLongBytes c m)
  | writeLong (m : RegAddr) (d : Bytes) (h : d.length = 5) : Emitted c w (wrcmd c m :: d)
  | lengthQuery : Emitted c w (lengthQueryBytes c)
  | readPayload (n : Nat) (h : n ≤ 32) : Emitted c w (readPayloadBytes c n)
  | writePayload (d : Bytes) (h : d.length ≤ 32) : Emitted c w (writePayloadBytes c d)
  | flushTx : Emitted c w (flushTxBytes c)
  | flushRx : Emitted c w (flushRxBytes c)

/-- `s` runs to `t` by `n` port events: exchanges of `Emitted`, chip-enable events only where `ce` allows them, and
RXB writes below offset `top`. -/
inductive PortRun (c : Cfg) (w : RegAddr → Byte → Prop) (ce : Prop) (top : Nat) : Nat → State → State → Prop where
  | refl (s : State) : PortRun c w ce top 0 s s
  | exchange {n : Nat} {s t : State} {b : Bytes} (h : PortRun c w ce top n s t) (hb : Emitted c w b) :
      PortRun c w ce top (n + 1) s (t.exchange b)
  | setCE {n : Nat} {s t : State} {v : Bool} (h : PortRun c w ce top n s t) (hc : ce) :
      PortRun c w ce top (n + 1) s (t.setCE v)
  | waitFor {n : Nat} {s t : State} {d : Delay} (h : PortRun c w ce top n s t) :
      PortRun c w ce top (n + 1) s (t.waitFor d)
  | writeRxb {n : Nat} {s t : State} {v : Bytes} (h : PortRun c w ce top n s t) (hv : v.length ≤ top) :
      PortRun c w ce top n s (t.writeRxb 0 v)

/-- An event that a run may add. -/
def Allowed (c : Cfg) (w : RegAddr → Byte → Prop) (ce : Prop) : Event → Prop
  | .xchg b r => Emitted c w b ∧ r.length = b.length
  | .ce _ => ce
  | .wait _ => True

/-- The 2-byte writes of the power and framing bodies: CONFIG, and one flag to STATUS (43_framing.md R197). -/
def framerWrites (c : Cfg) (m : RegAddr) (v : Byte) : Prop :=
  m = c.regConfig ∨ (m = c.regStatus ∧ v ∈ statusFlags c)

/-- The 2-byte writes of an instruction. -/
def writesOf (c : Cfg) : Instr → RegAddr → Byte → Prop
  | .writeReg reg val, m, v => m = ma reg ∧ v = val
  | .writeAddr reg _, m, _ => m = ma reg ∧ addrClass c m = .short
  | .init _ _ _ _, m, v => framerWrites c m v ∨
      m ∈ [c.regRfSetup, c.regDynpd, c.regFeature, c.regRfCh, c.regSetupRetr] ∨
        (m = rxPipeReg c ∧ addrClass c m ≠ .long)
  | .busWRegister m' _, m, _ => m = m'
  | .readReg _, m, v => framerWrites c m v
  | .readAddr _, m, v => framerWrites c m v
  | .addrEncode _ _, m, v => framerWrites c m v
  | .addrDecode _ _, m, v => framerWrites c m v
  | .addrParse _ _, m, v => framerWrites c m v
  | .powerUp, m, v => framerWrites c m v
  | .powerDown, m, v => framerWrites c m v
  | .startRadio, m, v => framerWrites c m v
  | .stopRadio, m, v => framerWrites c m v
  | .startRx, m, v => framerWrites c m v
  | .stopRx, m, v => framerWrites c m v
  | .rxReady, m, v => framerWrites c m v
  | .rxDyn, m, v => framerWrites c m v
  | .rxFixed, m, v => framerWrites c m v
  | .tx _ _, m, v => framerWrites c m v
  | .flushTx, m, v => framerWrites c m v
  | .flushRx, m, v => framerWrites c m v
  | .rxLoop _, m, v => framerWrites c m v
  | .shutdown, m, v => framerWrites c m v
  | .wait _, m, v => framerWrites c m v
  | .reserved _ _, m, v => framerWrites c m v
  | .busRRegister _ _, m, v => framerWrites c m v
  | .busRRxPlWid, m, v => framerWrites c m v
  | .busRRxPayload _, m, v => framerWrites c m v
  | .busWTxPayload _, m, v => framerWrites c m v
  | .busFlushTx, m, v => framerWrites c m v
  | .busFlushRx, m, v => framerWrites c m v
  | .busNop, m, v => framerWrites c m v

/-- The instructions that drive the chip-enable line (10_state.md R31). -/
def drivesCe : Instr → Prop
  | .powerUp => True
  | .powerDown => True
  | .startRx => True
  | .stopRx => True
  | .tx _ _ => True
  | .rxLoop _ => True
  | .readReg _ => False
  | .writeReg _ _ => False
  | .readAddr _ => False
  | .writeAddr _ _ => False
  | .addrEncode _ _ => False
  | .addrDecode _ _ => False
  | .addrParse _ _ => False
  | .startRadio => False
  | .stopRadio => False
  | .rxReady => False
  | .rxDyn => False
  | .rxFixed => False
  | .flushTx => False
  | .flushRx => False
  | .init _ _ _ _ => False
  | .shutdown => False
  | .wait _ => False
  | .reserved _ _ => False
  | .busRRegister _ _ => False
  | .busWRegister _ _ => False
  | .busRRxPlWid => False
  | .busRRxPayload _ => False
  | .busWTxPayload _ => False
  | .busFlushTx => False
  | .busFlushRx => False
  | .busNop => False

/-- The bytes of RXB an instruction may write (70_reset_and_hazards.md R276). -/
def rxbReach (c : Cfg) : Instr → Nat
  | .rxDyn => 33
  | .rxLoop _ => 33
  | .rxFixed => c.fixedLen.val
  | .readReg _ => 0
  | .writeReg _ _ => 0
  | .readAddr _ => 0
  | .writeAddr _ _ => 0
  | .addrEncode _ _ => 0
  | .addrDecode _ _ => 0
  | .addrParse _ _ => 0
  | .powerUp => 0
  | .powerDown => 0
  | .startRadio => 0
  | .stopRadio => 0
  | .startRx => 0
  | .stopRx => 0
  | .rxReady => 0
  | .tx _ _ => 0
  | .flushTx => 0
  | .flushRx => 0
  | .init _ _ _ _ => 0
  | .shutdown => 0
  | .wait _ => 0
  | .reserved _ _ => 0
  | .busRRegister _ _ => 0
  | .busWRegister _ _ => 0
  | .busRRxPlWid => 0
  | .busRRxPayload _ => 0
  | .busWTxPayload _ => 0
  | .busFlushTx => 0
  | .busFlushRx => 0
  | .busNop => 0

namespace PortRun

variable {c : Cfg} {w : RegAddr → Byte → Prop} {ce : Prop} {top n k : Nat} {s t u : State}

theorem trans (h : PortRun c w ce top n s t) (h' : PortRun c w ce top k t u) : PortRun c w ce top (n + k) s u := by
  induction h' with
  | refl => exact h
  | exchange _ hb ih => exact (ih h).exchange hb
  | setCE _ hc ih => exact (ih h).setCE hc
  | waitFor _ ih => exact (ih h).waitFor
  | writeRxb _ hv ih => exact (ih h).writeRxb hv

theorem mono {w' : RegAddr → Byte → Prop} {ce' : Prop} {top' : Nat} (h : PortRun c w ce top n s t)
    (hw : ∀ m v, w m v → w' m v) (hc : ce → ce') (ht : top ≤ top') : PortRun c w' ce' top' n s t := by
  have he : ∀ b, Emitted c w b → Emitted c w' b := fun b hb => by
    cases hb with
    | readReg m => exact .readReg m
    | writeReg m v h => exact .writeReg m v (hw m v h)
    | readLong m => exact .readLong m
    | writeLong m d h => exact .writeLong m d h
    | lengthQuery => exact .lengthQuery
    | readPayload n h => exact .readPayload n h
    | writePayload d h => exact .writePayload d h
    | flushTx => exact .flushTx
    | flushRx => exact .flushRx
  induction h with
  | refl => exact .refl _
  | exchange _ hb ih => exact ih.exchange (he _ hb)
  | setCE _ h ih => exact ih.setCE (hc h)
  | waitFor _ ih => exact ih.waitFor
  | writeRxb _ hv ih => exact ih.writeRxb (hv.trans ht)

/-- What no body touches. -/
theorem frame (h : PortRun c w ce top n s t) :
    t.cfg = s.cfg ∧ t.stream = s.stream ∧ t.busq = s.busq ∧ t.isOpen = s.isOpen ∧ t.fault = s.fault ∧
      t.pc = s.pc ∧ t.results = s.results := by
  induction h <;> simp_all

theorem cfg_eq (h : PortRun c w ce top n s t) : t.cfg = s.cfg := h.frame.1

/-- The events a body adds: as many as its count, each of them allowed, with `ce` and the shadow as they say. -/
theorem events (h : PortRun c w ce top n s t) :
    ∃ evs, t.hist = s.hist ++ evs ∧ evs.length = n ∧ (∀ e ∈ evs, Allowed c w ce e) ∧
      t.ce = ((evs.filterMap ceLevel).getLast?).getD s.ce ∧
      t.cfgsh = ((evs.filterMap (configWrite s.cfg)).getLast?).or s.cfgsh := by
  induction h with
  | refl => exact ⟨[], by simp⟩
  | @exchange n s t b h hb ih =>
    obtain ⟨evs, h1, h2, ha, h3, h4⟩ := ih
    refine ⟨evs ++ [.xchg b (t.response b)], by simp [h1], by simp [h2], ?_, by simp [h3, ceLevel], ?_⟩
    · exact List.forall_mem_append.2 ⟨ha, List.forall_mem_singleton.2 ⟨hb, t.response_length b⟩⟩
    · simp only [State.exchange_cfgsh, shadowAfter_configWrite _ _ b (t.response b), List.filterMap_append,
        List.filterMap_cons, List.filterMap_nil, h4, h.cfg_eq]
      cases configWrite s.cfg (.xchg b (t.response b)) <;> simp
  | @setCE n s t v _ hc ih =>
    obtain ⟨evs, h1, h2, ha, h3, h4⟩ := ih
    exact ⟨evs ++ [.ce v], by simp [h1], by simp [h2],
      List.forall_mem_append.2 ⟨ha, List.forall_mem_singleton.2 (by exact hc)⟩, by simp [ceLevel], by simp [h4, configWrite]⟩
  | @waitFor n s t d _ ih =>
    obtain ⟨evs, h1, h2, ha, h3, h4⟩ := ih
    exact ⟨evs ++ [.wait d], by simp [h1], by simp [h2],
      List.forall_mem_append.2 ⟨ha, List.forall_mem_singleton.2 (by trivial)⟩, by simp [h3, ceLevel],
      by simp [h4, configWrite]⟩
  | writeRxb _ _ ih => exact ih

/-- Where no chip-enable event is allowed, none is added. -/
theorem ce_frame (h : PortRun c w False top n s t) : t.ce = s.ce ∧ ∀ v, t.hist.count (.ce v) = s.hist.count (.ce v) := by
  induction h with
  | refl => simp
  | exchange _ _ ih => exact ⟨ih.1, fun v => by simp [List.count_append, ih.2]⟩
  | setCE _ h => exact h.elim
  | waitFor _ ih => exact ⟨ih.1, fun v => by simp [List.count_append, ih.2]⟩
  | writeRxb _ _ ih => exact ih

/-- RXB is unchanged from offset `top` on. -/
theorem rxb_frame (h : PortRun c w ce top n s t) {a : Nat} (ha : top ≤ a) :
    Memory.read t.rxb a = Memory.read s.rxb a := by
  induction h with
  | refl => rfl
  | exchange _ _ ih => exact ih
  | setCE _ _ ih => exact ih
  | waitFor _ ih => exact ih
  | writeRxb _ hv ih =>
    rw [State.writeRxb_rxb, Memory.read_writeBytes_other _ _ _ _ (.inr (by omega)), ih]

theorem rxb_wf (h : PortRun c w ce top n s t) (hs : Memory.wf s.rxb) : Memory.wf t.rxb := by
  induction h with
  | refl => exact hs
  | exchange _ _ ih => exact ih hs
  | setCE _ _ ih => exact ih hs
  | waitFor _ ih => exact ih hs
  | writeRxb _ _ ih => exact Memory.writeBytes_wf (ih hs) _ _

theorem rxb_within (h : PortRun c w ce top n s t) {cap : Nat} (hs : Memory.within s.rxb cap) (ht : top ≤ cap) :
    Memory.within t.rxb cap := by
  induction h with
  | refl => exact hs
  | exchange _ _ ih => exact ih hs
  | setCE _ _ ih => exact ih hs
  | waitFor _ ih => exact ih hs
  | writeRxb _ hv ih => exact Memory.writeBytes_within (ih hs) _ _ (by omega)

end PortRun

/-! ### The bodies -/

section
variable {c : Cfg} {w : RegAddr → Byte → Prop} {ce : Prop} {top : Nat}

/-- The framing bodies write single flags to STATUS (43_framing.md R197). -/
def flagsAllowed (c : Cfg) (w : RegAddr → Byte → Prop) : Prop := ∀ v ∈ statusFlags c, w c.regStatus v

theorem flagsAllowed.rxDr (h : flagsAllowed c w) : w c.regStatus c.stRxDr := h _ (by simp [statusFlags])
theorem flagsAllowed.txDs (h : flagsAllowed c w) : w c.regStatus c.stTxDs := h _ (by simp [statusFlags])
theorem flagsAllowed.maxRt (h : flagsAllowed c w) : w c.regStatus c.stMaxRt := h _ (by simp [statusFlags])

/-- One exchange. -/
theorem exchange_run (s : State) {b : Bytes} (hb : Emitted c w b) :
    PortRun c w ce top 1 s (s.exchange b) := (PortRun.refl s).exchange hb

theorem readRegBody_run (m : RegAddr) (s : State) (hc : s.cfg = c) : PortRun c w ce top 1 s (readRegBody m s) := by
  subst hc; exact exchange_run s (.readReg m)

theorem writeRegBody_run (m : RegAddr) (v : Byte) (s : State) (hc : s.cfg = c) (h : w m v) :
    PortRun c w ce top 1 s (writeRegBody m v s) := by
  subst hc; exact exchange_run s (.writeReg m v h)

theorem powerUpBody_run (s : State) : PortRun c w True top 2 s (powerUpBody s) :=
  ((PortRun.refl s).setCE trivial).waitFor

theorem powerDownBody_run (s : State) : PortRun c w True top 2 s (powerDownBody s) :=
  ((PortRun.refl s).setCE trivial).waitFor

theorem setCfgBody_run (mask : Byte) (s : State) (hc : s.cfg = c) (h : ∀ v, w c.regConfig v) :
    PortRun c w ce top 2 s (setCfgBody mask s) := by
  subst hc
  exact (readRegBody_run _ s rfl).trans (writeRegBody_run _ _ (readRegBody _ s) rfl (h _))

theorem clrCfgBody_run (mask : Byte) (s : State) (hc : s.cfg = c) (h : ∀ v, w c.regConfig v) :
    PortRun c w ce top 2 s (clrCfgBody mask s) := by
  subst hc
  exact (readRegBody_run _ s rfl).trans (writeRegBody_run _ _ (readRegBody _ s) rfl (h _))

theorem startRadioBody_run (s : State) (hc : s.cfg = c) (h : ∀ v, w c.regConfig v) :
    PortRun c w ce top 3 s (startRadioBody s) := (setCfgBody_run _ s hc h).waitFor

theorem stopRadioBody_run (s : State) (hc : s.cfg = c) (h : ∀ v, w c.regConfig v) :
    PortRun c w ce top 3 s (stopRadioBody s) := (clrCfgBody_run _ s hc h).waitFor

theorem startRxBody_run (s : State) (hc : s.cfg = c) (h : ∀ v, w c.regConfig v) :
    PortRun c w True top 5 s (startRxBody s) :=
  ((powerUpBody_run s).trans (setCfgBody_run s.cfg.cfgPrimRx (powerUpBody s) hc h)).waitFor

theorem stopRxBody_run (s : State) (hc : s.cfg = c) (h : ∀ v, w c.regConfig v) :
    PortRun c w True top 5 s (stopRxBody s) :=
  ((powerDownBody_run s).trans (clrCfgBody_run s.cfg.cfgPrimRx (powerDownBody s) hc h)).waitFor

theorem clearFlag_run (f : Byte) (s : State) (hc : s.cfg = c) (h : w c.regStatus f) :
    PortRun c w ce top 1 s (clearFlag f s) := by
  subst hc; exact writeRegBody_run _ _ s rfl h

theorem rxDynPayload_run (n : Byte) (s : State) (hc : s.cfg = c) (hn : n.toNat ≤ 32) (h : flagsAllowed c w) :
    PortRun c w ce 33 2 s (rxDynPayload n s) := by
  subst hc
  have h1 : PortRun s.cfg w ce 33 1 s (s.exchange (readPayloadBytes s.cfg n.toNat)) :=
    exchange_run s (.readPayload _ hn)
  have h2 := h1.writeRxb (v := (s.response (readPayloadBytes s.cfg n.toNat)).drop 1 ++ [0x00])
    (by simp [readPayloadBytes, rep]; omega)
  exact h2.trans (clearFlag_run _ _ rfl h.rxDr)

/-- RX_DYN (43_framing.md R192): at most 4 events, at most 33 bytes of RXB, a length of at most 32. -/
theorem rxDynBody_run (s : State) (hc : s.cfg = c) (h : flagsAllowed c w) :
    (rxDynBody s).1.toNat ≤ 32 ∧ ∃ n ≤ 4, PortRun c w ce 33 n s (rxDynBody s).2 := by
  subst hc
  have h1 : PortRun s.cfg w ce 33 1 s (rxReadyBody s) := readRegBody_run _ s rfl
  unfold rxDynBody
  dsimp only
  split
  · have h2 : PortRun s.cfg w ce 33 2 s ((rxReadyBody s).exchange (lengthQueryBytes s.cfg)) := h1.exchange .lengthQuery
    split
    · exact ⟨by simp, 3, by omega, h2.exchange .flushRx⟩
    · rename_i hn
      have hn' := Nat.le_of_not_lt hn
      exact ⟨hn', 4, le_refl _, h2.trans (rxDynPayload_run _ _ rfl hn' h)⟩
  · exact ⟨by simp, 1, by omega, h1⟩

/-- RX_FIXED (43_framing.md R193): at most 3 events, `FIXED_LEN` bytes of RXB. -/
theorem rxFixedBody_run (s : State) (hc : s.cfg = c) (h : flagsAllowed c w) :
    ∃ n ≤ 3, PortRun c w ce c.fixedLen.val n s (rxFixedBody s).2 := by
  subst hc
  have h1 : PortRun s.cfg w ce s.cfg.fixedLen.val 1 s (rxReadyBody s) := readRegBody_run _ s rfl
  unfold rxFixedBody
  dsimp only
  split
  · have h2 := (h1.exchange (.readPayload s.cfg.fixedLen.val (by omega))).writeRxb
      (v := ((rxReadyBody s).response (readPayloadBytes s.cfg s.cfg.fixedLen.val)).drop 1)
      (by simp [readPayloadBytes, rep])
    unfold rxFixedPayload
    dsimp only
    split
    · exact ⟨3, le_refl _, h2.trans (clearFlag_run _ _ rfl h.rxDr)⟩
    · exact ⟨2, by omega, h2⟩
  · exact ⟨1, by omega, h1⟩

/-- The poll loop (43_framing.md R194): at most `2n + 3` events. -/
theorem txPoll_run (n : Nat) (s : State) (hc : s.cfg = c) (h : flagsAllowed c w) :
    ∃ k ≤ 2 * n + 3, PortRun c w True top k s (txPoll n s).2 := by
  induction n generalizing s with
  | zero => subst hc; exact ⟨3, le_refl _, (powerDownBody_run s).exchange .flushTx⟩
  | succ n ih =>
    have h1 : PortRun c w True top 1 s (readRegBody s.cfg.regStatus s) := readRegBody_run _ s hc
    unfold txPoll
    dsimp only
    split
    · exact ⟨4, by omega, (h1.trans (clearFlag_run s.cfg.stTxDs _ hc (hc ▸ h.txDs))).trans (powerDownBody_run _)⟩
    · split
      · have h2 := h1.trans (clearFlag_run s.cfg.stMaxRt _ hc (hc ▸ h.maxRt))
        have h3 := h2.exchange (b := flushTxBytes s.cfg) (hc ▸ .flushTx)
        exact ⟨5, by omega, h3.trans (powerDownBody_run _)⟩
      · obtain ⟨k, hk, hr⟩ := ih ((readRegBody s.cfg.regStatus s).waitFor .tTxPoll) hc
        exact ⟨2 + k, by omega, h1.waitFor.trans hr⟩

/-- TX (43_framing.md R194, 70_reset_and_hazards.md R277): at most `2*TX_POLL_CAP + 7` events. -/
theorem txBody_run (payload : Bytes) (s : State) (hc : s.cfg = c) (hp : payload.length ≤ 32) (h : flagsAllowed c w) :
    ∃ k ≤ 2 * c.txPollCap + 7, PortRun c w True top k s (txBody payload s).2 := by
  subst hc
  have h1 : PortRun s.cfg w True top 4 s (txLoad payload s) :=
    (((PortRun.refl s).exchange .flushTx).exchange (.writePayload payload hp)).trans (powerUpBody_run _)
  obtain ⟨k, hk, hr⟩ := txPoll_run s.cfg.txPollCap (txLoad payload s) rfl h
  exact ⟨4 + k, by omega, h1.trans hr⟩

/-- The receive loop (44_host_ops.md R221): at most `5n` events. -/
theorem rxLoopIter_run (n : Nat) (ps : List Bytes) (s : State) (hc : s.cfg = c) (h : flagsAllowed c w) :
    ∃ k ≤ 5 * n, PortRun c w ce 33 k s (rxLoopIter n ps s).2 := by
  induction n generalizing ps s with
  | zero => exact ⟨0, le_refl _, .refl s⟩
  | succ n ih =>
    obtain ⟨-, k1, hk1, hr1⟩ := rxDynBody_run (ce := ce) s hc h
    obtain ⟨k2, hk2, hr2⟩ := ih
      (if 0 < (rxDynBody s).1.toNat then
        ps ++ [Memory.readBytes (rxDynBody s).2.rxb 0 (rxDynBody s).1.toNat] else ps)
      ((rxDynBody s).2.waitFor .tRxPoll) (hr1.cfg_eq.trans hc)
    exact ⟨k1 + 1 + k2, by omega, hr1.waitFor.trans hr2⟩

/-- RX_LOOP (44_host_ops.md R221, 70_reset_and_hazards.md R277): at most `10 + 5*cnt` events. -/
theorem rxLoopBody_run (cnt : Nat) (s : State) (hc : s.cfg = c) (h : flagsAllowed c w) (hw : ∀ v, w c.regConfig v) :
    ∃ k ≤ 10 + 5 * cnt, PortRun c w True 33 k s (rxLoopBody cnt s).2 := by
  have h1 : PortRun c w True 33 5 s (startRxBody s) := startRxBody_run s hc hw
  obtain ⟨k, hk, hr⟩ := rxLoopIter_run (ce := True) cnt [] (startRxBody s) (h1.cfg_eq.trans hc) h
  have h2 := h1.trans hr
  have h3 := stopRxBody_run (top := 33) (rxLoopIter cnt [] (startRxBody s)).2 (h2.cfg_eq.trans hc) hw
  exact ⟨5 + k + 5, by omega, h2.trans h3⟩

/-- WRITE_ADDR's body (40_register_access.md R130). -/
theorem writeAddrBody_run (m : RegAddr) (v : Addr) (s : State) (hc : s.cfg = c)
    (h : addrClass c m ≠ .long → ∀ x, w m x) : PortRun c w ce top 1 s (writeAddrBody m v s) := by
  subst hc
  unfold writeAddrBody
  split
  · exact exchange_run s (.writeLong m _ rfl)
  · exact writeRegBody_run _ _ s rfl (h ‹_› _)

/-- INIT's writes (44_host_ops.md R220) as a chain of exchanges after the two addresses. -/
theorem initWrites_eq (txa rxa : Addr) (ch rt : Byte) (s : State) :
    initWrites txa rxa ch rt s =
      ((((((writeAddrBody (rxPipeReg s.cfg) rxa (writeLongBody s.cfg.regTxAddr txa s)).exchange
        (writeRegBytes s.cfg s.cfg.regRfSetup s.cfg.initRfSetup)).exchange
        (writeRegBytes s.cfg s.cfg.regDynpd s.cfg.initDynpd)).exchange
        (writeRegBytes s.cfg s.cfg.regFeature s.cfg.initFeature)).exchange
        (writeRegBytes s.cfg s.cfg.regRfCh ch)).exchange
        (writeRegBytes s.cfg s.cfg.regConfig s.cfg.initConfig)).exchange
        (writeRegBytes s.cfg s.cfg.regSetupRetr rt) := by
  have h : (writeAddrBody (rxPipeReg s.cfg) rxa (writeLongBody s.cfg.regTxAddr txa s)).cfg = s.cfg := by
    unfold writeAddrBody; split <;> rfl
  simp only [initWrites, writeRegBody, State.exchange_cfg, h]

/-- INIT's body (44_host_ops.md R220): 12 events. -/
theorem initBody_run (txa rxa : Addr) (ch rt : Byte) (s : State) (hc : s.cfg = c)
    (h : ∀ m ∈ [c.regConfig, c.regRfSetup, c.regDynpd, c.regFeature, c.regRfCh, c.regSetupRetr], ∀ v, w m v)
    (hp : addrClass c (rxPipeReg c) ≠ .long → ∀ v, w (rxPipeReg c) v) :
    PortRun c w ce top 12 s (initBody txa rxa ch rt s) := by
  subst hc
  simp only [List.forall_mem_cons, List.not_mem_nil, false_implies, implies_true, and_true] at h
  obtain ⟨h0, h1, h2, h3, h4, h5⟩ := h
  have r1 : PortRun s.cfg w ce top 1 s (writeLongBody s.cfg.regTxAddr txa s) := exchange_run s (.writeLong _ _ rfl)
  have r2 := r1.trans (writeAddrBody_run (rxPipeReg s.cfg) rxa (writeLongBody s.cfg.regTxAddr txa s) rfl hp)
  have r8 := (((((r2.exchange (.writeReg s.cfg.regRfSetup s.cfg.initRfSetup (h1 _))).exchange
    (.writeReg s.cfg.regDynpd s.cfg.initDynpd (h2 _))).exchange
    (.writeReg s.cfg.regFeature s.cfg.initFeature (h3 _))).exchange
    (.writeReg s.cfg.regRfCh ch (h4 _))).exchange
    (.writeReg s.cfg.regConfig s.cfg.initConfig (h0 _))).exchange
    (.writeReg s.cfg.regSetupRetr rt (h5 _))
  rw [← initWrites_eq] at r8
  exact (r8.trans (startRadioBody_run (initWrites txa rxa ch rt s) r8.cfg_eq h0)).exchange .flushRx

end

/-- What the framing bodies write is allowed to the instructions that run them. -/
theorem framer_flags (c : Cfg) : flagsAllowed c (framerWrites c) := fun _ hv => .inr ⟨rfl, hv⟩

theorem framer_config (c : Cfg) (v : Byte) : framerWrites c c.regConfig v := .inl rfl

/-! ### What an instruction can do -/

/-- How a request that is not refused ends: its body ran by `PortRun`, and it completed with its row's fields;
SHUTDOWN closes the bus. -/
def Completes (i : Instr) (s t : State) : Prop :=
  ∃ (n : Nat) (u : State) (r : Result), n ≤ eventBound s.cfg i ∧ r.done = true ∧ r.fields = rowFields i ∧
    PortRun s.cfg (writesOf s.cfg i) (drivesCe i) (rxbReach s.cfg i) n s u ∧ rxbReach s.cfg i ≤ s.cfg.rxbufCap ∧
    t = { u with isOpen := u.isOpen && decide (i ≠ Instr.shutdown), pc := u.pc + 1, results := u.results ++ [r] }

theorem completes_of_run {i : Instr} {s u : State} {n : Nat} {r : Result} (hi : i ≠ .shutdown)
    (hn : n ≤ eventBound s.cfg i) (hd : r.done = true) (hf : r.fields = rowFields i)
    (hr : PortRun s.cfg (writesOf s.cfg i) (drivesCe i) (rxbReach s.cfg i) n s u)
    (ht : rxbReach s.cfg i ≤ s.cfg.rxbufCap) : Completes i s (u.complete r) :=
  ⟨n, u, r, hn, hd, hf, hr, ht, by simp [State.complete, hi]⟩

/-- The ways an instruction ends: a fault of its operand check (60_exceptions.md R241), F_BUS_CLOSED on a closed bus
(40_register_access.md R124), F_ILLEGAL_REQ of a reserved op (30_encoding.md R94), completion, or the one exchange of
a bus command. -/
inductive Ends (i : Instr) (s : State) : State → Prop where
  | operand (f : FaultRecord) (h : operandFault s.cfg i = some f) : Ends i s (s.faulted f.kind f.info)
  | closed (n : Nat) (hs : s.isOpen = false) (hn : ∀ op, busOp i = some op → n = op.toNat)
      (hb : busOp i ≠ none ∨ i.port = .bus) (hf : operandFault s.cfg i = none) : Ends i s (s.faulted .busClosed n)
  | reserved (op : Byte) (rest : Bytes) (h : i = .reserved op rest) : Ends i s (s.faulted .illegalReq op.toNat)
  | completes (t : State) (hp : i.port = .request) (ho : busOp i ≠ none → s.isOpen = true)
      (hf : operandFault s.cfg i = none) (h : Completes i s t) : Ends i s t
  | exchange (b : Bytes) (hp : i.port = .bus) (hn : i ≠ .busNop) (hs : s.isOpen = true)
      (he : i.wf = true → Emitted s.cfg (writesOf s.cfg i) b) : Ends i s (s.exchange b)
  | nothing (h : i = .busNop) : Ends i s s

/-- A request on the bus runs its body or raises F_BUS_CLOSED. -/
theorem ends_onBus {i : Instr} {s : State} {op : Byte} {body : State → State} (hp : i.port = .request)
    (hb : busOp i = some op) (hf : operandFault s.cfg i = none) (hc : Completes i s (body s)) :
    Ends i s (s.onBus op body) := by
  cases h : s.isOpen with
  | true => rw [State.onBus_open h]; exact .completes _ hp (fun _ => h) hf hc
  | false =>
    rw [State.onBus_closed h]
    exact .closed _ h (fun op' h' => by rw [hb] at h'; cases h'; rfl) (.inl (by simp [hb])) hf

/-- A bus command makes its exchange or raises F_BUS_CLOSED. -/
theorem ends_busCommand {i : Instr} {s : State} {b : Bytes} (hp : i.port = .bus) (hn : i ≠ .busNop) (hb : busOp i = none)
    (hf : operandFault s.cfg i = none) (he : i.wf = true → Emitted s.cfg (writesOf s.cfg i) b) :
    Ends i s (s.busCommand b) := by
  unfold State.busCommand
  cases h : s.isOpen with
  | true => rw [State.onBus_open h]; exact .exchange b hp hn h he
  | false =>
    rw [State.onBus_closed h]
    exact .closed _ h (fun op' h' => by simp [hb] at h') (.inr hp) hf


end Sys2Proof.Machine
end

