-- ==== Sys2Proof/Laws/Exec.lean ====
section
/-! SUPPORT. What an instruction can do, said once: every arm of exec ends in one of the ways of `Ends`. -/

namespace Sys2Proof.Machine

theorem readReg_ends (reg : Byte) (s : State) : ∃ t, exec (.readReg reg) s = .next t ∧ Ends (.readReg reg) s t :=
  ⟨_, rfl, ends_onBus rfl rfl rfl (completes_of_run (n := 1) (by simp) (by simp [eventBound]) rfl rfl
    (readRegBody_run _ s rfl) (Nat.zero_le _))⟩

theorem writeReg_ends (reg val : Byte) (s : State) :
    ∃ t, exec (.writeReg reg val) s = .next t ∧ Ends (.writeReg reg val) s t :=
  ⟨_, rfl, ends_onBus rfl rfl rfl (completes_of_run (n := 1) (by simp) (by simp [eventBound]) rfl rfl
    (writeRegBody_run _ _ s rfl ⟨rfl, rfl⟩) (Nat.zero_le _))⟩

theorem readAddr_ends (reg : Byte) (s : State) : ∃ t, exec (.readAddr reg) s = .next t ∧ Ends (.readAddr reg) s t := by
  refine ⟨_, rfl, ?_⟩
  cases h : addrClass s.cfg (ma reg) with
  | none => exact .operand ⟨.addrReg, reg.toNat⟩ (by simp [operandFault, h])
  | long =>
    exact ends_onBus rfl rfl (by simp [operandFault, h]) (completes_of_run (n := 1) (by simp) (by simp [eventBound])
      rfl rfl (exchange_run s (.readLong _)) (Nat.zero_le _))
  | short =>
    exact ends_onBus rfl rfl (by simp [operandFault, h]) (completes_of_run (n := 2) (by simp) (by simp [eventBound])
      rfl rfl ((exchange_run s (.readLong _)).trans (readRegBody_run _ (readLongBody s.cfg.regRxAddrP1 s) rfl))
      (Nat.zero_le _))

theorem writeAddr_ends (reg : Byte) (v : Addr) (s : State) :
    ∃ t, exec (.writeAddr reg v) s = .next t ∧ Ends (.writeAddr reg v) s t := by
  refine ⟨_, rfl, ?_⟩
  by_cases h : addrClass s.cfg (ma reg) = .none
  · rw [if_pos h]
    exact .operand ⟨.addrReg, reg.toNat⟩ (by simp [operandFault, h])
  · rw [if_neg h]
    exact ends_onBus rfl rfl (by simp [operandFault, h]) (completes_of_run (n := 1) (by simp) (by simp [eventBound])
      rfl rfl (writeAddrBody_run _ _ s rfl fun hl _ => ⟨rfl, by
        cases h' : addrClass s.cfg (ma reg) <;> simp_all⟩) (Nat.zero_le _))

/-- The two width checks agree (60_exceptions.md R240). -/
theorem widthValid_iff (n : Byte) : widthValid n = true ↔ ¬(n.toNat < 1 ∨ 5 < n.toNat) := by
  simp only [widthValid, decide_eq_true_eq]; omega

theorem addrEncode_ends (n : Byte) (v : Addr) (s : State) :
    ∃ t, exec (.addrEncode n v) s = .next t ∧ Ends (.addrEncode n v) s t := by
  refine ⟨_, rfl, ?_⟩
  by_cases h : widthValid n = true
  · rw [if_pos h]
    exact .completes _ rfl (by simp [busOp]) (by simp only [operandFault, if_neg ((widthValid_iff n).1 h)])
      (completes_of_run (n := 0) (by simp) (Nat.zero_le _) rfl rfl (.refl s) (Nat.zero_le _))
  · rw [if_neg h]
    exact .operand ⟨.width, n.toNat⟩ (by
      rw [widthValid_iff, not_not] at h; simp only [operandFault, if_pos h])

theorem addrDecode_ends (n : Byte) (b : Bytes) (s : State) :
    ∃ t, exec (.addrDecode n b) s = .next t ∧ Ends (.addrDecode n b) s t := by
  refine ⟨_, rfl, ?_⟩
  by_cases h : widthValid n = true
  · rw [if_pos h]
    exact .completes _ rfl (by simp [busOp]) (by simp only [operandFault, if_neg ((widthValid_iff n).1 h)])
      (completes_of_run (n := 0) (by simp) (Nat.zero_le _) rfl rfl (.refl s) (Nat.zero_le _))
  · rw [if_neg h]
    exact .operand ⟨.width, n.toNat⟩ (by
      rw [widthValid_iff, not_not] at h; simp only [operandFault, if_pos h])

theorem addrParse_ends (k : Byte) (b : Bytes) (s : State) :
    ∃ t, exec (.addrParse k b) s = .next t ∧ Ends (.addrParse k b) s t := by
  refine ⟨_, rfl, .completes _ rfl (by simp [busOp]) rfl (completes_of_run (n := 0) (by simp) (Nat.zero_le _) ?_ ?_
    (.refl s) (Nat.zero_le _))⟩ <;> cases parseAddress k.toNat b <;> rfl

theorem powerUp_ends (s : State) : ∃ t, exec .powerUp s = .next t ∧ Ends .powerUp s t :=
  ⟨_, rfl, ends_onBus rfl rfl rfl (completes_of_run (n := 2) (by simp) (by simp [eventBound]) rfl rfl
    (powerUpBody_run s) (Nat.zero_le _))⟩

theorem powerDown_ends (s : State) : ∃ t, exec .powerDown s = .next t ∧ Ends .powerDown s t :=
  ⟨_, rfl, ends_onBus rfl rfl rfl (completes_of_run (n := 2) (by simp) (by simp [eventBound]) rfl rfl
    (powerDownBody_run s) (Nat.zero_le _))⟩

theorem startRadio_ends (s : State) : ∃ t, exec .startRadio s = .next t ∧ Ends .startRadio s t :=
  ⟨_, rfl, ends_onBus rfl rfl rfl (completes_of_run (n := 3) (by simp) (by simp [eventBound]) rfl rfl
    (startRadioBody_run s rfl (framer_config _)) (Nat.zero_le _))⟩

theorem stopRadio_ends (s : State) : ∃ t, exec .stopRadio s = .next t ∧ Ends .stopRadio s t :=
  ⟨_, rfl, ends_onBus rfl rfl rfl (completes_of_run (n := 3) (by simp) (by simp [eventBound]) rfl rfl
    (stopRadioBody_run s rfl (framer_config _)) (Nat.zero_le _))⟩

theorem startRx_ends (s : State) : ∃ t, exec .startRx s = .next t ∧ Ends .startRx s t :=
  ⟨_, rfl, ends_onBus rfl rfl rfl (completes_of_run (n := 5) (by simp) (by simp [eventBound]) rfl rfl
    (startRxBody_run s rfl (framer_config _)) (Nat.zero_le _))⟩

theorem stopRx_ends (s : State) : ∃ t, exec .stopRx s = .next t ∧ Ends .stopRx s t :=
  ⟨_, rfl, ends_onBus rfl rfl rfl (completes_of_run (n := 5) (by simp) (by simp [eventBound]) rfl rfl
    (stopRxBody_run s rfl (framer_config _)) (Nat.zero_le _))⟩

theorem rxReady_ends (s : State) : ∃ t, exec .rxReady s = .next t ∧ Ends .rxReady s t :=
  ⟨_, rfl, ends_onBus rfl rfl rfl (completes_of_run (n := 1) (by simp) (by simp [eventBound]) rfl rfl
    (readRegBody_run _ s rfl) (Nat.zero_le _))⟩

theorem rxDyn_ends (s : State) : ∃ t, exec .rxDyn s = .next t ∧ Ends .rxDyn s t := by
  refine ⟨_, rfl, ?_⟩
  by_cases h : s.cfg.rxbufCap < 33
  · rw [if_pos h]; exact .operand ⟨.rxbuf, 33⟩ (by simp [operandFault, h])
  · rw [if_neg h]
    obtain ⟨-, n, hn, hr⟩ := rxDynBody_run (ce := False) s rfl (framer_flags s.cfg)
    exact ends_onBus rfl rfl (by simp [operandFault, h]) (completes_of_run (n := n) (by simp)
      (by simp only [eventBound]; omega) rfl rfl hr (Nat.le_of_not_lt h))

theorem rxFixed_ends (s : State) : ∃ t, exec .rxFixed s = .next t ∧ Ends .rxFixed s t := by
  refine ⟨_, rfl, ?_⟩
  by_cases h : s.cfg.rxbufCap < s.cfg.fixedLen.val
  · rw [if_pos h]; exact .operand ⟨.rxbuf, s.cfg.fixedLen.val⟩ (by simp [operandFault, h])
  · rw [if_neg h]
    obtain ⟨n, hn, hr⟩ := rxFixedBody_run (ce := False) s rfl (framer_flags s.cfg)
    exact ends_onBus rfl rfl (by simp [operandFault, h]) (completes_of_run (n := n) (by simp)
      (by simp only [eventBound]; omega) rfl rfl hr (Nat.le_of_not_lt h))

theorem tx_ends (len : Byte) (txb : Bytes) (s : State) : ∃ t, exec (.tx len txb) s = .next t ∧ Ends (.tx len txb) s t := by
  refine ⟨_, rfl, ?_⟩
  by_cases h : 32 < len.toNat
  · rw [if_pos h]; exact .operand ⟨.payloadLen, len.toNat⟩ (by simp [operandFault, h])
  · rw [if_neg h]
    obtain ⟨n, hn, hr⟩ := txBody_run (top := 0) (readTxb txb len.toNat) s rfl
      (by simp only [readTxb, List.length_take]; omega) (framer_flags s.cfg)
    exact ends_onBus rfl rfl (by simp [operandFault, h]) (completes_of_run (n := n) (by simp)
      (by simp only [eventBound]; omega) rfl rfl hr (Nat.zero_le _))

theorem flushTx_ends (s : State) : ∃ t, exec .flushTx s = .next t ∧ Ends .flushTx s t :=
  ⟨_, rfl, ends_onBus rfl rfl rfl (completes_of_run (n := 1) (by simp) (by simp [eventBound]) rfl rfl
    (exchange_run s .flushTx) (Nat.zero_le _))⟩

theorem flushRx_ends (s : State) : ∃ t, exec .flushRx s = .next t ∧ Ends .flushRx s t :=
  ⟨_, rfl, ends_onBus rfl rfl rfl (completes_of_run (n := 1) (by simp) (by simp [eventBound]) rfl rfl
    (exchange_run s .flushRx) (Nat.zero_le _))⟩

theorem init_ends (txa rxa : Addr) (ch rt : Byte) (s : State) :
    ∃ t, exec (.init txa rxa ch rt) s = .next t ∧ Ends (.init txa rxa ch rt) s t :=
  ⟨_, rfl, ends_onBus rfl rfl rfl (completes_of_run (n := 12) (by simp) (by simp [eventBound]) rfl rfl
    (initBody_run txa rxa ch rt s rfl
      (by
        intro m hm v
        simp only [List.mem_cons, List.not_mem_nil, or_false] at hm
        rcases hm with rfl | hm
        · exact .inl (framer_config _ _)
        · exact .inr (.inl (by simpa using hm)))
      (fun hl v => .inr (.inr ⟨rfl, hl⟩))) (Nat.zero_le _))⟩

theorem rxLoop_ends (cnt : BitVec 16) (s : State) :
    ∃ t, exec (.rxLoop cnt) s = .next t ∧ Ends (.rxLoop cnt) s t := by
  refine ⟨_, rfl, ?_⟩
  by_cases h : s.cfg.rxbufCap < 33
  · rw [if_pos h]; exact .operand ⟨.rxbuf, 33⟩ (by simp [operandFault, h])
  · rw [if_neg h]
    obtain ⟨n, hn, hr⟩ := rxLoopBody_run cnt.toNat s rfl (framer_flags s.cfg) (framer_config s.cfg)
    exact ends_onBus rfl rfl (by simp [operandFault, h]) (completes_of_run (n := n) (by simp)
      hn rfl rfl hr (Nat.le_of_not_lt h))

theorem shutdown_ends (s : State) : ∃ t, exec .shutdown s = .next t ∧ Ends .shutdown s t :=
  ⟨_, rfl, ends_onBus rfl rfl rfl
    ⟨3, stopRadioBody s, { done := true }, by simp [eventBound], rfl, rfl, stopRadioBody_run s rfl (framer_config _),
      Nat.zero_le _, by simp [State.complete, shutdownBody]⟩⟩

theorem wait_ends (us : BitVec 32) (s : State) : ∃ t, exec (.wait us) s = .next t ∧ Ends (.wait us) s t :=
  ⟨_, rfl, .completes _ rfl (by simp [busOp]) rfl (completes_of_run (n := 1) (by simp) (by simp [eventBound]) rfl rfl
    (PortRun.refl s).waitFor (Nat.zero_le _))⟩

/-- What an instruction can do, said once (40_register_access.md R127): it always answers a next state, and ends in
one of the ways of `Ends`. -/
theorem exec_ends (i : Instr) (s : State) : ∃ t, exec i s = .next t ∧ Ends i s t := by
  cases i with
  | readReg reg => exact readReg_ends reg s
  | writeReg reg val => exact writeReg_ends reg val s
  | readAddr reg => exact readAddr_ends reg s
  | writeAddr reg v => exact writeAddr_ends reg v s
  | addrEncode n v => exact addrEncode_ends n v s
  | addrDecode n b => exact addrDecode_ends n b s
  | addrParse k b => exact addrParse_ends k b s
  | powerUp => exact powerUp_ends s
  | powerDown => exact powerDown_ends s
  | startRadio => exact startRadio_ends s
  | stopRadio => exact stopRadio_ends s
  | startRx => exact startRx_ends s
  | stopRx => exact stopRx_ends s
  | rxReady => exact rxReady_ends s
  | rxDyn => exact rxDyn_ends s
  | rxFixed => exact rxFixed_ends s
  | tx len txb => exact tx_ends len txb s
  | flushTx => exact flushTx_ends s
  | flushRx => exact flushRx_ends s
  | init txa rxa ch rt => exact init_ends txa rxa ch rt s
  | rxLoop cnt => exact rxLoop_ends cnt s
  | shutdown => exact shutdown_ends s
  | wait us => exact wait_ends us s
  | reserved op rest => exact ⟨_, rfl, .reserved op rest rfl⟩
  | busRRegister m long =>
    refine ⟨_, rfl, ends_busCommand rfl (by simp) rfl rfl fun _ => ?_⟩
    cases long
    · exact .readReg m
    · exact .readLong m
  | busWRegister m data =>
    refine ⟨_, rfl, ends_busCommand rfl (by simp) rfl rfl fun h => ?_⟩
    simp only [Instr.wf, Bool.or_eq_true, beq_iff_eq] at h
    rcases h with h | h
    · obtain ⟨v, rfl⟩ := List.length_eq_one_iff.1 h
      exact .writeReg m v rfl
    · exact .writeLong m data h
  | busRRxPlWid => exact ⟨_, rfl, ends_busCommand rfl (by simp) rfl rfl fun _ => .lengthQuery⟩
  | busRRxPayload n =>
    exact ⟨_, rfl, ends_busCommand rfl (by simp) rfl rfl fun h => .readPayload n (by simpa [Instr.wf] using h)⟩
  | busWTxPayload data =>
    exact ⟨_, rfl, ends_busCommand rfl (by simp) rfl rfl fun h => .writePayload data (by simpa [Instr.wf] using h)⟩
  | busFlushTx => exact ⟨_, rfl, ends_busCommand rfl (by simp) rfl rfl fun _ => .flushTx⟩
  | busFlushRx => exact ⟨_, rfl, ends_busCommand rfl (by simp) rfl rfl fun _ => .flushRx⟩
  | busNop => exact ⟨_, rfl, .nothing rfl⟩

/-- What an instruction did, from the state it answered. -/
theorem ends_of_exec {i : Instr} {s t : State} (h : exec i s = .next t) : Ends i s t := by
  obtain ⟨t', h', he⟩ := exec_ends i s
  rw [h'] at h
  cases h
  exact he

end Sys2Proof.Machine
end

