-- ==== Sys2Proof/Laws/Masks.lean ====
section
/-! SUPPORT. Masks of one bit (00_scope.md R10): setting or clearing one leaves the bits of another. -/

namespace Sys2Proof.Machine

set_option maxRecDepth 4000 in
/-- The bytes of one bit. -/
theorem singleBit_cases {m : Byte} (h : singleBit m) : ∃ k : Fin 8, m = 1#8 <<< k.val := by
  have all : ∀ n : Fin 256, singleBit (BitVec.ofFin n) → ∃ k : Fin 8, BitVec.ofFin n = 1#8 <<< k.val := by decide
  exact all m.toFin h

/-- Two masks of one bit that differ have no bit in common. -/
theorem singleBit_disjoint {p q : Byte} (hp : singleBit p) (hq : singleBit q) (h : p ≠ q) : p &&& q = 0#8 := by
  obtain ⟨j, rfl⟩ := singleBit_cases hp
  obtain ⟨k, rfl⟩ := singleBit_cases hq
  revert j k
  decide

/-- Bits set are set. -/
theorem setBits_self (v p : Byte) : setBits v p &&& p = p := by
  simp only [setBits]; ext i; simp; tauto

/-- Bits cleared are clear. -/
theorem clearBits_self (v p : Byte) : clearBits v p &&& p = 0#8 := by
  simp only [clearBits]; ext i; simp

/-- Setting a bit leaves the others. -/
theorem setBits_other {p q : Byte} (h : p &&& q = 0#8) (v : Byte) : setBits v p &&& q = v &&& q := by
  rw [setBits, BitVec.and_or_distrib_right, h, BitVec.or_zero]

/-- Clearing a bit leaves the others. -/
theorem clearBits_other {p q : Byte} (h : p &&& q = 0#8) (v : Byte) : clearBits v p &&& q = v &&& q := by
  have hq : ~~~p &&& q = q := by
    ext i hi
    have hb := congrArg (fun x : Byte => x[i]) h
    simp only [BitVec.getElem_and, BitVec.getElem_zero, BitVec.getElem_not] at hb ⊢
    cases hp : p[i] <;> simp_all
  rw [clearBits, BitVec.and_assoc, hq]

end Sys2Proof.Machine
end

