-- ==== Sys2Proof/Laws/PerInstr.lean ====
section
/-! SUPPORT. The family of per-instruction laws: the length of an encoding (30_encoding.md R90, R91, R95; 20_memory.md
R69), one lemma per constructor. -/

namespace Sys2Proof.Laws

/-- A well-formed request's encoding starts with an op and has the length that its format gives from its first two
bytes (R95); a bus command's has 1 to 33 bytes (R69). -/
def EncodingLength.Statement (i : Instr) : Prop :=
  ∀ c : Cfg, i.wf = true →
    (i.port = .request → ∃ op rest, encode c i = op :: rest ∧
      ∀ f, opFormat op = some f → (encode c i).length = formatLength f (rest.headD 0)) ∧
    (i.port = .bus → 1 ≤ (encode c i).length ∧ (encode c i).length ≤ 33)

/-- A request whose op byte selects the format `f`. -/
theorem encodingLength_of_request {i : Instr} {f : Format} (hp : i.port = .request)
    (h : ∀ c, i.wf = true → ∃ op rest, encode c i = op :: rest ∧ opFormat op = some f ∧
      rest.length + 1 = formatLength f (rest.headD 0)) : EncodingLength.Statement i := by
  intro c hw
  refine ⟨fun _ => ?_, fun hb => by simp [hp] at hb⟩
  obtain ⟨op, rest, he, ho, hl⟩ := h c hw
  refine ⟨op, rest, he, fun g hg => ?_⟩
  rw [ho] at hg
  cases hg
  rw [he, List.length_cons, hl]

/-- A bus command of 1 to 33 bytes. -/
theorem encodingLength_of_bus {i : Instr} (hp : i.port = .bus)
    (h : ∀ c, i.wf = true → 1 ≤ (encode c i).length ∧ (encode c i).length ≤ 33) : EncodingLength.Statement i := fun c hw =>
  ⟨fun hr => by simp [hp] at hr, fun _ => h c hw⟩

namespace EncodingLength

theorem readReg (reg : Byte) : Statement (.readReg reg) :=
  encodingLength_of_request rfl fun _ _ => ⟨_, _, rfl, rfl, rfl⟩

theorem writeReg (reg val : Byte) : Statement (.writeReg reg val) :=
  encodingLength_of_request rfl fun _ _ => ⟨_, _, rfl, rfl, rfl⟩

theorem readAddr (reg : Byte) : Statement (.readAddr reg) :=
  encodingLength_of_request rfl fun _ _ => ⟨_, _, rfl, rfl, rfl⟩

theorem writeAddr (reg : Byte) (v : Addr) : Statement (.writeAddr reg v) :=
  encodingLength_of_request rfl fun _ _ => ⟨_, _, rfl, rfl, rfl⟩

theorem addrEncode (n : Byte) (v : Addr) : Statement (.addrEncode n v) :=
  encodingLength_of_request rfl fun _ _ => ⟨_, _, rfl, rfl, rfl⟩

theorem powerUp : Statement .powerUp := encodingLength_of_request rfl fun _ _ => ⟨_, _, rfl, rfl, rfl⟩

theorem powerDown : Statement .powerDown := encodingLength_of_request rfl fun _ _ => ⟨_, _, rfl, rfl, rfl⟩

theorem startRadio : Statement .startRadio := encodingLength_of_request rfl fun _ _ => ⟨_, _, rfl, rfl, rfl⟩

theorem stopRadio : Statement .stopRadio := encodingLength_of_request rfl fun _ _ => ⟨_, _, rfl, rfl, rfl⟩

theorem startRx : Statement .startRx := encodingLength_of_request rfl fun _ _ => ⟨_, _, rfl, rfl, rfl⟩

theorem stopRx : Statement .stopRx := encodingLength_of_request rfl fun _ _ => ⟨_, _, rfl, rfl, rfl⟩

theorem rxReady : Statement .rxReady := encodingLength_of_request rfl fun _ _ => ⟨_, _, rfl, rfl, rfl⟩

theorem rxDyn : Statement .rxDyn := encodingLength_of_request rfl fun _ _ => ⟨_, _, rfl, rfl, rfl⟩

theorem rxFixed : Statement .rxFixed := encodingLength_of_request rfl fun _ _ => ⟨_, _, rfl, rfl, rfl⟩

theorem flushTx : Statement .flushTx := encodingLength_of_request rfl fun _ _ => ⟨_, _, rfl, rfl, rfl⟩

theorem flushRx : Statement .flushRx := encodingLength_of_request rfl fun _ _ => ⟨_, _, rfl, rfl, rfl⟩

theorem init (txa rxa : Addr) (ch rt : Byte) : Statement (.init txa rxa ch rt) :=
  encodingLength_of_request rfl fun _ _ => ⟨_, _, rfl, rfl, rfl⟩

theorem rxLoop (cnt : BitVec 16) : Statement (.rxLoop cnt) :=
  encodingLength_of_request rfl fun _ _ => ⟨_, _, rfl, rfl, rfl⟩

theorem shutdown : Statement .shutdown := encodingLength_of_request rfl fun _ _ => ⟨_, _, rfl, rfl, rfl⟩

theorem wait (us : BitVec 32) : Statement (.wait us) := encodingLength_of_request rfl fun _ _ => ⟨_, _, rfl, rfl, rfl⟩

theorem addrDecode (n : Byte) (s : Bytes) : Statement (.addrDecode n s) := encodingLength_of_request rfl fun _ hw =>
  ⟨_, _, rfl, rfl, by
    have h : s.length = n.toNat := by simpa [Instr.wf] using hw
    simp [Op.format, formatLength, h]; omega⟩

theorem addrParse (k : Byte) (t : Bytes) : Statement (.addrParse k t) := encodingLength_of_request rfl fun _ hw =>
  ⟨_, _, rfl, rfl, by
    have h : t.length = k.toNat := by simpa [Instr.wf] using hw
    simp [Op.format, formatLength, h]; omega⟩

theorem tx (len : Byte) (txb : Bytes) : Statement (.tx len txb) := encodingLength_of_request rfl fun _ hw =>
  ⟨_, _, rfl, rfl, by
    have h : txb.length = len.toNat := by simpa [Instr.wf] using hw
    simp [Op.format, formatLength, h]; omega⟩

theorem reserved (op : Byte) (rest : Bytes) : Statement (.reserved op rest) := fun _ hw =>
  ⟨fun _ => ⟨op, rest, rfl, fun f hf => by
    rw [opFormat, (reservedOp_iff op).1 hw] at hf
    cases hf⟩, fun hb => by cases hb⟩

theorem busRRegister (m : RegAddr) (long : Bool) : Statement (.busRRegister m long) :=
  encodingLength_of_bus rfl fun _ _ => by
  cases long <;> simp [encode]

theorem busWRegister (m : RegAddr) (data : Bytes) : Statement (.busWRegister m data) :=
  encodingLength_of_bus rfl fun _ hw => by
  simp only [Instr.wf, Bool.or_eq_true, beq_iff_eq] at hw
  simp only [encode, List.length_cons]
  omega

theorem busRRxPlWid : Statement .busRRxPlWid := encodingLength_of_bus rfl fun _ _ => by simp [encode]

theorem busRRxPayload (n : Nat) : Statement (.busRRxPayload n) := encodingLength_of_bus rfl fun _ hw => by
  simp only [Instr.wf, decide_eq_true_eq] at hw
  simp only [encode, List.length_cons, List.length_replicate]
  omega

theorem busWTxPayload (data : Bytes) : Statement (.busWTxPayload data) := encodingLength_of_bus rfl fun _ hw => by
  simp only [Instr.wf, decide_eq_true_eq] at hw
  simp only [encode, List.length_cons]
  omega

theorem busFlushTx : Statement .busFlushTx := encodingLength_of_bus rfl fun _ _ => by simp [encode]

theorem busFlushRx : Statement .busFlushRx := encodingLength_of_bus rfl fun _ _ => by simp [encode]

theorem busNop : Statement .busNop := encodingLength_of_bus rfl fun _ _ => by simp [encode]

end EncodingLength

end Sys2Proof.Laws
end

