-- ==== Sys2Proof/Laws/Step.lean ====
section
/-! SUPPORT. What a step can do, said once (40_register_access.md R127): idle, F_ILLEGAL_REQ of a request of the wrong
length, or a decoded instruction that ends in one of the ways of `Ends`. -/

namespace Sys2Proof.Machine

/-- The ways a step that answers a next state ends. -/
inductive Steps (s : State) : State → Prop where
  | idle (hb : s.busq = []) (hq : s.stream[s.pc]? = none) : Steps s s
  | illegal (op : Byte) (q : Bytes) (hb : s.busq = []) (hq : s.stream[s.pc]? = some q)
      (hd : decode q = .error (.badLength op)) : Steps s (s.faulted .illegalReq op.toNat)
  | request (i : Instr) (q : Bytes) (t : State) (hb : s.busq = []) (hq : s.stream[s.pc]? = some q)
      (hd : decodeAt s.cfg .request q = .ok i) (h : Ends i s t) : Steps s t
  | bus (i : Instr) (b : Bytes) (bs : List Bytes) (t : State) (hb : s.busq = b :: bs)
      (hd : decodeAt s.cfg .bus b = .ok i) (h : Ends i { s with busq := bs } t) : Steps s t

/-- What decoding on a port leads to, from what the fetch answered. -/
theorem fetchAt_run {p : Port} {b : Bytes} {s s' : State} {i : Instr} (h : fetchAt p b s = .run i s') :
    decodeAt s.cfg p b = .ok i ∧ s' = s := by
  unfold fetchAt at h
  split at h <;> cases h
  exact ⟨‹_›, rfl⟩

theorem fetchAt_illegal {p : Port} {b : Bytes} {s : State} {op : Byte} (h : fetchAt p b s = .illegal op) :
    decodeAt s.cfg p b = .error (.badLength op) := by
  unfold fetchAt at h
  split at h <;> cases h
  assumption

/-- A bus command has no length of its own to get wrong. -/
theorem decodeAt_bus_badLength {c : Cfg} {b : Bytes} {op : Byte} : decodeAt c .bus b ≠ .error (.badLength op) := by
  unfold decodeAt
  dsimp only
  split <;> simp

/-- A step that answers a next state starts without a fault and ends in one of the ways of `Steps`. -/
theorem steps_of_step {s t : State} (h : step s = .next t) : s.fault = none ∧ Steps s t := by
  unfold step at h
  split at h
  · cases h
  · rename_i hf
    cases h
    unfold fetch at hf
    split at hf
    · cases hf
    · refine ⟨‹_›, ?_⟩
      split at hf
      · unfold fetchAt at hf; split at hf <;> cases hf
      · split at hf
        · unfold fetchAt at hf; split at hf <;> cases hf
        · exact .idle ‹_› ‹_›
  · rename_i op hf
    cases h
    unfold fetch at hf
    split at hf
    · cases hf
    · refine ⟨‹_›, ?_⟩
      split at hf
      · exact absurd (fetchAt_illegal hf) decodeAt_bus_badLength
      · split at hf
        · exact .illegal op _ ‹_› ‹_› (fetchAt_illegal hf)
        · cases hf
  · cases h
  · rename_i i s' hf
    unfold fetch at hf
    split at hf
    · cases hf
    · refine ⟨‹_›, ?_⟩
      split at hf
      · obtain ⟨hd, rfl⟩ := fetchAt_run hf
        exact .bus i _ _ t ‹_› hd (ends_of_exec h)
      · split at hf
        · obtain ⟨hd, rfl⟩ := fetchAt_run hf
          exact .request i _ t ‹_› ‹_› hd (ends_of_exec h)
        · cases hf

end Sys2Proof.Machine
end

