-- ==== Sys2Proof/Tests/Slice0.lean ====
section
/-! SUPPORT. The model's own tests: ill-formed terms, one word of every instruction decoded, the vectors of
95_test_vectors.md run for one step each, and for every obligation with hypotheses a state that meets them. -/

open Sys2Proof Sys2Proof.Machine

namespace Sys2Proof.Tests

/-- The default configuration with the example values of 95_test_vectors.md part 3 for the OPEN parameters; the
delays and `FIXED_LEN = 4` are this file's (V5-13). -/
def testCfg : Cfg :=
  { Config.cfg with
    tCeDown := 2000, tRxPoll := 5000, fixedLen := 4, initRfSetup := 0x06, initDynpd := 0x3F, initFeature := 0x04
    initConfig := 0x0C }

theorem testCfg_valid : testCfg.Valid :=
  ⟨by decide, by decide, by decide, by decide, by decide, by decide⟩

theorem testCfg_distinct : testCfg.RegistersDistinct := by decide

/-- A block with the answers the vector's oracle gives. -/
def start (ce : Bool) (cfgsh : Option Byte) (answers : List Bytes) : State :=
  { State.construct testCfg with ce := ce, cfgsh := cfgsh, answers := answers }

/-- The start state of V1: what construction leaves. -/
def fresh (answers : List Bytes) : State := start false none answers

/-- A block whose handles are released. -/
def closed : State := { fresh [] with isOpen := false }

/-- The event without its response, which the vectors mostly leave open. -/
def sent : Event → Event
  | .xchg b _ => .xchg b []
  | .ce v => .ce v
  | .wait d => .wait d

/-- The next state of an outcome. -/
def nextOf : Host.Outcome State Fault Refusal → Option State
  | .next t => some t
  | .fault _ => none
  | .refused _ => none

/-- One step on one request. -/
def run (q : Bytes) (s : State) : Option State := nextOf (step { s with stream := [q] })

/-- What one step on one request sends, returns and leaves of `ce` and the shadow. -/
def seen (q : Bytes) (s : State) : Option (List Event × List Result × Bool × Option Byte) :=
  (run q s).map fun t => (t.hist.map sent, t.results, t.ce, t.cfgsh)

/-- The request's exchange, its response left out. -/
def x (b : Bytes) : Event := .xchg b []

/-- The fault record and the number of events after one step. -/
def fails (q : Bytes) (s : State) : Option (Option FaultRecord × Nat × Nat) :=
  (run q s).map fun t => (t.fault, t.hist.length, t.pc)

/-! ### Ill-formed terms are refused -/

theorem test_wf_addrDecode : (Instr.addrDecode 3 [1, 2]).wf = false := by decide
theorem test_wf_addrParse : (Instr.addrParse 1 []).wf = false := by decide
theorem test_wf_tx : (Instr.tx 2 [0x55]).wf = false := by decide
theorem test_wf_reserved : (Instr.reserved 0x17 []).wf = false := by decide
theorem test_wf_reserved_boundary : (Instr.reserved 0x18 []).wf = true ∧ (Instr.reserved 0x01 []).wf = false := by decide
theorem test_wf_busWRegister : (Instr.busWRegister 0x07 [1, 2]).wf = false := by decide
theorem test_wf_busRRxPayload : (Instr.busRRxPayload 33).wf = false := by decide
theorem test_wf_busWTxPayload : (Instr.busWTxPayload (List.replicate 33 0)).wf = false := by decide

/-! ### One word of every instruction (30_encoding.md R93, R97 to R104; bytes of 95_test_vectors.md) -/

theorem test_decode_readReg : decode [0x01, 0xE0] = .ok (.readReg 0xE0) := by decide
theorem test_decode_writeReg : decode [0x02, 0x07, 0x40] = .ok (.writeReg 0x07 0x40) := by decide
theorem test_decode_readAddr : decode [0x03, 0x0A] = .ok (.readAddr 0x0A) := by decide
theorem test_decode_writeAddr : decode [0x04, 0x0A, 0x01, 0x02, 0x03, 0x04, 0x05] =
    .ok (.writeAddr 0x0A 0x0504030201) := by decide
theorem test_decode_addrEncode : decode [0x05, 0x05, 0x05, 0x04, 0x03, 0x02, 0x01] =
    .ok (.addrEncode 5 0x0102030405) := by decide
theorem test_decode_addrDecode : decode [0x06, 0x02, 0x01, 0x02] = .ok (.addrDecode 2 [0x01, 0x02]) := by decide
theorem test_decode_addrParse : decode [0x07, 0x02, 0x66, 0x30] = .ok (.addrParse 2 [0x66, 0x30]) := by decide
theorem test_decode_powerUp : decode [0x08] = .ok .powerUp := by decide
theorem test_decode_powerDown : decode [0x09] = .ok .powerDown := by decide
theorem test_decode_startRadio : decode [0x0A] = .ok .startRadio := by decide
theorem test_decode_stopRadio : decode [0x0B] = .ok .stopRadio := by decide
theorem test_decode_startRx : decode [0x0C] = .ok .startRx := by decide
theorem test_decode_stopRx : decode [0x0D] = .ok .stopRx := by decide
theorem test_decode_rxReady : decode [0x0E] = .ok .rxReady := by decide
theorem test_decode_rxDyn : decode [0x0F] = .ok .rxDyn := by decide
theorem test_decode_rxFixed : decode [0x10] = .ok .rxFixed := by decide
theorem test_decode_flushTx : decode [0x12] = .ok .flushTx := by decide
theorem test_decode_flushRx : decode [0x13] = .ok .flushRx := by decide
theorem test_decode_shutdown : decode [0x16] = .ok .shutdown := by decide
theorem test_decode_tx : decode [0x11, 0x02, 0xAA, 0x55] = .ok (.tx 2 [0xAA, 0x55]) := by decide
theorem test_decode_init : decode [0x14, 0x01, 0xF0, 0xF0, 0xF0, 0xF0, 0x02, 0xF0, 0xF0, 0xF0, 0xF0, 0x6E, 0x1F] =
    .ok (.init 0xF0F0F0F001 0xF0F0F0F002 110 0x1F) := by decide
theorem test_decode_rxLoop : decode [0x15, 0x02, 0x01] = .ok (.rxLoop 0x0102) := by decide
theorem test_decode_wait : decode [0x17, 0xDC, 0x05, 0x00, 0x00] = .ok (.wait 1500) := by decide
theorem test_decode_reserved : decode [0x18, 0x01] = .ok (.reserved 0x18 [0x01]) := by decide
theorem test_decode_busRRegister : decodeBus testCfg [0x07, 0xFF] = some (.busRRegister 0x07 false) := by decide
theorem test_decode_busRRegister_long : decodeBus testCfg [0x0B, 0xFF, 0xFF, 0xFF, 0xFF, 0xFF] = some (.busRRegister 0x0B true) := by decide
theorem test_decode_busWRegister : decodeBus testCfg [0x27, 0x40] = some (.busWRegister 0x07 [0x40]) := by decide
theorem test_decode_busRRxPlWid : decodeBus testCfg [0x60, 0xFF] = some .busRRxPlWid := by decide
theorem test_decode_busRRxPayload : decodeBus testCfg [0x61, 0xFF, 0xFF] = some (.busRRxPayload 2) := by decide
theorem test_decode_busWTxPayload : decodeBus testCfg [0xA0, 0xAA, 0x55] = some (.busWTxPayload [0xAA, 0x55]) := by decide
theorem test_decode_busFlushTx : decodeBus testCfg [0xE1] = some .busFlushTx := by decide
theorem test_decode_busFlushRx : decodeBus testCfg [0xE2] = some .busFlushRx := by decide
theorem test_decode_busNop : decodeBus testCfg [0xFF] = some .busNop := by decide

/-- A word of the opcode table runs as the first instruction after reset. -/
theorem test_withFetchWord : (nextOf (step (State.reset.withFetchWord 8 0x08))).map (·.hist) =
    some [.ce true, .wait .tCeUp] := by decide
theorem test_withFetchWord_bus : (nextOf (step (State.reset.withFetchWord 8 0xE1))).map (·.hist.map sent) =
    some [x [0xE1]] := by decide

/-! ### Vectors -/

/-- V1-2. -/
theorem test_readReg_masks : seen [0x01, 0x27] (fresh [[0x0E, 0x0E]]) =
    some ([x [0x07, 0xFF]], [{ done := true, v8 := some 0x0E }], false, none) := by decide
/-- V1-6. -/
theorem test_writeReg_config : seen [0x02, 0x20, 0x0B] (fresh [[0x0E, 0x00]]) =
    some ([x [0x20, 0x0B]], [{ done := true }], false, some 0x0B) := by decide
/-- V1-5. -/
theorem test_writeReg_status : seen [0x02, 0x07, 0x40] (fresh [[0x0E, 0x00]]) =
    some ([x [0x27, 0x40]], [{ done := true }], false, none) := by decide
/-- V1-8. -/
theorem test_readAddr_long : seen [0x03, 0x0A] (fresh [[0x0E, 0x01, 0x02, 0x03, 0x04, 0x05]]) =
    some ([x [0x0A, 0xFF, 0xFF, 0xFF, 0xFF, 0xFF]], [{ done := true, v40 := some 0x0504030201 }], false, none) := by decide
/-- V1-11. -/
theorem test_readAddr_short : seen [0x03, 0x0F] (fresh [[0x0E, 0xC2, 0xE7, 0xE7, 0xE7, 0xE7], [0x0E, 0xC6]]) =
    some ([x [0x0B, 0xFF, 0xFF, 0xFF, 0xFF, 0xFF], x [0x0F, 0xFF]], [{ done := true, v40 := some 0xE7E7E7E7C6 }], false, none) := by decide
/-- V1-15. -/
theorem test_writeAddr_long : seen [0x04, 0x0A, 0x01, 0x02, 0x03, 0x04, 0x05] (fresh []) =
    some ([x [0x2A, 0x01, 0x02, 0x03, 0x04, 0x05]], [{ done := true }], false, none) := by decide
/-- V1-17. -/
theorem test_writeAddr_short : seen [0x04, 0x0D, 0x77, 0xFF, 0xFF, 0xFF, 0xFF] (fresh []) =
    some ([x [0x2D, 0x77]], [{ done := true }], false, none) := by decide
/-- V3-5. -/
theorem test_addrEncode : seen [0x05, 0x03, 0x9A, 0x78, 0x56, 0x34, 0x12] (closed) =
    some ([], [{ done := true, bytes := some [0x9A, 0x78, 0x56] }], false, none) := by decide
/-- V3-9. -/
theorem test_addrDecode : seen [0x06, 0x02, 0x01, 0x02] (fresh []) =
    some ([], [{ done := true, v40 := some 0x0201 }], false, none) := by decide
/-- L1-2. -/
theorem test_addrParse : seen [0x07, 0x0A, 0x66, 0x30, 0x66, 0x30, 0x66, 0x30, 0x66, 0x30, 0x30, 0x31] (fresh []) =
    some ([], [{ done := true, ok := some true, v40 := some 0xF0F0F0F001 }], false, none) := by decide
/-- L1-3. -/
theorem test_addrParse_short : seen [0x07, 0x09, 0x66, 0x30, 0x66, 0x30, 0x66, 0x30, 0x66, 0x30, 0x30] (fresh []) =
    some ([], [{ done := true, ok := some false, v40 := some 0 }], false, none) := by decide
/-- V4-9. -/
theorem test_powerUp : seen [0x08] (start false (some 0x0A) []) =
    some ([.ce true, .wait .tCeUp], [{ done := true }], true, some 0x0A) := by decide
/-- V4-8. -/
theorem test_powerDown : seen [0x09] (start true (some 0x0B) []) =
    some ([.ce false, .wait .tCeDown], [{ done := true }], false, some 0x0B) := by decide
/-- V4-3. -/
theorem test_startRadio : seen [0x0A] (fresh [[0x0E, 0x08]]) =
    some ([x [0x00, 0xFF], x [0x20, 0x0A], .wait .tRadio], [{ done := true }], false, some 0x0A) := by decide
/-- V4-11. -/
theorem test_stopRadio : seen [0x0B] (start true (some 0x0B) [[0x0E, 0x0B]]) =
    some ([x [0x00, 0xFF], x [0x20, 0x09], .wait .tRadio], [{ done := true }], true, some 0x09) := by decide
/-- V4-12. -/
theorem test_startRx : seen [0x0C] (start false (some 0x0A) [[0x0E, 0x00]]) =
    some ([.ce true, .wait .tCeUp, x [0x00, 0xFF], x [0x20, 0x01], .wait .tRx], [{ done := true }], true, some 0x01) := by decide
/-- V4-6. -/
theorem test_stopRx : seen [0x0D] (start true (some 0x0B) [[0x0E, 0x0B]]) =
    some ([.ce false, .wait .tCeDown, x [0x00, 0xFF], x [0x20, 0x0A], .wait .tRx], [{ done := true }], false, some 0x0A) := by decide
/-- V5-2. -/
theorem test_rxReady : seen [0x0E] (fresh [[0x42, 0x42]]) =
    some ([x [0x07, 0xFF]], [{ done := true, ok := some true }], false, none) := by decide
/-- V5-3. -/
theorem test_rxReady_empty : seen [0x0E] (fresh [[0x4E, 0x4E]]) =
    some ([x [0x07, 0xFF]], [{ done := true, ok := some false }], false, none) := by decide
/-- V5-7. -/
theorem test_rxDyn : seen [0x0F] (fresh [[0x42, 0x42], [0x42, 0x02], [0x42, 0x68, 0x69]]) =
    some ([x [0x07, 0xFF], x [0x60, 0xFF], x [0x61, 0xFF, 0xFF], x [0x27, 0x40]], [{ done := true, len := some 2 }], false, none) := by decide
/-- V5-10. -/
theorem test_rxDyn_flush : seen [0x0F] (fresh [[0x42, 0x42], [0x42, 0x21]]) =
    some ([x [0x07, 0xFF], x [0x60, 0xFF], x [0xE2]], [{ done := true, len := some 0 }], false, none) := by decide
/-- V5-14. -/
theorem test_rxFixed : seen [0x10] (fresh [[0x42, 0x42], [0x42, 0x01, 0x02, 0x03, 0x04]]) =
    some ([x [0x07, 0xFF], x [0x61, 0xFF, 0xFF, 0xFF, 0xFF], x [0x27, 0x40]], [{ done := true, ok := some true }], false, none) := by decide
/-- V5-13. -/
theorem test_rxFixed_empty : seen [0x10] (fresh [[0x0E, 0x0E]]) =
    some ([x [0x07, 0xFF]], [{ done := true, ok := some false }], false, none) := by decide
/-- V6-4. -/
theorem test_tx_both_bits : seen [0x11, 0x01, 0x55] (start false (some 0x0E) [[], [], [0x3E, 0x3E]]) =
    some ([x [0xE1], x [0xA0, 0x55], .ce true, .wait .tCeUp, x [0x07, 0xFF], x [0x27, 0x20], .ce false, .wait .tCeDown], [{ done := true, ok := some true }], false, some 0x0E) := by decide
/-- V6-3. -/
theorem test_tx_max_rt : seen [0x11, 0x01, 0x55] (start false (some 0x0E) [[], [], [0x1E, 0x1E]]) =
    some ([x [0xE1], x [0xA0, 0x55], .ce true, .wait .tCeUp, x [0x07, 0xFF], x [0x27, 0x10], x [0xE1], .ce false, .wait .tCeDown], [{ done := true, ok := some false }], false, some 0x0E) := by decide
/-- V6-10. -/
theorem test_flushTx : seen [0x12] (fresh []) =
    some ([x [0xE1]], [{ done := true }], false, none) := by decide
/-- V6-11. -/
theorem test_flushRx : seen [0x13] (fresh []) =
    some ([x [0xE2]], [{ done := true }], false, none) := by decide
/-- P1, the INIT. -/
theorem test_init : seen [0x14, 0x01, 0xF0, 0xF0, 0xF0, 0xF0, 0x02, 0xF0, 0xF0, 0xF0, 0xF0, 0x6E, 0x1F] (fresh [[], [], [], [], [], [], [], [], [0x0E, 0x0C]]) =
    some ([x [0x30, 0x01, 0xF0, 0xF0, 0xF0, 0xF0], x [0x2B, 0x02, 0xF0, 0xF0, 0xF0, 0xF0], x [0x26, 0x06], x [0x3C, 0x3F],
      x [0x3D, 0x04], x [0x25, 0x6E], x [0x20, 0x0C], x [0x24, 0x1F], x [0x00, 0xFF], x [0x20, 0x0E], .wait .tRadio,
      x [0xE2]], [{ done := true }], false, some 0x0E) := by decide
/-- V7-4. -/
theorem test_rxLoop : seen [0x15, 0x01, 0x00] (start false (some 0x0E) [[0x0E, 0x0E], [], [0x42, 0x42], [0x42, 0x00], [0x42], [], [0x0E, 0x0F]]) =
    some ([.ce true, .wait .tCeUp, x [0x00, 0xFF], x [0x20, 0x0F], .wait .tRx, x [0x07, 0xFF], x [0x60, 0xFF], x [0x61],
      x [0x27, 0x40], .wait .tRxPoll, .ce false, .wait .tCeDown, x [0x00, 0xFF], x [0x20, 0x0E], .wait .tRx], [{ done := true, payloads := some [] }], false, some 0x0E) := by decide
/-- V7-8. -/
theorem test_shutdown : seen [0x16] (start true (some 0x0E) [[0x0E, 0x0E]]) =
    some ([x [0x00, 0xFF], x [0x20, 0x0C], .wait .tRadio], [{ done := true }], true, some 0x0C) := by decide
/-- V2-13. -/
theorem test_wait_closed : seen [0x17, 0xDC, 0x05, 0x00, 0x00] (closed) =
    some ([.wait (.micros 1500)], [{ done := true }], false, none) := by decide

/-- V5-7: RXB holds the payload and its terminator; offset 3 stays as it was. -/
theorem test_rxDyn_rxb :
    (run [0x0F] (fresh [[0x42, 0x42], [0x42, 0x02], [0x42, 0x68, 0x69]])).map
        (fun t => [0, 1, 2, 3].map (Memory.read t.rxb)) = some [some 0x68, some 0x69, some 0x00, none] := by decide

/-- V5-14: RXB holds `FIXED_LEN` bytes and no terminator. -/
theorem test_rxFixed_rxb :
    (run [0x10] (fresh [[0x42, 0x42], [0x42, 0x01, 0x02, 0x03, 0x04]])).map
        (fun t => [0, 3, 4].map (Memory.read t.rxb)) = some [some 0x01, some 0x04, none] := by decide

/-- P5 in one iteration: the payload is returned. -/
theorem test_rxLoop_payload :
    (run [0x15, 0x01, 0x00] (start false (some 0x0E) [[0x0E, 0x0E], [], [0x42, 0x42], [0x42, 0x02], [0x42, 0x68, 0x69], [],
        [0x0E, 0x0F]])).map (fun t => t.results.map (·.payloads)) = some [some [[0x68, 0x69]]] := by decide

/-- V7-6: the handles are released. -/
theorem test_shutdown_open : (run [0x16] (start false (some 0x0E) [[0x0E, 0x0E]])).map (·.isOpen) = some false := by decide

/-- V2-2 and V2-5. -/
theorem test_reserved : fails [0x18] (fresh []) = some (some ⟨.illegalReq, 0x18⟩, 0, 0) := by decide
theorem test_wrong_length : fails [0x02, 0x07] (fresh []) = some (some ⟨.illegalReq, 0x02⟩, 0, 0) := by decide

/-- V2-8 to V2-11: the order of the checks. -/
theorem test_closed : fails [0x01, 0x07] closed = some (some ⟨.busClosed, 0x01⟩, 0, 0) := by decide
theorem test_closed_operand_first : fails [0x03, 0x07] closed = some (some ⟨.addrReg, 0x07⟩, 0, 0) := by decide
theorem test_closed_reserved : fails [0x20] closed = some (some ⟨.illegalReq, 0x20⟩, 0, 0) := by decide

/-- V3-7, V3-11 and V6-8. -/
theorem test_width_encode : fails [0x05, 0x06, 0x01, 0, 0, 0, 0] (fresh []) = some (some ⟨.width, 6⟩, 0, 0) := by decide
theorem test_width_decode : fails [0x06, 0x00] (fresh []) = some (some ⟨.width, 0⟩, 0, 0) := by decide
theorem test_tx_33 : fails (0x11 :: 0x21 :: List.replicate 33 0) (fresh []) = some (some ⟨.payloadLen, 33⟩, 0, 0) := by
  decide

/-- V5-12, V5-17 and V7-5: the buffer bounds. -/
theorem test_rxbuf_dyn : fails [0x0F] { fresh [] with cfg := { testCfg with rxbufCap := 32 } } =
    some (some ⟨.rxbuf, 33⟩, 0, 0) := by decide
theorem test_rxbuf_fixed : fails [0x10] { fresh [] with cfg := { testCfg with rxbufCap := 16, fixedLen := 32 } } =
    some (some ⟨.rxbuf, 32⟩, 0, 0) := by decide
theorem test_rxbuf_loop : fails [0x15, 0x01, 0x00] { fresh [] with cfg := { testCfg with rxbufCap := 20 } } =
    some (some ⟨.rxbuf, 33⟩, 0, 0) := by decide

/-- V6-5: with a cap of 3 the timeout makes 13 events and flushes after powerDown. -/
theorem test_tx_timeout :
    (run [0x11, 0x01, 0x55] { start false (some 0x0E) [[], [], [0x0E, 0x0E], [0x0E, 0x0E], [0x0E, 0x0E]] with
        cfg := { testCfg with txPollCap := 3 } }).map (fun t => (t.hist.length, (t.hist.map sent).drop 10)) =
      some (13, [.ce false, .wait .tCeDown, x [0xE1]]) := by decide

/-- V7-2: a short receive pipe takes the low byte alone. -/
theorem test_init_short_pipe :
    (run [0x14, 0x01, 0, 0, 0, 0, 0xAB, 0x78, 0x56, 0x34, 0x12, 0x05, 0x00] { fresh [] with
        cfg := { testCfg with rxPipe := 2 } }).map (fun t => ((t.hist.map sent).drop 1).take 1) =
      some [x [0x2C, 0xAB]] := by decide

/-- The bus commands: one exchange each (20_memory.md R69), and the shadow follows a 2-byte CONFIG write. -/
theorem test_bus_exchanges :
    ([Instr.busRRegister 0x07 false, .busRRegister 0x0B true, .busRRxPlWid, .busRRxPayload 2, .busWTxPayload [0x55],
        .busFlushTx, .busFlushRx, .busNop].map fun i => (nextOf (exec i (fresh []))).map (·.hist.map sent)) =
      [some [x [0x07, 0xFF]], some [x [0x0B, 0xFF, 0xFF, 0xFF, 0xFF, 0xFF]], some [x [0x60, 0xFF]],
        some [x [0x61, 0xFF, 0xFF]], some [x [0xA0, 0x55]], some [x [0xE1]], some [x [0xE2]], some []] := by decide
theorem test_bus_writes_config :
    (nextOf (exec (.busWRegister 0x00 [0x0B]) (fresh []))).map (fun t => (t.hist.map sent, t.cfgsh)) =
      some ([x [0x20, 0x0B]], some 0x0B) := by decide

/-- 30_encoding.md R106 and R107: text to requests. -/
theorem test_assemble :
    [assemble testCfg "TX \"hello\"".toList, assemble testCfg "SET_CHANNEL 110".toList,
        assemble testCfg "READ_REG STATUS".toList, assemble testCfg "ADDR_DECODE 2, [0x01, 0x02]".toList] =
      [some (.tx 5 [0x68, 0x65, 0x6C, 0x6C, 0x6F]), some (.writeReg 0x05 110), some (.readReg 0x07),
        some (.addrDecode 2 [0x01, 0x02])] := by decide

/-! ### Witnesses: for each obligation with hypotheses, a state and operands that meet them -/

/-- The state with one request waiting. -/
def waiting (q : Bytes) : State := { fresh [] with stream := [q] }

/-- The state with one bus command waiting. -/
def busWaiting (b : Bytes) : State := { fresh [] with busq := [b] }

/-- The state after a fault. -/
def faultedState : State := (fresh []).faulted .width 6

theorem witness_StepRunsTheDecodedRequest :
    (waiting [0x01, 0x07]).fault = none ∧ (waiting [0x01, 0x07]).busq = [] ∧
      (waiting [0x01, 0x07]).stream[(waiting [0x01, 0x07]).pc]? = some [0x01, 0x07] ∧
      decode [0x01, 0x07] = .ok (.readReg 0x07) := by decide

theorem witness_StepRunsTheWaitingBusCommand :
    (busWaiting [0x07, 0xFF]).fault = none ∧ (busWaiting [0x07, 0xFF]).busq = [[0x07, 0xFF]] ∧
      decodeBus (busWaiting [0x07, 0xFF]).cfg [0x07, 0xFF] = some (.busRRegister 0x07 false) := by decide

theorem witness_StepIsStuckExactlyWhenFaulted :
    faultedState.fault ≠ none ∧
      (fresh []).fault = none ∧ (fresh []).busq = [] ∧ (fresh []).stream[(fresh []).pc]? = none := by decide

/-- Each clause: ops 0x00, 0x18 and 0xFF, and a WRITE_REG of two bytes. -/
theorem witness_IllegalRequestsRaiseTheFault :
    (waiting [0x02, 0x07]).fault = none ∧ (waiting [0x02, 0x07]).busq = [] ∧
      (waiting [0x02, 0x07]).stream[(waiting [0x02, 0x07]).pc]? = some (0x02 :: [0x07]) ∧
      (∃ f, opFormat 0x02 = some f ∧ [(0x07 : Byte)].length + 1 ≠ formatLength f (([0x07] : Bytes).headD 0)) ∧
      (0x00 : Byte) = 0x00#8 ∧ 0x18#8 ≤ (0x18 : Byte) ∧ 0x18#8 ≤ (0xFF : Byte) :=
  ⟨rfl, rfl, rfl, ⟨.rv, by decide⟩, by decide, by decide, by decide⟩

/-- Operands at both ends of their lengths. -/
theorem witness_DecodingAnEncodingGivesTheInstruction :
    testCfg.Valid ∧ (∀ i ∈ [Instr.addrDecode 0 [], .tx 32 (List.replicate 32 0xA5), .reserved 0xFF [], .busRRxPayload 0,
      .busRRxPayload 32, .busWTxPayload [], .busWRegister 0x1F [1, 2, 3, 4, 5], .busNop], i.wf = true) :=
  ⟨testCfg_valid, by decide⟩

theorem witness_EncodingADecodingGivesTheBytes :
    decodeAt testCfg .request [0x06, 0x00] = .ok (.addrDecode 0 []) ∧
      decodeAt testCfg .bus [0x61] = .ok (.busRRxPayload 0) := by decide

theorem witness_DecodingFailsExactlyOnAWrongLength :
    decode [0x01] = .error (.badLength 0x01) ∧ opFormat 0x01 = some .r ∧
      ([] : Bytes).length + 1 ≠ formatLength .r (([] : Bytes).headD 0) := by decide

theorem witness_open_and_closed :
    (fresh []).cfg.Valid ∧ (fresh []).isOpen = true ∧ closed.cfg.Valid ∧ closed.isOpen = false :=
  ⟨testCfg_valid, rfl, testCfg_valid, rfl⟩

theorem witness_ReadRegReturnsTheAnswerByte : (fresh []).cfg.Valid ∧ (fresh []).isOpen = true ∧ closed.isOpen = false :=
  ⟨testCfg_valid, rfl, rfl⟩

theorem witness_WriteRegSendsTheValue :
    (fresh []).cfg.Valid ∧ (fresh []).isOpen = true ∧ closed.isOpen = false ∧
      (0x27 : Byte) &&& 0x1F#8 = (fresh []).cfg.regStatus.setWidth 8 := ⟨testCfg_valid, rfl, rfl, by decide⟩

/-- Each class: long, short, none, with stray high bits too. -/
theorem witness_ReadAddrReadsTheAddress :
    (fresh []).cfg.Valid ∧ (fresh []).cfg.RegistersDistinct ∧ (fresh []).isOpen = true ∧ closed.isOpen = false ∧
      (∀ reg ∈ [(0x0A : Byte), 0x0B, 0x10, 0x2A],
        ma reg ∈ [(fresh []).cfg.regRxAddrP0, (fresh []).cfg.regRxAddrP1, (fresh []).cfg.regTxAddr]) ∧
      (∀ reg ∈ [(0x0C : Byte), 0x0F],
        ma reg ∉ [(fresh []).cfg.regRxAddrP0, (fresh []).cfg.regRxAddrP1, (fresh []).cfg.regTxAddr] ∧
          ma reg ∈ [(fresh []).cfg.regRxAddrP2, (fresh []).cfg.regRxAddrP3, (fresh []).cfg.regRxAddrP4,
            (fresh []).cfg.regRxAddrP5]) ∧
      ∀ reg ∈ [(0x00 : Byte), 0x09, 0x11, 0x1F, 0xE7],
        ma reg ∉ [(fresh []).cfg.regRxAddrP0, (fresh []).cfg.regRxAddrP1, (fresh []).cfg.regTxAddr] ++
          [(fresh []).cfg.regRxAddrP2, (fresh []).cfg.regRxAddrP3, (fresh []).cfg.regRxAddrP4,
            (fresh []).cfg.regRxAddrP5] :=
  ⟨testCfg_valid, testCfg_distinct, rfl, rfl, by decide, by decide, by decide⟩

theorem witness_WriteAddrSendsTheAddress :
    (fresh []).cfg.Valid ∧ (fresh []).cfg.RegistersDistinct ∧ (fresh []).isOpen = true ∧ closed.isOpen = false ∧
      (∀ reg ∈ [(0x0A : Byte), 0x10, 0x0C, 0x0F],
        ma reg ∈ [(fresh []).cfg.regRxAddrP0, (fresh []).cfg.regRxAddrP1, (fresh []).cfg.regTxAddr] ++
          [(fresh []).cfg.regRxAddrP2, (fresh []).cfg.regRxAddrP3, (fresh []).cfg.regRxAddrP4,
            (fresh []).cfg.regRxAddrP5]) ∧
      ∀ reg ∈ [(0x09 : Byte), 0x11],
        ma reg ∉ [(fresh []).cfg.regRxAddrP0, (fresh []).cfg.regRxAddrP1, (fresh []).cfg.regTxAddr] ++
          [(fresh []).cfg.regRxAddrP2, (fresh []).cfg.regRxAddrP3, (fresh []).cfg.regRxAddrP4,
            (fresh []).cfg.regRxAddrP5] :=
  ⟨testCfg_valid, testCfg_distinct, rfl, rfl, by decide, by decide⟩

/-- Both ends of the range of widths, and the widths next to them. -/
theorem witness_AddrEncodeGivesTheLowBytes :
    (∀ n ∈ [(1 : Byte), 5], 1 ≤ n.toNat ∧ n.toNat ≤ 5) ∧ ∀ n ∈ [(0 : Byte), 6, 255], ¬(1 ≤ n.toNat ∧ n.toNat ≤ 5) := by
  decide

theorem witness_AddrDecodeAssemblesTheBytes :
    (∀ p ∈ [((1 : Byte), ([0x9A] : Bytes)), (5, [1, 2, 3, 4, 5])],
        p.2.length = p.1.toNat ∧ 1 ≤ p.1.toNat ∧ p.1.toNat ≤ 5) ∧
      ∀ p ∈ [((0 : Byte), ([] : Bytes)), (6, [1, 2, 3, 4, 5, 6])],
        p.2.length = p.1.toNat ∧ ¬(1 ≤ p.1.toNat ∧ p.1.toNat ≤ 5) := by decide

theorem witness_CodecLaws :
    ([1, 2, 3, 4, 5] : Bytes).length = 5 ∧ (1 ≤ 1 ∧ 1 ≤ 5) ∧ (1 ≤ 5 ∧ 5 ≤ 5) ∧ enc 7 5 = enc 7 5 := by decide

theorem witness_ParsingAnAddressTextGivesTheAddress :
    (0xF0F0F0F001 : Addr) ≠ 0 ∧ (10 : Byte).toNat = 10 + ([] : Bytes).length ∧
      (12 : Byte).toNat = 10 + ([0x61, 0x62] : Bytes).length := by decide

/-- Each clause: nine characters; a tenth character that is no hex digit; ten digits of both cases. -/
theorem witness_AddrParseReadsTenHexDigits :
    ((List.replicate 9 0x30 : Bytes).length = (9 : Byte).toNat ∧ (9 : Byte).toNat < 10) ∧
      ((List.replicate 9 0x30 ++ [0x67] : Bytes).length = (10 : Byte).toNat ∧
        ∃ i ch, i < 10 ∧ (List.replicate 9 0x30 ++ [0x67] : Bytes)[i]? = some ch ∧ ∀ n, ¬hexDigitOf ch n) ∧
      (List.replicate 9 0x30 ++ [0x66, 0x7A] : Bytes).length = (11 : Byte).toNat ∧
        (List.replicate 9 0 ++ [15]).length = 10 ∧
        (∀ (i n : Nat), (List.replicate 9 0 ++ [15])[i]? = some n →
          ∃ ch, (List.replicate 9 0x30 ++ [0x66, 0x7A] : Bytes)[i]? = some ch ∧ hexDigitOf ch n) ∧
      hexDigitOf 0x39 9 ∧ hexDigitOf 0x61 10 ∧ hexDigitOf 0x41 10 ∧ hexDigitOf 0x46 15 := by
  refine ⟨by decide, ⟨by decide, 9, 0x67, by decide, rfl, fun n h => ?_⟩, by decide, by decide, fun i n h => ?_,
    by unfold hexDigitOf; decide, by unfold hexDigitOf; decide, by unfold hexDigitOf; decide, by unfold hexDigitOf; decide⟩
  · unfold hexDigitOf at h
    revert h
    simp
  · have hi : i < 10 := (List.getElem?_eq_some_iff.1 h).1
    have all : ∀ j : Fin 10, ∃ ch, (List.replicate 9 0x30 ++ [0x66, 0x7A] : Bytes)[j.val]? = some ch ∧
        ((List.replicate 9 0 ++ [15])[j.val]? = some 0 ∧ ch = 0x30 ∨ (List.replicate 9 0 ++ [15])[j.val]? = some 15 ∧ ch = 0x66) := by
      decide
    obtain ⟨ch, h1, ⟨h2, rfl⟩ | ⟨h2, rfl⟩⟩ := all ⟨i, hi⟩
    · exact ⟨_, h1, .inl (by rw [h] at h2; cases h2; decide)⟩
    · exact ⟨_, h1, .inr (.inl (by rw [h] at h2; cases h2; decide))⟩

theorem witness_PowerUpAndDownDriveTheLine : (fresh []).isOpen = true ∧ closed.isOpen = false := by decide

theorem witness_StartAndStopRadioWritePowerUp :
    (fresh []).cfg.Valid ∧ (fresh []).isOpen = true ∧ closed.cfg.Valid ∧ closed.isOpen = false := witness_open_and_closed

theorem witness_StartAndStopRxMoveTheLineThenTheRole :
    (fresh []).cfg.Valid ∧ (fresh []).isOpen = true ∧ closed.cfg.Valid ∧ closed.isOpen = false := witness_open_and_closed

/-- Standby with PRIM_RX clear: POWER_UP leads to Transmitting (V4-9), START_RX to Listening, TX to Standby. -/
theorem witness_PowerTransitionTable :
    (start false (some 0x0A) [[0x0E, 0x0A]]).cfg.Valid ∧ (start false (some 0x0A) [[0x0E, 0x0A]]).cfg.RegistersDistinct ∧
      (∀ p ∈ [(Instr.powerUp, PowerState.transmitting), (.powerDown, .standby), (.startRadio, .standby),
          (.stopRadio, .poweredDown), (.startRx, .listening), (.stopRx, .standby), (.tx 0 [], .standby)],
        operandFault testCfg p.1 = none ∧
          powerTable p.1 (start false (some 0x0A) [[0x0E, 0x0A]]).power false (decide ((0x0A : Byte) &&& testCfg.cfgPrimRx ≠ 0#8)) =
            some p.2) ∧
      ((start false (some 0x0A) [[0x0E, 0x0A]]).answers.headD [])[1]? = some 0x0A ∧
      (fresh []).isOpen = true ∧ (fresh []).cfgsh = none := ⟨testCfg_valid, testCfg_distinct, by decide, by decide, rfl, rfl⟩

theorem witness_RxReadyTestsTheFifoField :
    (fresh []).cfg.Valid ∧ (fresh []).isOpen = true ∧ closed.cfg.Valid ∧ closed.isOpen = false := witness_open_and_closed

/-- Every path has an answer that takes it: empty, 33 bytes reported, 32 and 0 bytes reported. -/
theorem witness_RxDynReceivesOnePayload :
    (fresh []).cfg.Valid ∧ (fresh []).cfg.RegistersDistinct ∧ 33 ≤ (fresh []).cfg.rxbufCap ∧ (fresh []).isOpen = true ∧
      byteAt [0x0E, 0x0E] 1 &&& testCfg.stRxEmptyField = testCfg.stRxEmptyField ∧
      byteAt [0x42, 0x42] 1 &&& testCfg.stRxEmptyField ≠ testCfg.stRxEmptyField ∧
      32 < (byteAt [0x42, 0x21] 1).toNat ∧ (byteAt [0x42, 0x20] 1).toNat ≤ 32 ∧ (byteAt [0x42, 0x00] 1).toNat ≤ 32 :=
  ⟨testCfg_valid, testCfg_distinct, by decide, rfl, by decide, by decide, by decide, by decide, by decide⟩

theorem witness_RxDynNeverReturnsMoreThan32 :
    ∃ t, exec .rxDyn (fresh [[0x42, 0x42], [0x42, 0x20]]) = .next t ∧
      t.results = (fresh [[0x42, 0x42], [0x42, 0x20]]).results ++ [{ done := true, len := some 0x20 }] :=
  ⟨_, rfl, by decide⟩

theorem witness_RxFixedReceivesAConstantLength :
    (fresh []).cfg.Valid ∧ (fresh []).cfg.RegistersDistinct ∧ (fresh []).cfg.fixedLen.val ≤ (fresh []).cfg.rxbufCap ∧
      (fresh []).isOpen = true ∧ (fresh []).cfg.fixedRxClear = true ∧
      byteAt [0x0E, 0x0E] 1 &&& testCfg.stRxEmptyField = testCfg.stRxEmptyField ∧
      byteAt [0x42, 0x42] 1 &&& testCfg.stRxEmptyField ≠ testCfg.stRxEmptyField :=
  ⟨testCfg_valid, testCfg_distinct, by decide, rfl, rfl, by decide, by decide⟩

/-- FIXED_RX_CLEAR = 0 is valid too. -/
theorem witness_RxFixed_without_clear :
    Cfg.Valid { testCfg with fixedRxClear := false } ∧ Cfg.RegistersDistinct { testCfg with fixedRxClear := false } :=
  ⟨⟨by decide, by decide, by decide, by decide, by decide, by decide⟩, by decide⟩

theorem witness_TxEndsInOneOfThreeWays :
    (fresh []).cfg.Valid ∧ (fresh []).cfg.RegistersDistinct ∧ (fresh []).isOpen = true ∧
      (([] : Bytes).length = (0 : Byte).toNat ∧ (0 : Byte).toNat ≤ 32) ∧
      ((List.replicate 32 0xA5 : Bytes).length = (32 : Byte).toNat ∧ (32 : Byte).toNat ≤ 32) ∧
      ((List.replicate 33 0xA5 : Bytes).length = (33 : Byte).toNat ∧ 32 < (33 : Byte).toNat) ∧ closed.isOpen = false :=
  ⟨testCfg_valid, testCfg_distinct, rfl, by decide, by decide, by decide, rfl⟩

theorem witness_TxEventCounts :
    (fresh [[], [], [0x2E, 0x2E]]).cfg.Valid ∧ (fresh [[], [], [0x2E, 0x2E]]).cfg.RegistersDistinct ∧
      (fresh [[], [], [0x2E, 0x2E]]).isOpen = true ∧ ([0x55] : Bytes).length = (1 : Byte).toNat ∧ (1 : Byte).toNat ≤ 32 ∧
      ∃ t, exec (.tx 1 [0x55]) (fresh [[], [], [0x2E, 0x2E]]) = .next t :=
  ⟨testCfg_valid, testCfg_distinct, rfl, by decide, by decide, _, rfl⟩

theorem witness_FlushesSendOneByte :
    (fresh []).cfg.Valid ∧ (fresh []).isOpen = true ∧ closed.cfg.Valid ∧ closed.isOpen = false := witness_open_and_closed

/-- RX_DYN on the payload path writes RX_DR to STATUS. -/
theorem witness_StatusClearsWriteOneFlag :
    testCfg.Valid ∧ testCfg.RegistersDistinct ∧ Instr.rxDyn.port = .request ∧
      (∀ reg val, Instr.rxDyn ≠ .writeReg reg val) ∧
      ∃ t evs r, exec .rxDyn (fresh [[0x42, 0x42], [0x42, 0x00], [0x42], [0x42, 0x00]]) = .next t ∧
        t.hist = (fresh [[0x42, 0x42], [0x42, 0x00], [0x42], [0x42, 0x00]]).hist ++ evs ∧
        Event.xchg [wrcmd testCfg testCfg.regStatus, 0x40] r ∈ evs :=
  ⟨testCfg_valid, testCfg_distinct, rfl, by simp, _,
    [.xchg [0x07, 0xFF] [0x42, 0x42], .xchg [0x60, 0xFF] [0x42, 0x00], .xchg [0x61] [0x42], .xchg [0x27, 0x40] [0x42, 0x00]],
    [0x42, 0x00], rfl, by decide, by decide⟩

theorem witness_InitProgramsTheChip :
    (fresh []).cfg.Valid ∧ (fresh []).cfg.RegistersDistinct ∧ (fresh []).isOpen = true ∧ closed.isOpen = false :=
  ⟨testCfg_valid, testCfg_distinct, rfl, rfl⟩

/-- A state with a receive buffer of `cap` bytes. -/
def withCap (cap : Nat) : State := { fresh [] with cfg := { testCfg with rxbufCap := cap } }

theorem witness_small_buffers :
    (withCap 32).cfg.rxbufCap < 33 ∧ (withCap 3).cfg.rxbufCap < (withCap 3).cfg.fixedLen.val ∧
      33 ≤ closed.cfg.rxbufCap ∧ closed.cfg.fixedLen.val ≤ closed.cfg.rxbufCap ∧ closed.isOpen = false := by decide

theorem witness_RxLoopReturnsThePayloadsRead :
    (fresh []).cfg.Valid ∧ (fresh []).cfg.RegistersDistinct ∧ 33 ≤ (fresh []).cfg.rxbufCap ∧ (fresh []).isOpen = true ∧
      (withCap 32).cfg.rxbufCap < 33 ∧ 33 ≤ closed.cfg.rxbufCap ∧ closed.isOpen = false :=
  ⟨testCfg_valid, testCfg_distinct, by decide, rfl, by decide, by decide, rfl⟩

theorem witness_ShutdownReleasesTheBus :
    (fresh []).cfg.Valid ∧ (fresh []).isOpen = true ∧ closed.cfg.Valid ∧ closed.isOpen = false := witness_open_and_closed

theorem witness_ReservedOpsAreIllegalRequests :
    (0x00 : Byte) = 0x00#8 ∧ 0x18#8 ≤ (0x18 : Byte) ∧ 0x18#8 ≤ (0xFF : Byte) := by decide

theorem witness_BusReadCommandsMakeOneExchange :
    (fresh []).cfg.Valid ∧ (fresh []).isOpen = true ∧ 0 ≤ 32 ∧ 32 ≤ 32 := ⟨testCfg_valid, rfl, by decide, by decide⟩

theorem witness_BusWriteCommandsMakeOneExchange :
    (fresh []).cfg.Valid ∧ (fresh []).isOpen = true ∧ ([0x0B] : Bytes).length = 1 ∧
      ([1, 2, 3, 4, 5] : Bytes).length = 5 ∧ (List.replicate 32 0 : Bytes).length ≤ 32 :=
  ⟨testCfg_valid, rfl, by decide, by decide, by decide⟩

theorem witness_ClosedBusRefusesEveryBusRequest :
    busOp (.tx 32 []) = some 0x11 ∧ operandFault closed.cfg (.tx 32 []) = none ∧ closed.isOpen = false ∧
      closed.fault = none := by decide

theorem witness_OperandChecksComeBeforeTheBusCheck :
    operandFault closed.cfg (.addrEncode 6 1) = some ⟨.width, 6⟩ ∧ operandFault closed.cfg (.addrDecode 0 []) = some ⟨.width, 0⟩ ∧
      operandFault closed.cfg (.readAddr 0x07) = some ⟨.addrReg, 0x07⟩ ∧
      operandFault closed.cfg (.writeAddr 0x00 1) = some ⟨.addrReg, 0x00⟩ ∧
      operandFault closed.cfg (.tx 33 []) = some ⟨.payloadLen, 33⟩ ∧
      operandFault { testCfg with rxbufCap := 32 } .rxDyn = some ⟨.rxbuf, 33⟩ ∧
      operandFault { testCfg with rxbufCap := 32 } (.rxLoop 0) = some ⟨.rxbuf, 33⟩ ∧
      operandFault { testCfg with rxbufCap := 3 } .rxFixed = some ⟨.rxbuf, 4⟩ := by decide

theorem witness_EveryRequestCompletesOrFaultsPrecisely :
    (Instr.readReg 0x07).port = .request ∧ (fresh []).fault = none ∧ closed.fault = none := by decide

theorem witness_FaultsComeFromTheTable :
    (fresh []).fault = none ∧
      (∃ t, exec (.addrEncode 0 1) (fresh []) = .next t ∧ t.fault = some ⟨.width, 0⟩) ∧
      (∃ t, exec (.readReg 7) closed = .next t ∧ t.fault = some ⟨.busClosed, 1⟩) ∧
      ∃ t, exec (.reserved 0x18 []) (fresh []) = .next t ∧ t.fault = some ⟨.illegalReq, 0x18⟩ :=
  ⟨rfl, ⟨_, rfl, by decide⟩, ⟨_, rfl, by decide⟩, ⟨_, rfl, by decide⟩⟩

theorem witness_EveryStepKeepsTheInvariant :
    (waiting [0x01, 0x07]).Inv ∧ ∃ t, step (waiting [0x01, 0x07]) = .next t ∧ t.pc = 1 :=
  ⟨⟨testCfg_valid, rfl, rfl, (fun e h => by cases h), List.Pairwise.nil, (fun a h => by cases h), rfl, rfl⟩, _, rfl,
    by decide⟩

theorem witness_TheHistoryOnlyGrows : ∃ t, step (waiting [0x12]) = .next t ∧ t.hist.length = 1 := ⟨_, rfl, by decide⟩

theorem witness_NoStepChangesTheConfigurationOrTheRequests : ∃ t, step (waiting [0x12]) = .next t := ⟨_, rfl⟩

theorem witness_OutputAndShadowFollowTheEvents :
    ∃ t, exec (.writeReg 0x00 0x0B) (fresh []) = .next t ∧ t.cfgsh = some 0x0B := ⟨_, rfl, by decide⟩

theorem witness_OnlyPowerRequestsTouchChipEnable :
    (∃ t, exec .startRadio (fresh []) = .next t) ∧ (∀ cnt, Instr.startRadio ≠ .rxLoop cnt) ∧
      (∀ len d, Instr.startRadio ≠ .tx len d) ∧
      Instr.startRadio ∉ [Instr.powerUp, .powerDown, .startRx, .stopRx] :=
  ⟨⟨_, rfl⟩, by simp, by simp, by decide⟩

theorem witness_OnlyShutdownClosesTheBus :
    (∃ t, exec .shutdown (fresh []) = .next t ∧ t.isOpen = false) ∧ ∃ t, exec .flushTx (fresh []) = .next t ∧ t.isOpen = true :=
  ⟨⟨_, rfl, by decide⟩, ⟨_, rfl, by decide⟩⟩

theorem witness_AClosedBlockIsSilent :
    closed.isOpen = false ∧ ∃ t, step { closed with stream := [[0x17, 1, 0, 0, 0]] } = .next t ∧ t.hist.length = 1 :=
  ⟨rfl, _, rfl, by decide⟩

/-- START_RX, and INIT with the default delays, from a quiet settle state. -/
theorem witness_RequestsKeepTheSettleContract :
    (fresh []).cfg.Valid ∧ (fresh []).cfg.RegistersDistinct ∧ Instr.startRx.port = .request ∧
      (⟨none, false, false, none⟩ : Settle).quiet = true ∧
      (∀ reg val, Instr.startRx ≠ .writeReg reg val) ∧ (∀ reg val, Instr.init 1 2 3 4 ≠ .writeReg reg val) ∧
      (fresh []).cfg.tRx ≤ (fresh []).cfg.tRadio ∧
      (∃ t, exec .startRx (fresh []) = .next t) ∧ ∃ t, exec (.init 1 2 3 4) (fresh []) = .next t :=
  ⟨testCfg_valid, testCfg_distinct, rfl, rfl, by simp, by simp, by decide, ⟨_, rfl⟩, _, rfl⟩

theorem witness_EventsAreBounded : ∃ t, exec .startRx (fresh []) = .next t ∧ t.hist.length = 5 := ⟨_, rfl, by decide⟩

/-- A chip of the contract: CONFIG and STATUS as given, the other registers zero, `rx` received, a transmit FIFO of
three. -/
def chip (config status : Byte) (rx : List Bytes) : Chip where
  content m :=
    if m = testCfg.regConfig then [config]
    else if m = testCfg.regStatus then [status] else List.replicate (registerWidth testCfg m) 0
  txFifo := []
  rxFifo := rx
  txDepth := 3

theorem chip_ok (config status : Byte) {rx : List Bytes} (h : ∀ p ∈ rx, p.length ≤ 32) :
    (chip config status rx).Ok testCfg where
  widths m := by
    simp only [chip]
    split
    · subst m; rfl
    · split
      · subst m; rfl
      · simp
  payloads := by simpa [chip] using h
  depth := by simp [chip]

/-- No delay is owed and CONFIG is not known. -/
def settled : Settle := ⟨none, false, false, none⟩

/-- CONFIG is written, the settle delay is waited out, and CONFIG is read back. -/
theorem witness_AConformingChipReadsBackConfig :
    let h := [Event.xchg [wrcmd testCfg testCfg.regConfig, 0x0B] [0x0E, 0x00], .wait (.micros 1500)]
    testCfg.Valid ∧ testCfg.RegistersDistinct ∧ (∀ e ∈ h, shaped testCfg e) ∧
      (∀ b a, Event.xchg b a ∈ h → b.head? = some (wrcmd testCfg testCfg.regConfig) → b.length = 2) ∧
      (∀ b a (m : RegAddr), Event.xchg b a ∈ h → 0x1D < m.toNat → b.head? ≠ some (wrcmd testCfg m)) ∧
      (settled.afterAll testCfg h).quiet = true ∧
      Conforms testCfg settled (chip 0x08 0x0E [])
        (h ++ [.xchg [rdcmd testCfg testCfg.regConfig, testCfg.cmdNop] [0x0E, 0x0B]]) ∧
      shadowOf testCfg h = some 0x0B := by
  have k := fun v => chip_ok v 0x0E (rx := []) (by simp)
  refine ⟨testCfg_valid, testCfg_distinct, ?_, fun b a h _ => ?_, fun b a m h hm => ?_, by decide, ?_, by decide⟩
  · simp only [List.forall_mem_cons, List.not_mem_nil, false_implies, implies_true, and_true, shaped]
    exact ⟨by decide, _, decodeBus_write testCfg_valid _ _, by simp⟩
  · simp only [List.mem_cons, List.not_mem_nil, or_false, Event.xchg.injEq, reduceCtorEq] at h
    rw [h.1]
    rfl
  · simp only [List.mem_cons, List.not_mem_nil, or_false, Event.xchg.injEq, reduceCtorEq] at h
    rw [h.1, List.head?_cons]
    intro e
    rw [Option.some.injEq, wrcmd_inj testCfg_valid] at e
    subst e
    revert hm
    decide
  · refine ⟨_, _, Chip.drift_refl (k 0x08), Chip.answers_write testCfg_valid _ _ rfl _ _,
      (Chip.after_write_iff testCfg_valid (k' := chip 0x0B 0x0E []) (by decide) _).2
        ⟨k 0x0B, rfl, fun m hm => ?_, by rw [writtenContent, if_neg (by decide)]; exact fun _ => rfl, rfl, rfl⟩,
      _, _, Chip.drift_refl (k 0x0B), Chip.answers_read testCfg_valid rfl rfl _,
      (Chip.after_read_iff testCfg_valid _).2 ⟨k 0x0B, rfl⟩, trivial⟩
    simp [chip, hm]

/-- All three flags are set and TX_DS is cleared: the other two stay. -/
theorem witness_AConformingChipKeepsItsFlags :
    testCfg.Valid ∧ testCfg.RegistersDistinct ∧ settled.quiet = true ∧
      Conforms testCfg settled (chip 0x0E 0x7E [])
        [.xchg [rdcmd testCfg testCfg.regStatus, testCfg.cmdNop] [0x7E, 0x7E],
          .xchg [wrcmd testCfg testCfg.regStatus, 0x20] [0x7E, 0x00],
          .xchg [rdcmd testCfg testCfg.regStatus, testCfg.cmdNop] [0x5E, 0x5E]] := by
  have k := fun v => chip_ok 0x0E v (rx := []) (by simp)
  refine ⟨testCfg_valid, testCfg_distinct, rfl,
    _, _, Chip.drift_refl (k 0x7E), Chip.answers_read testCfg_valid rfl rfl _,
    (Chip.after_read_iff testCfg_valid _).2 ⟨k 0x7E, rfl⟩,
    _, _, Chip.drift_refl (k 0x7E), Chip.answers_write testCfg_valid _ _ rfl _ _,
    (Chip.after_write_iff testCfg_valid (k' := chip 0x0E 0x5E []) (by decide) _).2
      ⟨k 0x5E, rfl, fun m hm => ?_, by simp [writtenContent, chip]; decide, rfl, rfl⟩,
    _, _, Chip.drift_refl (k 0x5E), Chip.answers_read testCfg_valid rfl rfl _,
    (Chip.after_read_iff testCfg_valid _).2 ⟨k 0x5E, rfl⟩, trivial⟩
  simp [chip, hm]

/-- Two payloads wait; the older one is reported and read. -/
theorem witness_AConformingChipDeliversItsOldestPayload :
    testCfg.Valid ∧ (chip 0x0F 0x40 [[0xAA, 0x55], [0x01]]).rxFifo = [0xAA, 0x55] :: [[0x01]] ∧
      Conforms testCfg settled (chip 0x0F 0x40 [[0xAA, 0x55], [0x01]])
        [.xchg [testCfg.cmdRRxPlWid, testCfg.cmdNop] [0x40, 0x02],
          .xchg (testCfg.cmdRRxPayload :: List.replicate ([0xAA, 0x55] : Bytes).length testCfg.cmdNop)
            [0x40, 0xAA, 0x55]] := by
  have k : (chip 0x0F 0x40 [[0xAA, 0x55], [0x01]]).Ok testCfg := chip_ok _ _ (by decide)
  have h1 : decodeBus testCfg [testCfg.cmdRRxPlWid, testCfg.cmdNop] = some .busRRxPlWid := by decide
  have h2 : decodeBus testCfg [testCfg.cmdRRxPayload, testCfg.cmdNop, testCfg.cmdNop] = some (.busRRxPayload 2) := by
    decide
  refine ⟨testCfg_valid, rfl, _, chip 0x0F 0x40 [[0xAA, 0x55], [0x01]], Chip.drift_refl k, ⟨rfl, fun _ => ⟨?_, ?_, ?_, ?_⟩⟩,
    ⟨k, rfl, by simp [h1]⟩, _, chip 0x0F 0x40 [[0x01]], Chip.drift_refl k, ⟨rfl, fun _ => ⟨?_, ?_, ?_, ?_⟩⟩,
    ⟨chip_ok _ _ (by decide), rfl, by simp [h2, chip]⟩, trivial⟩
  · exact fun x hx _ => hx
  · intro m _ _ hb
    exact absurd (by simpa using hb) (fixed_ne_rdcmd testCfg_valid (plWid_mem _) m)
  · intro p ps hp _ _
    cases hp
    rfl
  · intro _ _ _ _ _ hb
    exact absurd hb (by decide)
  · exact fun x hx _ => hx
  · intro m _ _ hb
    exact absurd (by simpa using hb) (fixed_ne_rdcmd testCfg_valid (rxPayload_mem _) m)
  · intro _ _ _ hb
    exact absurd hb (by decide)
  · intro p ps i x hp _ hx _
    cases hp
    simpa using hx

/-- The chip clauses of the two statements on writing STATUS and on the flushes. -/
theorem witness_chip_clauses :
    (∃ k, (chip 0x0E 0x7E []).after testCfg [wrcmd testCfg testCfg.regStatus, 0x20] k ∧
        k.content testCfg.regStatus = [0x5E]) ∧
      (chip 0x0E 0x7E [[0x01]]).after testCfg [testCfg.cmdFlushTx] (chip 0x0E 0x7E [[0x01]]) ∧
      (chip 0x0E 0x7E [[0x01]]).after testCfg [testCfg.cmdFlushRx] (chip 0x0E 0x7E []) := by
  have h1 : decodeBus testCfg [testCfg.cmdFlushTx] = some .busFlushTx := by decide
  have h2 : decodeBus testCfg [testCfg.cmdFlushRx] = some .busFlushRx := by decide
  refine ⟨⟨chip 0x0E 0x5E [], (Chip.after_write_iff testCfg_valid (by decide) _).2
      ⟨chip_ok _ _ (by simp), rfl, fun m hm => by simp [chip, hm], by simp [writtenContent, chip]; decide, rfl, rfl⟩, rfl⟩,
    ⟨chip_ok _ _ (by decide), rfl, by simp [h1, chip]⟩, chip_ok _ _ (by simp), rfl, by simp [h2, chip]⟩

theorem witness_BufferWritesAreReadBack :
    Memory.wf [(1, 0xAA), (5, 0x55)] ∧ (0 ≤ 1 ∧ 1 < 0 + ([0x01, 0x02] : Bytes).length) ∧
      ¬(0 ≤ 2 ∧ 2 < 0 + ([0x01, 0x02] : Bytes).length) := by decide

theorem witness_OnlyReceivesWriteTheBuffer :
    Instr.rxReady ≠ .rxDyn ∧ Instr.rxReady ≠ .rxFixed ∧ (∀ cnt, Instr.rxReady ≠ .rxLoop cnt) ∧
      ∃ t, exec .rxReady (fresh []) = .next t := ⟨by decide, by decide, by simp, _, rfl⟩

theorem witness_ReceivesWriteOnlyTheirBytes :
    33 ≤ 33 ∧ (∃ t, exec .rxDyn (fresh []) = .next t) ∧ (∃ t, exec (.rxLoop 1) (fresh []) = .next t) ∧
      (fresh []).cfg.fixedLen.val ≤ 4 ∧ ∃ t, exec .rxFixed (fresh []) = .next t :=
  ⟨le_refl _, ⟨_, rfl⟩, ⟨_, rfl⟩, by decide, ⟨_, rfl⟩⟩

end Sys2Proof.Tests
end

section
/-! Proofs about the request port (30_encoding.md R94, R109): what a request that was decoded had as its length, which
request a step takes, and how every request ends. -/

/-! ### Operands and lengths -/

namespace Sys2Proof

theorem plain_length {i j : Instr} {rest : Bytes} (h : plain i rest = some j) : rest.length = 0 := by
  unfold plain at h
  split at h
  · rfl
  · cases h

theorem oneByte_length {make : Byte → Instr} {rest : Bytes} {i : Instr} (h : oneByte make rest = some i) :
    rest.length = 1 := by
  unfold oneByte at h
  split at h
  · rfl
  · cases h

theorem twoBytes_length {make : Byte → Byte → Instr} {rest : Bytes} {i : Instr} (h : twoBytes make rest = some i) :
    rest.length = 2 := by
  unfold twoBytes at h
  split at h
  · rfl
  · cases h

theorem withAddr_length {make : Byte → Addr → Instr} {rest : Bytes} {i : Instr} (h : withAddr make rest = some i) :
    rest.length = 6 := by
  unfold withAddr at h
  split at h
  · rfl
  · cases h

theorem initOperands_length {rest : Bytes} {i : Instr} (h : initOperands rest = some i) : rest.length = 12 := by
  unfold initOperands at h
  split at h
  · rfl
  · cases h

theorem numeral_length {size : Nat} {make : Nat → Instr} {rest : Bytes} {i : Instr}
    (h : numeral size make rest = some i) : rest.length = size := by
  unfold numeral at h
  split at h
  · assumption
  · cases h

/-- 30_encoding.md R95: byte 1 counts the bytes after it. -/
theorem counted_length {make : Byte → Bytes → Instr} {rest : Bytes} {i : Instr} (h : counted make rest = some i) :
    rest.length + 1 = 2 + (rest.headD 0).toNat := by
  cases rest with
  | nil => cases h
  | cons n s =>
    by_cases hs : s.length = n.toNat
    · simp only [List.length_cons, List.headD_cons, hs]
      omega
    · simp [counted, hs] at h

/-- A row reads its operands only from a request of its format's length (30_encoding.md R91, R94, R95). -/
theorem Op.operands_length {o : Op} {rest : Bytes} {i : Instr} (h : o.operands rest = some i) :
    rest.length + 1 = formatLength o.format (rest.headD 0) := by
  cases o with
  | readReg | readAddr => exact congrArg (· + 1) (oneByte_length h)
  | writeReg => exact congrArg (· + 1) (twoBytes_length h)
  | writeAddr | addrEncode => exact congrArg (· + 1) (withAddr_length h)
  | addrDecode | addrParse | tx => exact counted_length h
  | init => exact congrArg (· + 1) (initOperands_length h)
  | rxLoop | wait =>
    rw [Op.operands] at h
    exact congrArg (· + 1) (numeral_length h)
  | powerUp | powerDown | startRadio | stopRadio | startRx | stopRx | rxReady | rxDyn | rxFixed | flushTx | flushRx
  | shutdown => exact congrArg (· + 1) (plain_length h)

/-- 30_encoding.md R94, the reserved row. -/
theorem decode_reserved {op : Byte} (h : op = 0x00#8 ∨ 0x18#8 ≤ op) (rest : Bytes) :
    decode (op :: rest) = .ok (.reserved op rest) := by
  have hr : reservedOp op = true := by simpa [reservedOp] using h
  rw [decode, (reservedOp_iff op).1 hr]

/-- 30_encoding.md R94, a length that is not the format's. -/
theorem decode_badLength {op : Byte} {rest : Bytes} {f : Format} (hf : opFormat op = some f)
    (hl : rest.length + 1 ≠ formatLength f (rest.headD 0)) : decode (op :: rest) = .error (.badLength op) := by
  obtain ⟨o, ho, rfl⟩ := Option.map_eq_some_iff.1 hf
  have hn : o.operands rest = none := Option.eq_none_iff_forall_ne_some.2 fun _ h => hl (Op.operands_length h)
  rw [decode, ho]
  simp only [hn]

end Sys2Proof

namespace Sys2Proof.Machine

/-! ### The request a step takes (40_register_access.md R127) -/

section
variable {s : State} {q : Bytes} (hf : s.fault = none) (hb : s.busq = []) (hq : s.stream[s.pc]? = some q)
include hf hb hq

theorem fetch_request : fetch s = fetchAt .request q s := by
  unfold fetch
  simp only [hf, hb, hq]

theorem step_of_decode {i : Instr} (hd : decode q = .ok i) : step s = exec i s := by
  unfold step
  simp only [fetch_request hf hb hq, fetchAt, decodeAt, hd]

theorem step_of_badLength {op : Byte} (hd : decode q = .error (.badLength op)) :
    step s = .next (s.faulted .illegalReq op.toNat) := by
  unfold step
  simp only [fetch_request hf hb hq, fetchAt, decodeAt, hd, State.raise_eq_faulted]

end

theorem exec_reserved (op : Byte) (rest : Bytes) (s : State) :
    exec (.reserved op rest) s = .next (s.faulted .illegalReq op.toNat) := rfl

/-! ### How a request ends -/

/-- What a completed request leaves of the fault, `pc` and the results: the body touches none of them. -/
theorem Completes.result {i : Instr} {s t : State} (h : Completes i s t) :
    t.fault = s.fault ∧ t.pc = s.pc + 1 ∧
      ∃ r, t.results = s.results ++ [r] ∧ r.done = true ∧ r.fields = rowFields i := by
  obtain ⟨n, u, r, -, hdone, hfields, hrun, -, rfl⟩ := h
  obtain ⟨-, -, -, -, hfault, hpc, hresults⟩ := hrun.frame
  exact ⟨hfault, congrArg (· + 1) hpc, r, congrArg (· ++ [r]) hresults, hdone, hfields⟩

/-- A request completes or faults; the other ways to end are those of the bus commands. -/
theorem Ends.request_cases {i : Instr} {s t : State} (h : Ends i s t) (hp : i.port = .request) :
    Completes i s t ∨ ∃ kind info, t = s.faulted kind info := by
  cases h with
  | operand f => exact .inr ⟨_, _, rfl⟩
  | closed n => exact .inr ⟨_, _, rfl⟩
  | reserved op rest => exact .inr ⟨_, _, rfl⟩
  | completes _ _ _ _ hc => exact .inl hc
  | exchange b hbus => simp [hp] at hbus
  | nothing hi => simp [hi, Instr.port] at hp

/-! ### The obligations -/

/-- Settles O42: every instruction ends in one of the ways of `Ends`, and a request in a completion or a fault. -/
theorem everyRequestCompletesOrFaultsPrecisely : Obligations.EveryRequestCompletesOrFaultsPrecisely := by
  intro i s hp hf
  obtain ⟨t, ht, hends⟩ := exec_ends i s
  refine ⟨t, ht, (hends.request_cases hp).imp_left fun hc => ?_⟩
  obtain ⟨hfault, hrest⟩ := hc.result
  exact ⟨hfault.trans hf, hrest⟩

/-- Settles O5: a reserved op decodes to the reserved row, which raises the fault; a wrong length fails to decode. -/
theorem illegalRequestsRaiseTheFault : Obligations.IllegalRequestsRaiseTheFault := by
  intro s op rest hf hb hq h
  rcases or_assoc.2 h with hres | ⟨f, hfmt, hlen⟩
  · rw [step_of_decode hf hb hq (decode_reserved hres rest), exec_reserved]
  · exact step_of_badLength hf hb hq (decode_badLength hfmt hlen)

end Sys2Proof.Machine
end

section
/-! Proofs about register access (40_register_access.md): which of its ways of `Ends` a request takes when its operand
check fails or the bus is closed, and READ_REG, WRITE_REG, READ_ADDR and WRITE_ADDR on an open bus. -/

namespace Sys2Proof

/-- A row's op byte before operands that fit it decodes to the row's request (30_encoding.md R91, R93). -/
theorem decode_of_operands {o : Op} {rest : Bytes} {i : Instr} (h : o.operands rest = some i) :
    decode (o.code :: rest) = .ok i := by
  rw [decode, Op.ofByte_code]
  simp only [h]

end Sys2Proof

namespace Sys2Proof.Machine

/-! ### The operand check and the closed bus, for every instruction (40_register_access.md R124) -/

theorem busOp_of_bus {i : Instr} (h : i.port = .bus) : busOp i = none := by
  cases i with
  | busRRegister | busWRegister | busRRxPlWid | busRRxPayload | busWTxPayload | busFlushTx | busFlushRx | busNop => rfl
  | _ => cases h

theorem operandFault_of_bus {i : Instr} (h : i.port = .bus) (c : Cfg) : operandFault c i = none := by
  cases i with
  | busRRegister | busWRegister | busRRxPlWid | busRRxPayload | busWTxPayload | busFlushTx | busFlushRx | busNop => rfl
  | _ => cases h

/-- F_BUS_CLOSED is no operand check's fault (60_exceptions.md R240). -/
theorem operandFault_kind_ne_busClosed {c : Cfg} {i : Instr} {f : FaultRecord} (h : operandFault c i = some f) :
    f.kind ≠ .busClosed := by
  cases i with
  | addrEncode | addrDecode | readAddr | writeAddr | tx | rxDyn | rxLoop | rxFixed =>
    cases (Option.ite_none_right_eq_some.1 h).2
    simp
  | _ => cases h

/-- An operand that fails its check raises its fault (60_exceptions.md R241): every other way to end has the check
passed. -/
theorem exec_of_operandFault {i : Instr} {s : State} {f : FaultRecord} (h : operandFault s.cfg i = some f) :
    exec i s = .next (s.faulted f.kind f.info) := by
  obtain ⟨t, ht, hends⟩ := exec_ends i s
  rw [ht]
  cases hends with
  | operand f' hf => rw [Option.some.inj (h.symm.trans hf)]
  | closed _ _ _ _ hf | completes _ _ _ hf _ => cases h.symm.trans hf
  | reserved op rest hi => subst hi; cases h
  | exchange b hp => cases h.symm.trans (operandFault_of_bus hp s.cfg)
  | nothing hi => subst hi; cases h

/-- On a closed bus a request with a port event can end in F_BUS_CLOSED only, once its operand check passes. -/
theorem exec_of_closed {i : Instr} {op : Byte} {s : State} (hop : busOp i = some op)
    (hf : operandFault s.cfg i = none) (hs : s.isOpen = false) :
    exec i s = .next (s.faulted .busClosed op.toNat) := by
  obtain ⟨t, ht, hends⟩ := exec_ends i s
  rw [ht]
  cases hends with
  | operand f h => cases hf.symm.trans h
  | closed n _ hn => rw [hn op hop]
  | reserved op' rest hi => subst hi; cases hop
  | completes _ _ ho => cases hs.symm.trans (ho (by simp [hop]))
  | exchange b hp => cases hop.symm.trans (busOp_of_bus hp)
  | nothing hi => subst hi; cases hop

/-- A request without a port event on the bus or the line does not raise F_BUS_CLOSED. -/
theorem Ends.fault_ne_busClosed {i : Instr} {s t : State} (h : Ends i s t) (hp : i.port = .request)
    (hb : busOp i = none) (hs : s.fault = none) (info : Nat) : t.fault ≠ some ⟨.busClosed, info⟩ := by
  cases h with
  | operand f hf =>
    intro e
    exact operandFault_kind_ne_busClosed hf (congrArg FaultRecord.kind (Option.some.inj e))
  | closed n _ _ hor => simp [hb, hp] at hor
  | reserved op rest => simp
  | completes _ _ _ _ hc => simp [hc.result.1, hs]
  | exchange b hbus => simp [hp] at hbus
  | nothing hi => simp [hi, Instr.port] at hp

/-! ### Requests of one or two exchanges -/

theorem readRegBody_complete {s : State} (hv : s.cfg.Valid) (m : RegAddr) (r : Result) :
    (readRegBody m s).complete r = s.did [.xchg (readRegBytes s.cfg m) (s.response (readRegBytes s.cfg m))] 1 r :=
  State.exchange_complete (shadowAfter_read hv _ m _) r

/-- A long address read (40_register_access.md R129) leaves the shadow. -/
theorem readLongBody_eq {s : State} (hv : s.cfg.Valid) (m : RegAddr) :
    readLongBody m s =
      { s with
        hist := s.hist ++ [.xchg (readLongBytes s.cfg m) (s.response (readLongBytes s.cfg m))]
        answers := s.answers.drop 1 } := by
  simp only [readLongBody, readLongBytes, State.exchange, shadowAfter_read hv]

theorem readLongBody_complete {s : State} (hv : s.cfg.Valid) (m : RegAddr) (r : Result) :
    (readLongBody m s).complete r = s.did [.xchg (readLongBytes s.cfg m) (s.response (readLongBytes s.cfg m))] 1 r :=
  State.complete_eq_did s _ _ 1 r (readLongBody_eq hv m)

/-- A 2-byte register write sets the shadow where the register is CONFIG (10_state.md R32). -/
theorem writeRegBody_complete {s : State} (hv : s.cfg.Valid) (m : RegAddr) (v : Byte) (r : Result) :
    (writeRegBody m v s).complete r =
      { s.did [.xchg [wrcmd s.cfg m, v] (s.response [wrcmd s.cfg m, v])] 1 r with
        cfgsh := if m = s.cfg.regConfig then some v else s.cfgsh } := by
  rw [writeRegBody_eq hv]
  rfl

/-- A long address read, then a register read: the short address of 40_register_access.md R128. -/
theorem readLong_readReg_complete {s : State} (hv : s.cfg.Valid) (p m : RegAddr) (r : Result) :
    (readRegBody m (readLongBody p s)).complete r =
      s.did [.xchg (readLongBytes s.cfg p) (s.response (readLongBytes s.cfg p)),
        .xchg (readRegBytes s.cfg m) ((readLongBody p s).response (readRegBytes s.cfg m))] 2 r := by
  rw [readRegBody_complete (s := readLongBody p s) hv]
  simp [readLongBody_eq hv, State.did]

/-- The address of a 6-byte read, byte by byte (40_register_access.md R129). -/
theorem readLongValue_eq (m : RegAddr) (s : State) :
    readLongValue m s =
      let r := s.response (readLongBytes s.cfg m)
      addrOf (byteAt r 1) (byteAt r 2) (byteAt r 3) (byteAt r 4) (byteAt r 5) :=
  dec_drop_one (by simp [readLongBytes, rep])

/-! ### Address classes (20_memory.md R63) -/

/-- The registers of class long. -/
def longRegs (c : Cfg) : List RegAddr := [c.regRxAddrP0, c.regRxAddrP1, c.regTxAddr]

/-- The registers of class short, where they are not long. -/
def shortRegs (c : Cfg) : List RegAddr := [c.regRxAddrP2, c.regRxAddrP3, c.regRxAddrP4, c.regRxAddrP5]

theorem mem_longRegs {c : Cfg} {m : RegAddr} :
    m ∈ longRegs c ↔ m = c.regRxAddrP0 ∨ m = c.regRxAddrP1 ∨ m = c.regTxAddr := by simp [longRegs]

theorem mem_shortRegs {c : Cfg} {m : RegAddr} :
    m ∈ shortRegs c ↔ m = c.regRxAddrP2 ∨ m = c.regRxAddrP3 ∨ m = c.regRxAddrP4 ∨ m = c.regRxAddrP5 := by
  simp [shortRegs]

theorem addrClass_eq (c : Cfg) (m : RegAddr) :
    addrClass c m = if m ∈ longRegs c then .long else if m ∈ shortRegs c then .short else .none := by
  simp only [addrClass, mem_longRegs, mem_shortRegs]

theorem addrClass_long_iff {c : Cfg} {m : RegAddr} : addrClass c m = .long ↔ m ∈ longRegs c := by
  rw [addrClass_eq]
  split_ifs <;> simp [*]

theorem addrClass_short {c : Cfg} {m : RegAddr} (hl : m ∉ longRegs c) (hs : m ∈ shortRegs c) :
    addrClass c m = .short := by
  rw [addrClass_eq, if_neg hl, if_pos hs]

theorem addrClass_none_iff {c : Cfg} {m : RegAddr} : addrClass c m = .none ↔ m ∉ longRegs c ++ shortRegs c := by
  rw [addrClass_eq, List.mem_append]
  split_ifs <;> simp [*]

/-- The address check of READ_ADDR and WRITE_ADDR passes exactly on the two classes (60_exceptions.md R240). -/
theorem addrClass_ne_none {c : Cfg} {m : RegAddr} (h : m ∈ longRegs c ++ shortRegs c) : addrClass c m ≠ .none :=
  fun e => addrClass_none_iff.1 e h

theorem shortRegs_ne_config {c : Cfg} (hd : c.RegistersDistinct) {m : RegAddr} (h : m ∈ shortRegs c) :
    m ≠ c.regConfig := by
  rintro rfl
  have hnot := (List.nodup_cons.1 hd).1
  simp only [List.mem_cons, not_or] at hnot
  simp [shortRegs, hnot] at h

/-! ### WRITE_ADDR's exchange (40_register_access.md R130, R131) -/

/-- The request bytes of WRITE_ADDR: five address bytes to a long register, the lowest to another. -/
def writeAddrBytes (c : Cfg) (m : RegAddr) (v : Addr) : Bytes :=
  wrcmd c m :: if m ∈ longRegs c then enc v 5 else [v.extractLsb' 0 8]

theorem writeAddrBody_eq (m : RegAddr) (v : Addr) (s : State) :
    writeAddrBody m v s = s.exchange (writeAddrBytes s.cfg m v) := by
  rw [writeAddrBody, writeAddrBytes]
  by_cases h : m ∈ longRegs s.cfg
  · rw [if_pos (addrClass_long_iff.2 h), if_pos h, writeLongBody]
  · rw [if_neg (mt addrClass_long_iff.1 h), if_neg h, writeRegBody, writeRegBytes,
      BitVec.setWidth_eq_extractLsb' (by decide)]

/-- A 6-byte write never sets the shadow; a 2-byte one does not, since a short register is not CONFIG. -/
theorem shadowAfter_writeAddr {c : Cfg} (hv : c.Valid) (hd : c.RegistersDistinct) {m : RegAddr}
    (hm : m ∈ longRegs c ++ shortRegs c) (v : Addr) (sh : Option Byte) :
    shadowAfter c sh (writeAddrBytes c m v) = sh := by
  by_cases hl : m ∈ longRegs c
  · exact shadowAfter_length (by simp [writeAddrBytes, hl, enc]) sh
  · have hs : m ∈ shortRegs c := (List.mem_append.1 hm).resolve_left hl
    have hne : wrcmd c m ≠ wrcmd c c.regConfig := mt (wrcmd_inj hv).1 (shortRegs_ne_config hd hs)
    exact shadowAfter_other hne sh _

/-! ### The four requests on an open bus -/

section
variable {s : State} (ho : s.isOpen = true)
include ho

theorem exec_readReg_open (hv : s.cfg.Valid) (reg : Byte) :
    exec (.readReg reg) s =
      let b := readRegBytes s.cfg (ma reg)
      .next (s.did [.xchg b (s.response b)] 1 { done := true, v8 := (s.response b)[1]? }) := by
  have hbyte : (s.response (readRegBytes s.cfg (ma reg)))[1]? = some (readRegValue (ma reg) s) :=
    getElem?_of_lt (by simp [readRegBytes])
  rw [exec, execReadReg, State.onBus_open ho, readRegBody_complete hv, ← hbyte]

theorem exec_writeReg_open (hv : s.cfg.Valid) (reg val : Byte) :
    exec (.writeReg reg val) s =
      let b := [wrcmd s.cfg (ma reg), val]
      .next { s.did [.xchg b (s.response b)] 1 { done := true } with
        cfgsh := if ma reg = s.cfg.regConfig then some val else s.cfgsh } := by
  rw [exec, execWriteReg, State.onBus_open ho, writeRegBody_complete hv]

theorem exec_readAddr_long (hv : s.cfg.Valid) {reg : Byte} (hl : ma reg ∈ longRegs s.cfg) :
    exec (.readAddr reg) s =
      let b := readLongBytes s.cfg (ma reg)
      let r := s.response b
      .next (s.did [.xchg b r] 1
        { done := true, v40 := some (addrOf (byteAt r 1) (byteAt r 2) (byteAt r 3) (byteAt r 4) (byteAt r 5)) }) := by
  rw [exec, execReadAddr, addrClass_long_iff.2 hl]
  dsimp only
  rw [State.onBus_open ho, readLongAddr, readLongBody_complete hv, readLongValue_eq]

theorem exec_readAddr_short (hv : s.cfg.Valid) {reg : Byte} (hl : ma reg ∉ longRegs s.cfg)
    (hs : ma reg ∈ shortRegs s.cfg) :
    exec (.readAddr reg) s =
      let b1 := readLongBytes s.cfg s.cfg.regRxAddrP1
      let b2 := readRegBytes s.cfg (ma reg)
      let r1 := s.response b1
      let r2 := (s.exchange b1).response b2
      .next (s.did [.xchg b1 r1, .xchg b2 r2] 2
        { done := true, v40 := some (addrOf (byteAt r2 1) (byteAt r1 2) (byteAt r1 3) (byteAt r1 4) (byteAt r1 5)) }) := by
  rw [exec, execReadAddr, addrClass_short hl hs]
  dsimp only
  rw [State.onBus_open ho, readShortAddr, readLong_readReg_complete hv, readLongValue_eq, compose_addrOf]
  rfl

theorem exec_writeAddr_open (hv : s.cfg.Valid) (hd : s.cfg.RegistersDistinct) {reg : Byte}
    (hm : ma reg ∈ longRegs s.cfg ++ shortRegs s.cfg) (v : Addr) :
    exec (.writeAddr reg v) s =
      let b := writeAddrBytes s.cfg (ma reg) v
      .next (s.did [.xchg b (s.response b)] 1 { done := true }) := by
  rw [exec, execWriteAddr, if_neg (addrClass_ne_none hm), State.onBus_open ho, writeAddrBody_eq,
    State.exchange_complete (shadowAfter_writeAddr hv hd hm v s.cfgsh)]

end

/-! ### The obligations -/

/-- Settles O40: of the ways a request can end, a closed bus leaves the one, and the four requests without a port
event have the others. -/
theorem closedBusRefusesEveryBusRequest : Obligations.ClosedBusRefusesEveryBusRequest := by
  refine ⟨fun i op s hop hf hs => exec_of_closed hop hf hs, fun i s hi hs => ?_⟩
  have hno : i.port = .request ∧ busOp i = none := by
    rcases hi with ⟨n, v, rfl⟩ | ⟨n, b, rfl⟩ | ⟨k, t, rfl⟩ | ⟨us, rfl⟩ <;> exact ⟨rfl, rfl⟩
  obtain ⟨t, ht, hends⟩ := exec_ends i s
  exact ⟨t, ht, hends.fault_ne_busClosed hno.1 hno.2 hs⟩

/-- Settles O11: the operand's command byte is `rdcmd` of its low 5 bits (20_memory.md R61, R62). -/
theorem readRegReturnsTheAnswerByte : Obligations.ReadRegReturnsTheAnswerByte := by
  intro reg s hv
  rw [← rdcmd_ma]
  exact ⟨decode_of_operands (o := .readReg) rfl, fun ho => ⟨_, s.response_drawn _, exec_readReg_open ho hv reg⟩,
    exec_of_closed (i := .readReg reg) (op := 0x01) rfl rfl⟩

/-- Settles O12: the shadow clause is the model's test on the masked register, and the chip clause the contract's
effect of a 2-byte write inside the register map. -/
theorem writeRegSendsTheValue : Obligations.WriteRegSendsTheValue := by
  intro reg val s hv
  have hreg : ∀ m : RegAddr, reg &&& 0x1F#8 = m.setWidth 8 ↔ ma reg = m := fun m => by
    rw [← setWidth_ma]
    exact ⟨fun h => by simpa using congrArg (BitVec.setWidth 5) h, fun h => by rw [h]⟩
  rw [← wrcmd_ma]
  simp only [hreg]
  refine ⟨decode_of_operands (o := .writeReg) rfl, fun ho => ⟨_, s.response_drawn _, exec_writeReg_open ho hv reg val⟩,
    exec_of_closed (i := .writeReg reg val) (op := 0x02) rfl rfl, fun k k' hst h => ?_⟩
  rw [hst, Chip.after_write_iff hv (outsideMap_of_mem hv (by simp [Cfg.registers]))] at h
  obtain ⟨-, -, -, hcontent, -⟩ := h
  rw [writtenContent, if_pos rfl] at hcontent
  exact hcontent val rfl

/-- Settles O13, by the register's class; the two faults are those of every request (R124, 60_exceptions.md R241). -/
theorem readAddrReadsTheAddress : Obligations.ReadAddrReadsTheAddress := by
  intro reg s hv
  rw [← setWidth_ma]
  refine ⟨decode_of_operands (o := .readAddr) rfl, fun ho hl => ?_, fun ho hl hs => ?_, fun hc hm => ?_, fun hm => ?_⟩
  · exact ⟨_, s.response_drawn _, exec_readAddr_long ho hv hl⟩
  · exact ⟨_, _, s.response_drawn _, State.response_drawn _ _, exec_readAddr_short ho hv hl hs⟩
  · exact exec_of_closed (i := .readAddr reg) (op := 0x03) rfl (if_neg (addrClass_ne_none hm)) hc
  · exact exec_of_operandFault (i := .readAddr reg) (if_pos (addrClass_none_iff.2 hm))

/-- Settles O14: both classes make the one exchange of `writeAddrBytes`, which leaves the shadow. -/
theorem writeAddrSendsTheAddress : Obligations.WriteAddrSendsTheAddress := by
  intro reg v s hv hd
  rw [← wrcmd_ma, ← enc_five]
  refine ⟨?_, fun ho hm => ?_, fun hc hm => ?_, fun hm => ?_⟩
  · exact decode_of_operands (o := .writeAddr) (congrArg (fun a => some (Instr.writeAddr reg a)) (leAddr_leBytes v))
  · exact ⟨_, s.response_drawn _, exec_writeAddr_open ho hv hd hm v⟩
  · exact exec_of_closed (i := .writeAddr reg v) (op := 0x04) rfl (if_neg (addrClass_ne_none hm)) hc
  · exact exec_of_operandFault (i := .writeAddr reg v) (if_pos (addrClass_none_iff.2 hm))

end Sys2Proof.Machine
end

section
/-! Proofs about the address codec (41_address_codec.md): the bytes the encoder gives, the disjunction of shifted bytes
the decoder gives, the text parser digit by digit, and the three requests. -/

namespace Sys2Proof.Machine

/-! ### The encoder (R150) -/

/-- Byte `i` of the low bytes of a number is the number without its `i` lowest bytes. -/
theorem leBytes_eq_map (n v : Nat) : leBytes n v = (List.range n).map fun i => BitVec.ofNat 8 (v / 256 ^ i) := by
  induction n generalizing v with
  | zero => rfl
  | succ n ih =>
    rw [leBytes, ih, List.range_succ_eq_map]
    simp [Nat.div_div_eq_div_mul, Nat.pow_succ', Function.comp_def]

theorem enc_eq_map (v : Addr) (n : Nat) : enc v n = (List.range n).map fun i => (v >>> (8 * i)).setWidth 8 := by
  rw [enc, leBytes_eq_map]
  congr 1
  funext i
  apply BitVec.eq_of_toNat_eq
  simp [Nat.shiftRight_eq_div_pow, Nat.pow_mul]

/-! ### The decoder (R151) -/

/-- A byte after the others adds itself above them. -/
theorem leNat_concat (b : Bytes) (x : Byte) : leNat (b ++ [x]) = x.toNat <<< (8 * b.length) + leNat b := by
  rw [Nat.shiftLeft_eq, Nat.pow_mul]
  induction b with
  | nil => simp [leNat]
  | cons y b ih =>
    simp only [List.cons_append, leNat, ih, List.length_cons, Nat.pow_succ]
    ring

/-- The bits of the last byte are disjoint from those of the bytes before it. -/
theorem dec_concat (b : Bytes) (x : Byte) : dec (b ++ [x]) = dec b ||| x.setWidth 40 <<< (8 * b.length) := by
  have hlt : leNat b < 2 ^ (8 * b.length) := by rw [Nat.pow_mul]; exact leNat_lt b
  have hx : BitVec.ofNat 40 (x.toNat <<< (8 * b.length)) = x.setWidth 40 <<< (8 * b.length) := by
    apply BitVec.eq_of_toNat_eq
    simp [Nat.shiftLeft_eq]
  rw [dec, leAddr, leNat_concat, Nat.shiftLeft_add_eq_or_of_lt hlt, BitVec.ofNat_or, hx, BitVec.or_comm]
  rfl

theorem dec_take {b : Bytes} {n : Nat} (h : n ≤ b.length) :
    dec (b.take n) = (List.range n).foldl (fun acc i => acc ||| (byteAt b i).setWidth 40 <<< (8 * i)) 0 := by
  induction n with
  | zero => rfl
  | succ n ih =>
    have hn : n < b.length := h
    rw [List.take_add_one, getElem?_of_lt hn, Option.toList_some, dec_concat, ih hn.le, List.length_take_of_le hn.le,
      List.range_succ, List.foldl_concat]

/-! ### Hex digits (R157) -/

theorem hexDigitOf_lt {ch : Byte} {n : Nat} (h : hexDigitOf ch n) : n < 16 := by
  rcases h with h | h | h <;> omega

theorem hexval_of_hexDigitOf {ch : Byte} {n : Nat} (h : hexDigitOf ch n) : hexval ch = some (BitVec.ofNat 8 n) := by
  simp only [hexval, BitVec.le_def, BitVec.toNat_ofNat, Nat.reducePow, Nat.reduceMod]
  rcases h with ⟨h1, h2, rfl⟩ | ⟨h1, h2, rfl⟩ | ⟨h1, h2, rfl⟩
  · rw [if_pos ⟨h1, h2⟩]
    exact congrArg some (by bv_omega)
  · rw [if_neg (by omega), if_pos ⟨h1, h2⟩]
    exact congrArg some (by bv_omega)
  · rw [if_neg (by omega), if_neg (by omega), if_pos ⟨h1, h2⟩]
    exact congrArg some (by bv_omega)

theorem hexval_eq_none {ch : Byte} (h : ∀ n, ¬hexDigitOf ch n) : hexval ch = none := by
  unfold hexval
  split_ifs with h0 ha hA
  · exact absurd (.inl ⟨h0.1, h0.2, rfl⟩) (h _)
  · exact absurd (.inr (.inl ⟨ha.1, ha.2, rfl⟩)) (h _)
  · exact absurd (.inr (.inr ⟨hA.1, hA.2, rfl⟩)) (h _)
  · rfl

/-! ### The parser's loop (R156) -/

/-- The number of the digits `d`, most significant first, after the number `v`. -/
def hexNumber (v : Nat) (d : List Nat) : Nat := d.foldl (fun v n => 16 * v + n) v

theorem hexNumber_lt {d : List Nat} (h : ∀ n ∈ d, n < 16) (v : Nat) : hexNumber v d < (v + 1) * 16 ^ d.length := by
  induction d generalizing v with
  | nil => simp [hexNumber]
  | cons n d ih =>
    obtain ⟨hn, hd⟩ := List.forall_mem_cons.1 h
    calc hexNumber (16 * v + n) d < (16 * v + n + 1) * 16 ^ d.length := ih hd _
      _ ≤ (v + 1) * 16 * 16 ^ d.length := Nat.mul_le_mul_right _ (by omega)
      _ = (v + 1) * 16 ^ (d.length + 1) := by rw [Nat.pow_succ', Nat.mul_assoc]

/-- One round of the loop takes two digits. -/
theorem shiftedPair_eq (v : Nat) {a b : Nat} (ha : a < 16) (hb : b < 16) :
    (BitVec.ofNat 40 v <<< 8) ||| (BitVec.ofNat 8 a * 16#8 + BitVec.ofNat 8 b).setWidth 40 =
      BitVec.ofNat 40 (16 * (16 * v + a) + b) := by
  have hlow : (BitVec.ofNat 8 a * 16#8 + BitVec.ofNat 8 b).setWidth 40 = BitVec.ofNat 40 (16 * a + b) := by
    apply BitVec.eq_of_toNat_eq
    simp
    omega
  have hhigh : BitVec.ofNat 40 v <<< 8 = BitVec.ofNat 40 (v <<< 8) := by
    apply BitVec.eq_of_toNat_eq
    simp [Nat.shiftLeft_eq]
  have hlt : 16 * a + b < 2 ^ 8 := by omega
  rw [hlow, hhigh, ← BitVec.ofNat_or, ← Nat.shiftLeft_add_eq_or_of_lt hlt, Nat.shiftLeft_eq]
  congr 1
  omega

/-- The text begins with the hex digits `d`. -/
def beginsWithDigits (t : Bytes) (d : List Nat) : Prop :=
  ∀ i n : Nat, d[i]? = some n → ∃ ch, t[i]? = some ch ∧ hexDigitOf ch n

theorem beginsWithDigits_cons {t : Bytes} {n : Nat} {d : List Nat} (h : beginsWithDigits t (n :: d)) :
    ∃ ch rest, t = ch :: rest ∧ hexDigitOf ch n ∧ beginsWithDigits rest d := by
  obtain ⟨ch, hch, hn⟩ := h 0 n rfl
  cases t with
  | nil => cases hch
  | cons c rest =>
    cases hch
    exact ⟨ch, rest, rfl, hn, fun i m hm => h (i + 1) m hm⟩

theorem beginsWithDigits_lt {t : Bytes} {d : List Nat} (h : beginsWithDigits t d) : ∀ n ∈ d, n < 16 := fun n hn => by
  obtain ⟨i, hi⟩ := List.getElem?_of_mem hn
  obtain ⟨ch, -, hch⟩ := h i n hi
  exact hexDigitOf_lt hch

theorem beginsWithDigits_length {t : Bytes} {d : List Nat} (h : beginsWithDigits t d) : d.length ≤ t.length := by
  induction d generalizing t with
  | nil => exact Nat.zero_le _
  | cons n d ih =>
    obtain ⟨ch, rest, rfl, -, hrest⟩ := beginsWithDigits_cons h
    exact Nat.succ_le_succ (ih hrest)

theorem parsePairs_digits (n : Nat) {d : List Nat} (hd : d.length = 2 * n) {t : Bytes} (h : beginsWithDigits t d)
    (v : Nat) : parsePairs n (BitVec.ofNat 40 v) t = some (BitVec.ofNat 40 (hexNumber v d)) := by
  induction n generalizing d t v with
  | zero =>
    obtain rfl := List.length_eq_zero_iff.1 hd
    rfl
  | succ n ih =>
    match d, hd with
    | a :: b :: d, hd =>
      obtain ⟨c1, rest1, rfl, ha, h1⟩ := beginsWithDigits_cons h
      obtain ⟨c2, rest, rfl, hb, h2⟩ := beginsWithDigits_cons h1
      have hlen : d.length = 2 * n := by simp only [List.length_cons] at hd; omega
      simp only [parsePairs, hexval_of_hexDigitOf ha, hexval_of_hexDigitOf hb,
        shiftedPair_eq v (hexDigitOf_lt ha) (hexDigitOf_lt hb)]
      exact ih hlen h2 _

/-- A character that is no hex digit stops the loop in the round of its pair. -/
theorem parsePairs_eq_none {n i : Nat} (hi : i < 2 * n) {t : Bytes} {ch : Byte} (ht : t[i]? = some ch)
    (hch : hexval ch = none) (v : Addr) : parsePairs n v t = none := by
  induction n generalizing i t v with
  | zero => omega
  | succ n ih =>
    match t, i, hi, ht with
    | [_], _, _, _ => rfl
    | c1 :: c2 :: rest, 0, _, ht =>
      cases ht
      simp only [parsePairs, hch]
    | c1 :: c2 :: rest, 1, _, ht =>
      cases ht
      rw [parsePairs, hch]
      cases hexval c1 <;> rfl
    | c1 :: c2 :: rest, i + 2, hi, ht =>
      rw [parsePairs]
      split
      · exact ih (i := i) (t := rest) (by omega) ht _
      · rfl

/-! ### The parser (R156) -/

theorem parseAddress_rejects {k : Nat} {t : Bytes}
    (h : k < 10 ∨ ∃ i ch, i < 10 ∧ t[i]? = some ch ∧ ∀ n, ¬hexDigitOf ch n) : parseAddress k t = none := by
  rw [parseAddress]
  rcases h with hk | ⟨i, ch, hi, ht, hch⟩
  · exact if_pos hk
  · rw [parsePairs_eq_none (n := 5) hi ht (hexval_eq_none hch), ite_self]

theorem parseAddress_digits {k : Nat} {t : Bytes} {d : List Nat} (hk : 10 ≤ k) (hd : d.length = 10)
    (h : beginsWithDigits t d) :
    parseAddress k t = if hexNumber 0 d = 0 then none else some (BitVec.ofNat 40 (hexNumber 0 d)) := by
  have hlt : hexNumber 0 d < 2 ^ 40 := by simpa [hd] using hexNumber_lt (beginsWithDigits_lt h) 0
  have hzero : BitVec.ofNat 40 (hexNumber 0 d) = 0 ↔ hexNumber 0 d = 0 := by
    rw [← BitVec.toNat_inj, BitVec.toNat_ofNat, Nat.mod_eq_of_lt hlt]
    rfl
  have hloop : parsePairs 5 0 t = some (BitVec.ofNat 40 (hexNumber 0 d)) := parsePairs_digits 5 hd h 0
  rw [parseAddress, if_neg (Nat.not_lt.2 hk), hloop]
  simp only [hzero]

/-! ### The requests (R154 to R156) -/

theorem exec_addrEncode_valid {n : Byte} (h : 1 ≤ n.toNat ∧ n.toNat ≤ 5) (v : Addr) (s : State) :
    exec (.addrEncode n v) s = .next (s.did [] 0 { done := true, bytes := some (enc v n.toNat) }) := by
  rw [exec, execAddrEncode, widthValid, if_pos (decide_eq_true h), State.complete_eq]

theorem exec_addrDecode_valid {n : Byte} (h : 1 ≤ n.toNat ∧ n.toNat ≤ 5) (b : Bytes) (s : State) :
    exec (.addrDecode n b) s = .next (s.did [] 0 { done := true, v40 := some (dec b) }) := by
  rw [exec, execAddrDecode, widthValid, if_pos (decide_eq_true h), State.complete_eq]

theorem exec_addrParse (k : Byte) (t : Bytes) (s : State) :
    exec (.addrParse k t) s = .next (s.did [] 0 (parseResult (parseAddress k.toNat t))) := by
  rw [exec, execAddrParse, State.complete_eq]

/-- A request whose byte 1 counts the bytes after it (30_encoding.md R95). -/
theorem counted_of_length {n : Byte} {b : Bytes} (h : b.length = n.toNat) (make : Byte → Bytes → Instr) :
    counted make (n :: b) = some (make n b) := if_pos h

/-! ### The obligations -/

/-- Settles O15: the encoder's bytes are the shifted ones, and a width outside 1 to 5 fails the operand check. -/
theorem addrEncodeGivesTheLowBytes : Obligations.AddrEncodeGivesTheLowBytes := by
  intro n v s
  simp only [← enc_eq_map]
  refine ⟨?_, fun h1 h5 => exec_addrEncode_valid ⟨h1, h5⟩ v s, fun hn => ?_⟩
  · exact decode_of_operands (o := .addrEncode) (congrArg (fun a => some (Instr.addrEncode n a)) (leAddr_leBytes v))
  · exact exec_of_operandFault (i := .addrEncode n v) (if_pos (by omega))

/-- Settles O16: the decoder's number is the disjunction of the shifted bytes, and a width outside 1 to 5 fails the
operand check. -/
theorem addrDecodeAssemblesTheBytes : Obligations.AddrDecodeAssemblesTheBytes := by
  intro n b s hb
  refine ⟨decode_of_operands (o := .addrDecode) (counted_of_length hb .addrDecode), fun h1 h5 => ?_, fun hn => ?_⟩
  · rw [← hb, ← dec_take le_rfl, List.take_length]
    exact exec_addrDecode_valid ⟨h1, h5⟩ b s
  · exact exec_of_operandFault (i := .addrDecode n b) (if_pos (by omega))

/-- Settles O19: the loop stops at a character that is no digit, and else gives the number of the ten digits, which
fits 40 bits and so is zero only where the number is. -/
theorem addrParseReadsTenHexDigits : Obligations.AddrParseReadsTenHexDigits := by
  intro k t s ht
  refine ⟨decode_of_operands (o := .addrParse) (counted_of_length ht .addrParse), fun h => ?_, fun d hd h => ?_⟩
  · rw [exec_addrParse, parseAddress_rejects h, parseResult]
  · have hk : 10 ≤ k.toNat := by rw [← ht, ← hd]; exact beginsWithDigits_length h
    rw [exec_addrParse, parseAddress_digits hk hd h, apply_ite parseResult]
    rfl

end Sys2Proof.Machine
end

section
/-! Proofs about the power state machine (42_power_fsm.md): the CE line, the read and write-back of CONFIG that four
requests share, and the six requests. -/

namespace Sys2Proof.Machine

/-! ### The CE line (R170, R171) -/

/-- A request that begins with powerUp: the line's events come before its own. -/
theorem powerUpBody_did (s : State) (evs : List Event) (n : Nat) (r : Result) :
    (powerUpBody s).did evs n r = { s.did (.ce true :: .wait .tCeUp :: evs) n r with ce := true } := by
  simp [powerUpBody_eq, State.did]

/-- A request that begins with powerDown: the line's events come before its own. -/
theorem powerDownBody_did (s : State) (evs : List Event) (n : Nat) (r : Result) :
    (powerDownBody s).did evs n r = { s.did (.ce false :: .wait .tCeDown :: evs) n r with ce := false } := by
  simp [powerDownBody_eq, State.did]

/-! ### The read and write-back of CONFIG (R172) -/

/-- The answer to the CONFIG read. -/
def configAnswer (s : State) : Bytes := s.response (readRegBytes s.cfg s.cfg.regConfig)

/-- The answer to the write-back of `v` that follows the CONFIG read. -/
def configEcho (v : Byte) (s : State) : Bytes :=
  (readRegBody s.cfg.regConfig s).response (writeRegBytes s.cfg s.cfg.regConfig v)

/-- The two exchanges of `setCfg` and `clrCfg`, where `v` is written back. -/
def configRewrite (v : Byte) (s : State) : List Event :=
  [.xchg (readRegBytes s.cfg s.cfg.regConfig) (configAnswer s),
    .xchg (writeRegBytes s.cfg s.cfg.regConfig v) (configEcho v s)]

theorem configAnswer_drawn (s : State) : Drawn s.answers (readRegBytes s.cfg s.cfg.regConfig) (configAnswer s) :=
  s.response_drawn _

theorem configEcho_drawn (v : Byte) (s : State) :
    Drawn (s.answers.drop 1) (writeRegBytes s.cfg s.cfg.regConfig v) (configEcho v s) :=
  State.response_drawn_of rfl _

/-- The shadow follows the write-back, since its register is CONFIG (10_state.md R32). -/
theorem configRewrite_complete {s : State} (hv : s.cfg.Valid) (v : Byte) (d : Delay) (r : Result) :
    ((writeRegBody s.cfg.regConfig v (readRegBody s.cfg.regConfig s)).waitFor d).complete r =
      { s.did (configRewrite v s ++ [.wait d]) 2 r with cfgsh := some v } := by
  have hwrite := writeRegBody_eq (s := readRegBody s.cfg.regConfig s) hv s.cfg.regConfig v
  rw [hwrite, configRewrite, configEcho, readRegBody_eq hv]
  simp [State.waitFor, State.complete, State.did, configAnswer, readRegBytes, writeRegBytes]

theorem setCfgBody_complete {s : State} (hv : s.cfg.Valid) (mask : Byte) (d : Delay) (r : Result) :
    ((setCfgBody mask s).waitFor d).complete r =
      let v := byteAt (configAnswer s) 1 ||| mask
      { s.did (configRewrite v s ++ [.wait d]) 2 r with cfgsh := some v } :=
  configRewrite_complete hv _ d r

theorem clrCfgBody_complete {s : State} (hv : s.cfg.Valid) (mask : Byte) (d : Delay) (r : Result) :
    ((clrCfgBody mask s).waitFor d).complete r =
      let v := byteAt (configAnswer s) 1 &&& ~~~mask
      { s.did (configRewrite v s ++ [.wait d]) 2 r with cfgsh := some v } :=
  configRewrite_complete hv _ d r

/-! ### The six requests on an open bus (R170, R171, R173 to R176) -/

section
variable {s : State} (ho : s.isOpen = true)
include ho

theorem exec_powerUp_open :
    exec .powerUp s = .next { s.did [.ce true, .wait .tCeUp] 0 { done := true } with ce := true } := by
  rw [exec, execPowerUp, State.onBus_open ho, State.complete_eq, powerUpBody_did]

theorem exec_powerDown_open :
    exec .powerDown s = .next { s.did [.ce false, .wait .tCeDown] 0 { done := true } with ce := false } := by
  rw [exec, execPowerDown, State.onBus_open ho, State.complete_eq, powerDownBody_did]

theorem exec_startRadio_open (hv : s.cfg.Valid) :
    exec .startRadio s =
      let v := byteAt (configAnswer s) 1 ||| s.cfg.cfgPwrUp
      .next { s.did (configRewrite v s ++ [.wait .tRadio]) 2 { done := true } with cfgsh := some v } := by
  rw [exec, execStartRadio, State.onBus_open ho, startRadioBody, setCfgBody_complete hv]

theorem exec_stopRadio_open (hv : s.cfg.Valid) :
    exec .stopRadio s =
      let v := byteAt (configAnswer s) 1 &&& ~~~s.cfg.cfgPwrUp
      .next { s.did (configRewrite v s ++ [.wait .tRadio]) 2 { done := true } with cfgsh := some v } := by
  rw [exec, execStopRadio, State.onBus_open ho, stopRadioBody, clrCfgBody_complete hv]

/-- CONFIG is read and written back after the line has settled, so its answers are those of that later state. -/
theorem exec_startRx_open (hv : s.cfg.Valid) :
    exec .startRx s =
      let t := powerUpBody s
      let v := byteAt (configAnswer t) 1 ||| s.cfg.cfgPrimRx
      .next { s.did (.ce true :: .wait .tCeUp :: configRewrite v t ++ [.wait .tRx]) 2 { done := true } with
        ce := true, cfgsh := some v } := by
  rw [exec, execStartRx, State.onBus_open ho, startRxBody, setCfgBody_complete (s := powerUpBody s) hv]
  simp only [powerUpBody_did, List.cons_append]

theorem exec_stopRx_open (hv : s.cfg.Valid) :
    exec .stopRx s =
      let t := powerDownBody s
      let v := byteAt (configAnswer t) 1 &&& ~~~s.cfg.cfgPrimRx
      .next { s.did (.ce false :: .wait .tCeDown :: configRewrite v t ++ [.wait .tRx]) 2 { done := true } with
        ce := false, cfgsh := some v } := by
  rw [exec, execStopRx, State.onBus_open ho, stopRxBody, clrCfgBody_complete (s := powerDownBody s) hv]
  simp only [powerDownBody_did, List.cons_append]

end

/-! ### The obligations -/

/-- Settles O21: both requests read CONFIG in the same state, so the one answer serves both write-backs. -/
theorem startAndStopRadioWritePowerUp : Obligations.StartAndStopRadioWritePowerUp := by
  refine ⟨⟨decode_of_operands (o := .startRadio) rfl, decode_of_operands (o := .stopRadio) rfl⟩, fun s hv =>
    ⟨fun ho => ⟨configAnswer s, configAnswer_drawn s, ?_, ?_⟩, fun hc => ⟨?_, ?_⟩⟩⟩
  · exact ⟨_, configEcho_drawn _ s, exec_startRadio_open ho hv⟩
  · exact ⟨_, configEcho_drawn _ s, exec_stopRadio_open ho hv⟩
  · exact exec_of_closed (i := .startRadio) (op := 0x0A) rfl rfl hc
  · exact exec_of_closed (i := .stopRadio) (op := 0x0B) rfl rfl hc

/-- Settles O22: the CE line's body takes none of the chip's answers, so the CONFIG read draws the first one. -/
theorem startAndStopRxMoveTheLineThenTheRole : Obligations.StartAndStopRxMoveTheLineThenTheRole := by
  refine ⟨⟨decode_of_operands (o := .startRx) rfl, decode_of_operands (o := .stopRx) rfl⟩, fun s hv =>
    ⟨fun ho => ⟨?_, ?_⟩, fun hc => ⟨?_, ?_⟩⟩⟩
  · have hr := configAnswer_drawn (powerUpBody s)
    exact ⟨_, _, hr, configEcho_drawn _ (powerUpBody s), exec_startRx_open ho hv⟩
  · have hr := configAnswer_drawn (powerDownBody s)
    exact ⟨_, _, hr, configEcho_drawn _ (powerDownBody s), exec_stopRx_open ho hv⟩
  · exact exec_of_closed (i := .startRx) (op := 0x0C) rfl rfl hc
  · exact exec_of_closed (i := .stopRx) (op := 0x0D) rfl rfl hc

/-- Settles O20: powerUp and powerDown make the two events and no exchange, so CONFIG's shadow stays. -/
theorem powerUpAndDownDriveTheLine : Obligations.PowerUpAndDownDriveTheLine := by
  refine ⟨⟨decode_of_operands (o := .powerUp) rfl, decode_of_operands (o := .powerDown) rfl⟩, fun s =>
    ⟨fun ho => ⟨exec_powerUp_open ho, exec_powerDown_open ho⟩, fun hc => ⟨?_, ?_⟩⟩⟩
  · exact exec_of_closed (i := .powerUp) (op := 0x08) rfl rfl hc
  · exact exec_of_closed (i := .powerDown) (op := 0x09) rfl rfl hc

end Sys2Proof.Machine
end

section
/-! Proofs about the packet framer (43_framing.md): requests whose exchanges leave the CONFIG shadow, event by event,
the dynamic and the fixed receive, the poll loop of TX, the flushes, and the STATUS writes of every request. -/

namespace Sys2Proof.Machine

/-! ### STATUS among the registers -/

/-- What distinct register numbers say of STATUS: it is no other register of 00_scope.md R9. -/
theorem regStatus_distinct {c : Cfg} (hd : c.RegistersDistinct) :
    c.regStatus ≠ c.regConfig ∧
      c.regStatus ∉ [c.regRfSetup, c.regDynpd, c.regFeature, c.regRfCh, c.regSetupRetr] ∧
      c.regStatus ∉ longRegs c ++ shortRegs c := by
  simp only [Cfg.RegistersDistinct, Cfg.registers, List.nodup_cons, List.mem_cons, not_or] at hd
  simp only [longRegs, shortRegs, List.cons_append, List.nil_append, List.mem_cons, not_or, ne_eq]
  grind

/-! ### Requests whose exchanges leave the CONFIG shadow (10_state.md R32) -/

/-- The exchange leaves the CONFIG shadow, whatever it holds. -/
def keepsShadow (c : Cfg) (b : Bytes) : Prop := ∀ sh, shadowAfter c sh b = sh

section
variable {c : Cfg} (hv : c.Valid)
include hv

theorem keepsShadow_readReg (m : RegAddr) : keepsShadow c (readRegBytes c m) := fun sh => shadowAfter_read hv sh m _

theorem keepsShadow_lengthQuery : keepsShadow c (lengthQueryBytes c) := fun sh =>
  shadowAfter_fixed hv (plWid_mem c) sh _

theorem keepsShadow_readPayload (n : Nat) : keepsShadow c (readPayloadBytes c n) := fun sh =>
  shadowAfter_fixed hv (rxPayload_mem c) sh _

theorem keepsShadow_writePayload (d : Bytes) : keepsShadow c (writePayloadBytes c d) := fun sh =>
  shadowAfter_fixed hv (txPayload_mem c) sh _

theorem keepsShadow_flushTx : keepsShadow c (flushTxBytes c) := fun sh => shadowAfter_fixed hv (flushTx_mem c) sh _

theorem keepsShadow_flushRx : keepsShadow c (flushRxBytes c) := fun sh => shadowAfter_fixed hv (flushRx_mem c) sh _

theorem keepsShadow_clear (hd : c.RegistersDistinct) (mask : Byte) :
    keepsShadow c (writeRegBytes c c.regStatus mask) := fun sh => by
  rw [shadowAfter_writeReg hv, if_neg (regStatus_distinct hd).1]

end

/-- A request that begins with such an exchange: its event and its answer come before the rest. -/
theorem State.exchange_did {s : State} {b : Bytes} (h : keepsShadow s.cfg b) (evs : List Event) (n : Nat) (r : Result) :
    (s.exchange b).did evs n r = s.did (.xchg b (s.response b) :: evs) (1 + n) r := by
  simp [State.did, State.exchange, h s.cfgsh, Nat.add_comm]

theorem State.writeRxb_did (s : State) (a : Nat) (v : Bytes) (evs : List Event) (n : Nat) (r : Result) :
    (s.writeRxb a v).did evs n r = { s.did evs n r with rxb := Memory.writeBytes s.rxb a v } := rfl

theorem clearFlag_did {s : State} (hv : s.cfg.Valid) (hd : s.cfg.RegistersDistinct) (mask : Byte) (evs : List Event)
    (n : Nat) (r : Result) :
    (clearFlag mask s).did evs n r =
      let b := writeRegBytes s.cfg s.cfg.regStatus mask
      s.did (.xchg b (s.response b) :: evs) (1 + n) r :=
  State.exchange_did (keepsShadow_clear hv hd mask) evs n r

/-! ### The ready check (R191) -/

/-- The answer to the STATUS read. -/
def statusAnswer (s : State) : Bytes := s.response (readRegBytes s.cfg s.cfg.regStatus)

/-- The event of the STATUS read. -/
def statusRead (s : State) : Event := .xchg (readRegBytes s.cfg s.cfg.regStatus) (statusAnswer s)

theorem statusAnswer_drawn (s : State) : Drawn s.answers (readRegBytes s.cfg s.cfg.regStatus) (statusAnswer s) :=
  s.response_drawn _

theorem readStatus_did {s : State} (hv : s.cfg.Valid) (evs : List Event) (n : Nat) (r : Result) :
    (readRegBody s.cfg.regStatus s).did evs n r = s.did (statusRead s :: evs) (1 + n) r :=
  State.exchange_did (keepsShadow_readReg hv _) evs n r

/-- Ready is "not all set empty". -/
theorem rxReadyValue_true {s : State}
    (h : byteAt (statusAnswer s) 1 &&& s.cfg.stRxEmptyField ≠ s.cfg.stRxEmptyField) : rxReadyValue s = true :=
  decide_eq_true h

theorem rxReadyValue_false {s : State}
    (h : byteAt (statusAnswer s) 1 &&& s.cfg.stRxEmptyField = s.cfg.stRxEmptyField) : rxReadyValue s = false :=
  decide_eq_false (not_not_intro h)

/-! ### Payload bytes in RXB (20_memory.md R76) -/

/-- A write at offset 0 is read back below its length, and leaves the other offsets. -/
theorem Memory.read_writeBytes_zero (m : Memory) (v : Bytes) (a : Nat) :
    Memory.read (Memory.writeBytes m 0 v) a = if a < v.length then v[a]? else Memory.read m a := by
  by_cases h : a < v.length
  · rw [if_pos h]
    simpa using Memory.read_writeBytes_inside m 0 v a h
  · rw [if_neg h, Memory.read_writeBytes_other _ _ _ _ (.inr (by omega))]

/-- The answer to a payload read of `n` bytes: the status byte, then the payload. -/
def payloadAnswer (n : Nat) (s : State) : Bytes := s.response (readPayloadBytes s.cfg n)

theorem payloadAnswer_length (n : Nat) (s : State) : (payloadAnswer n s).length = n + 1 := by
  simp [payloadAnswer, readPayloadBytes, rep]

/-- A payload without a terminator fills RXB[0..n-1] (R193). -/
theorem read_payload (m : Memory) (n : Nat) (s : State) (a : Nat) :
    Memory.read (Memory.writeBytes m 0 ((payloadAnswer n s).drop 1)) a =
      if a < n then (payloadAnswer n s)[a + 1]? else Memory.read m a := by
  rw [Memory.read_writeBytes_zero, List.length_drop, payloadAnswer_length, Nat.add_sub_cancel, List.getElem?_drop,
    Nat.add_comm 1 a]

/-- A payload with its terminator fills RXB[0..n] (R192). -/
theorem read_payload_terminated (m : Memory) (n : Nat) (s : State) (a : Nat) :
    Memory.read (Memory.writeBytes m 0 ((payloadAnswer n s).drop 1 ++ [0x00])) a =
      if a < n then (payloadAnswer n s)[a + 1]? else if a = n then some 0x00 else Memory.read m a := by
  have hlen : ((payloadAnswer n s).drop 1).length = n := by rw [List.length_drop, payloadAnswer_length]; rfl
  rw [Memory.read_writeBytes_zero, List.length_append, hlen]
  rcases lt_trichotomy a n with h | rfl | h
  · rw [if_pos (by simp; omega), if_pos h, List.getElem?_append_left (by omega), List.getElem?_drop, Nat.add_comm 1 a]
  · rw [if_pos (by simp), if_neg (lt_irrefl a), if_pos rfl, List.getElem?_append_right (by omega), hlen, Nat.sub_self]
    rfl
  · rw [if_neg (by simp; omega), if_neg (by omega), if_neg (by omega)]

/-! ### The dynamic receive (R192) -/

/-- The answer to the length query that follows the ready check. -/
def lengthAnswer (s : State) : Bytes := (rxReadyBody s).response (lengthQueryBytes s.cfg)

/-- The state after the ready check and the length query. -/
def lengthQueried (s : State) : State := (rxReadyBody s).exchange (lengthQueryBytes s.cfg)

theorem lengthQueried_did {s : State} (hv : s.cfg.Valid) (evs : List Event) (n : Nat) (r : Result) :
    (lengthQueried s).did evs n r =
      s.did (statusRead s :: .xchg (lengthQueryBytes s.cfg) (lengthAnswer s) :: evs) (2 + n) r := by
  have hquery := State.exchange_did (s := rxReadyBody s) (keepsShadow_lengthQuery hv) evs n r
  rw [rxReadyBody, readStatus_did hv, ← Nat.add_assoc] at hquery
  exact hquery

theorem lengthQueried_answers (s : State) : (lengthQueried s).answers = s.answers.drop 2 := by
  simp [lengthQueried, rxReadyBody, readRegBody]

theorem rxDynBody_notReady {s : State} (h : rxReadyValue s = false) : rxDynBody s = (0, rxReadyBody s) := by
  simp [rxDynBody, h]

theorem rxDynBody_tooLong {s : State} (h : rxReadyValue s = true) (hn : 32 < (byteAt (lengthAnswer s) 1).toNat) :
    rxDynBody s = (0, (lengthQueried s).exchange (flushRxBytes s.cfg)) := by
  rw [rxDynBody, if_pos h]
  exact if_pos hn

theorem rxDynBody_payload {s : State} (h : rxReadyValue s = true) (hn : (byteAt (lengthAnswer s) 1).toNat ≤ 32) :
    rxDynBody s = (byteAt (lengthAnswer s) 1, rxDynPayload (byteAt (lengthAnswer s) 1) (lengthQueried s)) := by
  rw [rxDynBody, if_pos h]
  exact if_neg (Nat.not_lt.2 hn)

/-- The state after the payload read of RX_DYN, with the payload and its terminator in RXB. -/
def rxDynStored (n : Nat) (s : State) : State :=
  (s.exchange (readPayloadBytes s.cfg n)).writeRxb 0 ((payloadAnswer n s).drop 1 ++ [0x00])

theorem rxDynPayload_did {s : State} (hv : s.cfg.Valid) (hd : s.cfg.RegistersDistinct) (n : Byte) (evs : List Event)
    (k : Nat) (r : Result) :
    (rxDynPayload n s).did evs k r =
      let clear := writeRegBytes s.cfg s.cfg.regStatus s.cfg.stRxDr
      { s.did (.xchg (readPayloadBytes s.cfg n.toNat) (payloadAnswer n.toNat s) ::
          .xchg clear ((rxDynStored n.toNat s).response clear) :: evs) (1 + (1 + k)) r with
        rxb := (rxDynStored n.toNat s).rxb } := by
  have hclear := clearFlag_did (s := rxDynStored n.toNat s) hv hd s.cfg.stRxDr evs k r
  have hread := State.exchange_did (keepsShadow_readPayload hv n.toNat)
  rw [show rxDynPayload n s = clearFlag s.cfg.stRxDr (rxDynStored n.toNat s) from rfl, hclear, rxDynStored]
  simp only [State.writeRxb_did, hread]
  rfl

/-! ### The fixed receive (R193) -/

/-- The state after the payload read of RX_FIXED and its bytes in RXB. -/
def rxFixedStored (s : State) : State :=
  (s.exchange (readPayloadBytes s.cfg s.cfg.fixedLen.val)).writeRxb 0 ((payloadAnswer s.cfg.fixedLen.val s).drop 1)

theorem rxFixedStored_did {s : State} (hv : s.cfg.Valid) (evs : List Event) (k : Nat) (r : Result) :
    (rxFixedStored s).did evs k r =
      let n := s.cfg.fixedLen.val
      { s.did (.xchg (readPayloadBytes s.cfg n) (payloadAnswer n s) :: evs) (1 + k) r with
        rxb := (rxFixedStored s).rxb } := by
  have hread := State.exchange_did (keepsShadow_readPayload hv s.cfg.fixedLen.val)
  rw [rxFixedStored]
  simp only [State.writeRxb_did, hread]
  rfl

theorem rxFixedBody_notReady {s : State} (h : rxReadyValue s = false) : rxFixedBody s = (false, rxReadyBody s) := by
  simp [rxFixedBody, h]

theorem rxFixedBody_clear {s : State} (h : rxReadyValue s = true) (hc : s.cfg.fixedRxClear = true) :
    rxFixedBody s = (true, clearFlag s.cfg.stRxDr (rxFixedStored (rxReadyBody s))) := by
  rw [rxFixedBody, if_pos h]
  exact congrArg (true, ·) (if_pos hc)

theorem rxFixedBody_keep {s : State} (h : rxReadyValue s = true) (hc : s.cfg.fixedRxClear = false) :
    rxFixedBody s = (true, rxFixedStored (rxReadyBody s)) := by
  rw [rxFixedBody, if_pos h]
  exact congrArg (true, ·) (if_neg (by simp [rxReadyBody, readRegBody, hc]))

/-! ### The poll loop of TX (R194) -/

/-- The block after polls whose answers were `misses`. -/
def State.missed (s : State) (misses : List Bytes) : State :=
  { s with hist := s.hist ++ missEvents s.cfg misses, answers := s.answers.drop misses.length }

theorem State.missed_nil (s : State) : s.missed [] = s := by simp [State.missed, missEvents]

/-- The first poll that misses, then the others. -/
theorem State.missed_cons {s : State} (hv : s.cfg.Valid) (misses : List Bytes) :
    ((readRegBody s.cfg.regStatus s).waitFor .tTxPoll).missed misses = s.missed (statusAnswer s :: misses) := by
  simp [State.missed, missEvents, readRegBody_eq hv, State.waitFor, statusAnswer, readRegBytes, Nat.add_comm]

theorem State.missed_did (s : State) (misses : List Bytes) (evs : List Event) (n : Nat) (r : Result) :
    (s.missed misses).did evs n r = s.did (missEvents s.cfg misses ++ evs) (misses.length + n) r := by
  simp [State.missed, State.did]

theorem statusSent_iff {c : Cfg} {v : Byte} : statusSent c v = true ↔ v &&& c.stTxDs ≠ 0#8 := decide_eq_true_iff

theorem statusMaxRt_iff {c : Cfg} {v : Byte} : statusMaxRt c v = true ↔ v &&& c.stMaxRt ≠ 0#8 := decide_eq_true_iff

section
variable {s : State} (n : Nat)

theorem txPoll_sent (h : byteAt (statusAnswer s) 1 &&& s.cfg.stTxDs ≠ 0#8) :
    txPoll (n + 1) s = (.success, powerDownBody (clearFlag s.cfg.stTxDs (readRegBody s.cfg.regStatus s))) :=
  if_pos (statusSent_iff.2 h)

theorem txPoll_maxRt (h : byteAt (statusAnswer s) 1 &&& s.cfg.stTxDs = 0#8)
    (hm : byteAt (statusAnswer s) 1 &&& s.cfg.stMaxRt ≠ 0#8) :
    txPoll (n + 1) s =
      (.hwFail, powerDownBody
        ((clearFlag s.cfg.stMaxRt (readRegBody s.cfg.regStatus s)).exchange (flushTxBytes s.cfg))) :=
  (if_neg (mt statusSent_iff.1 (not_not_intro h))).trans (if_pos (statusMaxRt_iff.2 hm))

theorem txPoll_missed (h : pollMissed s.cfg (statusAnswer s)) :
    txPoll (n + 1) s = txPoll n ((readRegBody s.cfg.regStatus s).waitFor .tTxPoll) :=
  (if_neg (mt statusSent_iff.1 (not_not_intro h.1))).trans (if_neg (mt statusMaxRt_iff.1 (not_not_intro h.2)))

end

/-- The loop comes, by polls that miss, to a state in which no poll is left or the next one finds a terminal bit. -/
theorem txPoll_misses (n : Nat) {s : State} (hv : s.cfg.Valid) :
    ∃ misses left, misses.length + left = n ∧ txPoll n s = txPoll left (s.missed misses) ∧
      (∀ k, k < misses.length →
        Drawn (s.answers.drop k) (readRegBytes s.cfg s.cfg.regStatus) (misses.getD k [])) ∧
      (∀ r ∈ misses, pollMissed s.cfg r) ∧ (left = 0 ∨ ¬pollMissed s.cfg (statusAnswer (s.missed misses))) := by
  induction n generalizing s with
  | zero => exact ⟨[], 0, rfl, by rw [s.missed_nil], by simp, by simp, .inl rfl⟩
  | succ n ih =>
    by_cases h : pollMissed s.cfg (statusAnswer s)
    · obtain ⟨misses, left, hlen, hpoll, hdrawn, hmiss, hend⟩ :=
        ih (s := (readRegBody s.cfg.regStatus s).waitFor .tTxPoll) hv
      rw [State.missed_cons hv] at hpoll hend
      refine ⟨statusAnswer s :: misses, left, by simp; omega, (txPoll_missed n h).trans hpoll, fun k hk => ?_,
        List.forall_mem_cons.2 ⟨h, hmiss⟩, hend⟩
      cases k with
      | zero => exact statusAnswer_drawn s
      | succ k =>
        have hk' := hdrawn k (by simpa using hk)
        rw [State.waitFor_answers, readRegBody, State.exchange_answers, List.drop_drop, Nat.add_comm 1 k] at hk'
        exact hk'
    · exact ⟨[], n + 1, by simp, by rw [s.missed_nil], by simp, by simp, .inr (by rwa [s.missed_nil])⟩

/-! ### The ends of a transmission (R194) -/

theorem txLoad_cfg (payload : Bytes) (s : State) : (txLoad payload s).cfg = s.cfg := rfl

theorem txLoad_answers (payload : Bytes) (s : State) : (txLoad payload s).answers = s.answers.drop 2 := by
  simp [txLoad, powerUpBody]

/-- The state in which the polls of TX begin to end: after the load and the polls that missed. -/
def txPolled (payload : Bytes) (misses : List Bytes) (s : State) : State := (txLoad payload s).missed misses

/-- The events up to that state. -/
def txStart (payload : Bytes) (misses : List Bytes) (s : State) : List Event :=
  let flushed := s.exchange (flushTxBytes s.cfg)
  [.xchg (flushTxBytes s.cfg) (s.response (flushTxBytes s.cfg)),
    .xchg (writePayloadBytes s.cfg payload) (flushed.response (writePayloadBytes s.cfg payload)), .ce true,
    .wait .tCeUp] ++ missEvents s.cfg misses

theorem txPolled_did {s : State} (hv : s.cfg.Valid) (payload : Bytes) (misses : List Bytes) (evs : List Event) (n : Nat)
    (r : Result) :
    (txPolled payload misses s).did evs n r =
      { s.did (txStart payload misses s ++ evs) (2 + misses.length + n) r with ce := true } := by
  have hflush := State.exchange_did (keepsShadow_flushTx hv)
  have hwrite := State.exchange_did (s := s.exchange (flushTxBytes s.cfg)) (keepsShadow_writePayload hv payload)
  rw [txPolled, State.missed_did, txLoad_cfg, txLoad, powerUpBody_did]
  simp only [hwrite, hflush]
  rw [show 1 + (1 + (misses.length + n)) = 2 + misses.length + n by omega]
  rfl

theorem txPolled_answers (payload : Bytes) (misses : List Bytes) (s : State) :
    (txPolled payload misses s).answers = s.answers.drop (2 + misses.length) := by
  simp [txPolled, State.missed, txLoad_answers]

/-- The `k` answers after those of the load and the polls that missed. -/
theorem txPolled_answers_drop (payload : Bytes) (misses : List Bytes) (s : State) (k : Nat) :
    (txPolled payload misses s).answers.drop k = s.answers.drop (2 + k + misses.length) := by
  rw [txPolled_answers, List.drop_drop, Nat.add_right_comm]

/-- The answer to the exchange that follows the last poll. -/
theorem txPolled_clear_drawn (payload : Bytes) (misses : List Bytes) (s : State) (b : Bytes) :
    Drawn (s.answers.drop (3 + misses.length)) b
      ((readRegBody s.cfg.regStatus (txPolled payload misses s)).response b) :=
  State.response_drawn_of (txPolled_answers_drop payload misses s 1) b

/-- The answer to the exchange that follows the clear of a flag. -/
theorem txPolled_flush_drawn (payload : Bytes) (misses : List Bytes) (s : State) (mask : Byte) (b : Bytes) :
    Drawn (s.answers.drop (4 + misses.length)) b
      ((clearFlag mask (readRegBody s.cfg.regStatus (txPolled payload misses s))).response b) :=
  State.response_drawn_of (List.drop_drop.trans (txPolled_answers_drop payload misses s 2)) b

theorem timeout_complete {s : State} (hv : s.cfg.Valid) (r : Result) :
    ((powerDownBody s).exchange (flushTxBytes s.cfg)).complete r =
      let flush := flushTxBytes s.cfg
      { s.did [.ce false, .wait .tCeDown, .xchg flush ((powerDownBody s).response flush)] 1 r with ce := false } := by
  have hflush := State.exchange_did (s := powerDownBody s) (keepsShadow_flushTx hv) [] 0 r
  rw [powerDownBody_did] at hflush
  rw [State.complete_eq]
  exact hflush

section
variable {s : State} (hv : s.cfg.Valid) (hd : s.cfg.RegistersDistinct)
include hv hd

/-- The state after the poll that found a flag, and the clear of that flag. -/
theorem readStatus_clearFlag_did (mask : Byte) (evs : List Event) (n : Nat) (r : Result) :
    (clearFlag mask (readRegBody s.cfg.regStatus s)).did evs n r =
      let b := writeRegBytes s.cfg s.cfg.regStatus mask
      s.did (statusRead s :: .xchg b ((readRegBody s.cfg.regStatus s).response b) :: evs) (2 + n) r := by
  have hclear := clearFlag_did (s := readRegBody s.cfg.regStatus s) hv hd mask evs n r
  rw [readStatus_did hv, ← Nat.add_assoc] at hclear
  exact hclear

theorem sent_complete (r : Result) :
    (powerDownBody (clearFlag s.cfg.stTxDs (readRegBody s.cfg.regStatus s))).complete r =
      let clear := writeRegBytes s.cfg s.cfg.regStatus s.cfg.stTxDs
      { s.did [statusRead s, .xchg clear ((readRegBody s.cfg.regStatus s).response clear), .ce false, .wait .tCeDown]
          2 r with ce := false } := by
  rw [State.complete_eq, powerDownBody_did]
  simp only [readStatus_clearFlag_did hv hd]

theorem maxRt_complete (r : Result) :
    let clear := writeRegBytes s.cfg s.cfg.regStatus s.cfg.stMaxRt
    let cleared := clearFlag s.cfg.stMaxRt (readRegBody s.cfg.regStatus s)
    (powerDownBody (cleared.exchange (flushTxBytes s.cfg))).complete r =
      { s.did [statusRead s, .xchg clear ((readRegBody s.cfg.regStatus s).response clear),
          .xchg (flushTxBytes s.cfg) (cleared.response (flushTxBytes s.cfg)), .ce false, .wait .tCeDown] 3 r with
        ce := false } := by
  dsimp only
  have hflush := State.exchange_did (s := clearFlag s.cfg.stMaxRt (readRegBody s.cfg.regStatus s))
    (b := flushTxBytes s.cfg) (keepsShadow_flushTx hv)
  rw [State.complete_eq, powerDownBody_did]
  simp only [hflush, readStatus_clearFlag_did hv hd]

end

/-! ### The requests on an open bus -/

section
variable {s : State} (ho : s.isOpen = true)
include ho

theorem exec_rxReady_open (hv : s.cfg.Valid) :
    exec .rxReady s = .next (s.did [statusRead s] 1 { done := true, ok := some (rxReadyValue s) }) := by
  rw [exec, execRxReady, State.onBus_open ho, rxReadyBody, State.complete_eq, readStatus_did hv]

theorem exec_flushTx_open (hv : s.cfg.Valid) :
    exec .flushTx s =
      .next (s.did [.xchg (flushTxBytes s.cfg) (s.response (flushTxBytes s.cfg))] 1 { done := true }) := by
  rw [exec, execFlushTx, State.onBus_open ho, State.exchange_complete (keepsShadow_flushTx hv _)]

theorem exec_flushRx_open (hv : s.cfg.Valid) :
    exec .flushRx s =
      .next (s.did [.xchg (flushRxBytes s.cfg) (s.response (flushRxBytes s.cfg))] 1 { done := true }) := by
  rw [exec, execFlushRx, State.onBus_open ho, State.exchange_complete (keepsShadow_flushRx hv _)]

/-! RX_DYN (R192) -/

theorem exec_rxDyn_open (hcap : 33 ≤ s.cfg.rxbufCap) {len : Byte} {t : State} (h : rxDynBody s = (len, t)) :
    exec .rxDyn s = .next (t.did [] 0 { done := true, len := some len }) := by
  rw [exec, execRxDyn, if_neg (Nat.not_lt.2 hcap), State.onBus_open ho, h, State.complete_eq]

section
variable (hv : s.cfg.Valid) (hcap : 33 ≤ s.cfg.rxbufCap)
include hv hcap

theorem exec_rxDyn_notReady (h : rxReadyValue s = false) :
    exec .rxDyn s = .next (s.did [statusRead s] 1 { done := true, len := some 0 }) := by
  rw [exec_rxDyn_open ho hcap (rxDynBody_notReady h), rxReadyBody, readStatus_did hv]

theorem exec_rxDyn_tooLong (h : rxReadyValue s = true) (hn : 32 < (byteAt (lengthAnswer s) 1).toNat) :
    exec .rxDyn s =
      .next (s.did [statusRead s, .xchg (lengthQueryBytes s.cfg) (lengthAnswer s),
        .xchg (flushRxBytes s.cfg) ((lengthQueried s).response (flushRxBytes s.cfg))] 3
        { done := true, len := some 0 }) := by
  rw [exec_rxDyn_open ho hcap (rxDynBody_tooLong h hn),
    State.exchange_did (s := lengthQueried s) (b := flushRxBytes s.cfg) (keepsShadow_flushRx hv), lengthQueried_did hv]

theorem exec_rxDyn_payload (hd : s.cfg.RegistersDistinct) (h : rxReadyValue s = true)
    (hn : (byteAt (lengthAnswer s) 1).toNat ≤ 32) :
    exec .rxDyn s =
      let n := (byteAt (lengthAnswer s) 1).toNat
      let clear := writeRegBytes s.cfg s.cfg.regStatus s.cfg.stRxDr
      .next { s.did [statusRead s, .xchg (lengthQueryBytes s.cfg) (lengthAnswer s),
          .xchg (readPayloadBytes s.cfg n) (payloadAnswer n (lengthQueried s)),
          .xchg clear ((rxDynStored n (lengthQueried s)).response clear)] 4
          { done := true, len := some (byteAt (lengthAnswer s) 1) } with
        rxb := (rxDynStored n (lengthQueried s)).rxb } := by
  rw [exec_rxDyn_open ho hcap (rxDynBody_payload h hn), rxDynPayload_did (s := lengthQueried s) hv hd]
  simp only [lengthQueried_did hv]
  rfl

end

/-! RX_FIXED (R193) -/

theorem exec_rxFixed_open (hcap : s.cfg.fixedLen.val ≤ s.cfg.rxbufCap) {ok : Bool} {t : State}
    (h : rxFixedBody s = (ok, t)) : exec .rxFixed s = .next (t.did [] 0 { done := true, ok := some ok }) := by
  rw [exec, execRxFixed, if_neg (Nat.not_lt.2 hcap), State.onBus_open ho, h, State.complete_eq]

section
variable (hv : s.cfg.Valid) (hcap : s.cfg.fixedLen.val ≤ s.cfg.rxbufCap)
include hv hcap

theorem exec_rxFixed_notReady (h : rxReadyValue s = false) :
    exec .rxFixed s = .next (s.did [statusRead s] 1 { done := true, ok := some false }) := by
  rw [exec_rxFixed_open ho hcap (rxFixedBody_notReady h), rxReadyBody, readStatus_did hv]

theorem exec_rxFixed_clear (hd : s.cfg.RegistersDistinct) (h : rxReadyValue s = true)
    (hc : s.cfg.fixedRxClear = true) :
    exec .rxFixed s =
      let n := s.cfg.fixedLen.val
      let clear := writeRegBytes s.cfg s.cfg.regStatus s.cfg.stRxDr
      let stored := rxFixedStored (rxReadyBody s)
      .next { s.did [statusRead s, .xchg (readPayloadBytes s.cfg n) (payloadAnswer n (rxReadyBody s)),
          .xchg clear (stored.response clear)] 3 { done := true, ok := some true } with rxb := stored.rxb } := by
  have hclear := clearFlag_did (s := rxFixedStored (rxReadyBody s)) hv hd s.cfg.stRxDr
  rw [exec_rxFixed_open ho hcap (rxFixedBody_clear h hc), hclear, rxFixedStored_did (s := rxReadyBody s) hv,
    rxReadyBody]
  simp only [readStatus_did hv]
  rfl

theorem exec_rxFixed_keep (h : rxReadyValue s = true) (hc : s.cfg.fixedRxClear = false) :
    exec .rxFixed s =
      let n := s.cfg.fixedLen.val
      .next { s.did [statusRead s, .xchg (readPayloadBytes s.cfg n) (payloadAnswer n (rxReadyBody s))] 2
          { done := true, ok := some true } with rxb := (rxFixedStored (rxReadyBody s)).rxb } := by
  rw [exec_rxFixed_open ho hcap (rxFixedBody_keep h hc), rxFixedStored_did (s := rxReadyBody s) hv, rxReadyBody]
  simp only [readStatus_did hv]
  rfl

end

/-! TX (R194) -/

theorem exec_tx_open {len : Byte} {payload : Bytes} (hl : payload.length = len.toNat) (hlen : len.toNat ≤ 32)
    {o : TxOutcome} {t : State} (h : txBody payload s = (o, t)) :
    exec (.tx len payload) s = .next (t.complete { done := true, ok := some (decide (o = .success)) }) := by
  have htxb : readTxb payload len.toNat = payload := List.take_of_length_le hl.le
  rw [exec, execTx, if_neg (Nat.not_lt.2 hlen), State.onBus_open ho, htxb, h]

section
variable (hv : s.cfg.Valid) {len : Byte} {payload : Bytes} (hl : payload.length = len.toNat) (hlen : len.toNat ≤ 32)
  {misses : List Bytes} {left : Nat}
include hv hl hlen

theorem exec_tx_sent (hd : s.cfg.RegistersDistinct)
    (hpoll : txBody payload s = txPoll (left + 1) (txPolled payload misses s))
    (h : byteAt (statusAnswer (txPolled payload misses s)) 1 &&& s.cfg.stTxDs ≠ 0#8) :
    exec (.tx len payload) s =
      let t := txPolled payload misses s
      let clear := writeRegBytes s.cfg s.cfg.regStatus s.cfg.stTxDs
      .next { s.did (txStart payload misses s ++ [statusRead t,
          .xchg clear ((readRegBody s.cfg.regStatus t).response clear), .ce false, .wait .tCeDown])
          (4 + misses.length) { done := true, ok := some true } with ce := false } := by
  rw [exec_tx_open ho hl hlen (hpoll.trans (txPoll_sent left h)), sent_complete (s := txPolled payload misses s) hv hd,
    show 4 + misses.length = 2 + misses.length + 2 by omega]
  simp only [txPolled_did hv]
  rfl

theorem exec_tx_maxRt (hd : s.cfg.RegistersDistinct)
    (hpoll : txBody payload s = txPoll (left + 1) (txPolled payload misses s))
    (h : byteAt (statusAnswer (txPolled payload misses s)) 1 &&& s.cfg.stTxDs = 0#8)
    (hm : byteAt (statusAnswer (txPolled payload misses s)) 1 &&& s.cfg.stMaxRt ≠ 0#8) :
    exec (.tx len payload) s =
      let t := txPolled payload misses s
      let clear := writeRegBytes s.cfg s.cfg.regStatus s.cfg.stMaxRt
      let cleared := clearFlag s.cfg.stMaxRt (readRegBody s.cfg.regStatus t)
      .next { s.did (txStart payload misses s ++ [statusRead t,
          .xchg clear ((readRegBody s.cfg.regStatus t).response clear),
          .xchg (flushTxBytes s.cfg) (cleared.response (flushTxBytes s.cfg)), .ce false, .wait .tCeDown])
          (5 + misses.length) { done := true, ok := some false } with ce := false } := by
  rw [exec_tx_open ho hl hlen (hpoll.trans (txPoll_maxRt left h hm)),
    maxRt_complete (s := txPolled payload misses s) hv hd, show 5 + misses.length = 2 + misses.length + 3 by omega]
  simp only [txPolled_did hv]
  rfl

theorem exec_tx_timeout (hpoll : txBody payload s = txPoll 0 (txPolled payload misses s)) :
    exec (.tx len payload) s =
      let t := txPolled payload misses s
      .next { s.did (txStart payload misses s ++ [.ce false, .wait .tCeDown,
          .xchg (flushTxBytes s.cfg) ((powerDownBody t).response (flushTxBytes s.cfg))])
          (3 + misses.length) { done := true, ok := some false } with ce := false } := by
  rw [exec_tx_open ho hl hlen hpoll, timeout_complete (s := txPolled payload misses s) hv,
    show 3 + misses.length = 2 + misses.length + 1 by omega]
  simp only [txPolled_did hv]
  rfl

end

end

/-! ### The flushes and the chip (10_state.md R45) -/

theorem decodeBus_flushTx {c : Cfg} (hv : c.Valid) : decodeBus c [c.cmdFlushTx] = some .busFlushTx := by
  obtain ⟨⟨-, -, hw, -⟩, ⟨-, hp, -⟩, ⟨ht, -⟩, -⟩ := fixed_distinct hv
  simp [decodeBus, hw.symm, hp.symm, ht.symm]

theorem decodeBus_flushRx {c : Cfg} (hv : c.Valid) : decodeBus c [c.cmdFlushRx] = some .busFlushRx := by
  obtain ⟨⟨-, -, -, hw⟩, ⟨-, -, hp⟩, ⟨-, ht, hf⟩, -⟩ := fixed_distinct hv
  simp [decodeBus, hw.symm, hp.symm, ht.symm, hf.symm]

theorem Chip.after_flushTx {c : Cfg} (hv : c.Valid) {k k' : Chip} (h : k.after c [c.cmdFlushTx] k') :
    k' = { k with txFifo := [] } := by
  simp only [Chip.after, decodeBus_flushTx hv] at h
  obtain ⟨-, -, hflushed⟩ := h
  exact hflushed

theorem Chip.after_flushRx {c : Cfg} (hv : c.Valid) {k k' : Chip} (h : k.after c [c.cmdFlushRx] k') :
    k' = { k with rxFifo := [] } := by
  simp only [Chip.after, decodeBus_flushRx hv] at h
  obtain ⟨-, -, hflushed⟩ := h
  exact hflushed

/-! ### STATUS writes of every request (R197) -/

/-- A 2-byte write to a register is emitted only as one that `w` allows: the other exchanges have another length or
another first byte. -/
theorem Emitted.write_allowed {c : Cfg} {w : RegAddr → Byte → Prop} (hv : c.Valid) {m : RegAddr} {v : Byte}
    (h : Emitted c w [wrcmd c m, v]) : w m v := by
  generalize hb : [wrcmd c m, v] = b at h
  cases h with
  | readReg m' => exact absurd (List.head_eq_of_cons_eq hb).symm (rdcmd_ne_wrcmd hv m' m)
  | writeReg m' v' hw =>
    simp only [writeRegBytes, List.cons.injEq, wrcmd_inj hv, and_true] at hb
    obtain ⟨rfl, rfl⟩ := hb
    exact hw
  | readLong m' => exact absurd (List.head_eq_of_cons_eq hb).symm (rdcmd_ne_wrcmd hv m' m)
  | writeLong m' d hd => simp [← List.tail_eq_of_cons_eq hb] at hd
  | lengthQuery => exact absurd (List.head_eq_of_cons_eq hb).symm (fixed_ne_wrcmd hv (plWid_mem c) m)
  | readPayload n => exact absurd (List.head_eq_of_cons_eq hb).symm (fixed_ne_wrcmd hv (rxPayload_mem c) m)
  | writePayload d => exact absurd (List.head_eq_of_cons_eq hb).symm (fixed_ne_wrcmd hv (txPayload_mem c) m)
  | flushTx => exact absurd (List.head_eq_of_cons_eq hb).symm (fixed_ne_wrcmd hv (flushTx_mem c) m)
  | flushRx => exact absurd (List.head_eq_of_cons_eq hb).symm (fixed_ne_wrcmd hv (flushRx_mem c) m)

theorem rxPipeReg_mem (c : Cfg) : rxPipeReg c ∈ longRegs c ++ shortRegs c := by
  unfold rxPipeReg
  split <;> simp [longRegs, shortRegs]

theorem framerWrites_status {c : Cfg} (hd : c.RegistersDistinct) {v : Byte} (h : framerWrites c c.regStatus v) :
    v ∈ statusFlags c :=
  (h.resolve_left (regStatus_distinct hd).1).2

/-- What a request other than WRITE_REG may write to STATUS: the address writes and INIT's list go to other
registers. -/
theorem writesOf_status {c : Cfg} (hd : c.RegistersDistinct) {i : Instr} (hp : i.port = .request)
    (hi : ∀ reg val, i ≠ .writeReg reg val) {v : Byte} (h : writesOf c i c.regStatus v) : v ∈ statusFlags c := by
  obtain ⟨-, hinit, haddr⟩ := regStatus_distinct hd
  cases i with
  | writeReg reg val => exact absurd rfl (hi reg val)
  | writeAddr reg a =>
    have hclass : addrClass c c.regStatus = .short := h.2
    rw [addrClass_none_iff.2 haddr] at hclass
    cases hclass
  | init txa rxa ch rt =>
    rcases h with h | h | ⟨h, -⟩
    · exact framerWrites_status hd h
    · exact absurd h hinit
    · exact absurd (h ▸ rxPipeReg_mem c) haddr
  | busWRegister => cases hp
  | _ => exact framerWrites_status hd h

/-- The events a request adds to the history are those its body is allowed, or none where it faults. -/
theorem Ends.events_allowed {i : Instr} {s t : State} (h : Ends i s t) (hp : i.port = .request) :
    ∃ evs, t.hist = s.hist ++ evs ∧ ∀ e ∈ evs, Allowed s.cfg (writesOf s.cfg i) (drivesCe i) e := by
  rcases h.request_cases hp with ⟨_, _, _, -, -, -, hrun, -, rfl⟩ | ⟨_, _, rfl⟩
  · obtain ⟨evs, hhist, -, hall, -⟩ := hrun.events
    exact ⟨evs, hhist, hall⟩
  · exact ⟨[], by simp, by simp⟩

/-! ### The obligations -/

/-- Settles O24: the request is the ready check that the two receives begin with. -/
theorem rxReadyTestsTheFifoField : Obligations.RxReadyTestsTheFifoField :=
  ⟨decode_of_operands (o := .rxReady) rfl, fun s hv =>
    ⟨fun ho => ⟨_, statusAnswer_drawn s, exec_rxReady_open ho hv⟩,
      exec_of_closed (i := .rxReady) (op := 0x0E) rfl rfl⟩⟩

/-- Settles O25, by the two tests of R192: the FIFO field of STATUS, then the reported length. -/
theorem rxDynReceivesOnePayload : Obligations.RxDynReceivesOnePayload := by
  refine ⟨decode_of_operands (o := .rxDyn) rfl, fun s h => exec_of_operandFault (i := .rxDyn) (if_pos h), fun s h =>
    exec_of_closed (i := .rxDyn) (op := 0x0F) rfl (if_neg (Nat.not_lt.2 h)), fun s hv hd hcap ho =>
    ⟨_, statusAnswer_drawn s, fun h => ?_, fun h =>
      ⟨lengthAnswer s, State.response_drawn_of rfl _, fun hn => ?_, fun hn => ?_⟩⟩⟩
  · exact exec_rxDyn_notReady ho hv hcap (rxReadyValue_false h)
  · exact ⟨_, State.response_drawn_of (lengthQueried_answers s) _,
      exec_rxDyn_tooLong ho hv hcap (rxReadyValue_true h) hn⟩
  · exact ⟨_, _, _, State.response_drawn_of (lengthQueried_answers s) _,
      State.response_drawn_of (by simp [rxDynStored, lengthQueried_answers]) _, read_payload_terminated _ _ _,
      exec_rxDyn_payload ho hv hcap hd (rxReadyValue_true h) hn⟩

/-- Settles O27: the ready check, then the payload read, with the clear that `FIXED_RX_CLEAR` selects. -/
theorem rxFixedReceivesAConstantLength : Obligations.RxFixedReceivesAConstantLength := by
  refine ⟨decode_of_operands (o := .rxFixed) rfl, fun s h =>
    exec_of_operandFault (i := .rxFixed) (if_pos h), fun s h =>
    exec_of_closed (i := .rxFixed) (op := 0x10) rfl (if_neg (Nat.not_lt.2 h)), fun s hv hd hcap ho =>
    ⟨_, statusAnswer_drawn s, fun h => ?_, fun h => ?_⟩⟩
  · exact exec_rxFixed_notReady ho hv hcap (rxReadyValue_false h)
  · refine ⟨_, _, State.response_drawn_of rfl _, read_payload _ _ (rxReadyBody s), fun hc => ?_, fun hc => ?_⟩
    · exact ⟨_, State.response_drawn_of (by simp [rxFixedStored, rxReadyBody, readRegBody]) _,
        exec_rxFixed_clear ho hv hcap hd (rxReadyValue_true h) hc⟩
    · exact exec_rxFixed_keep ho hv hcap (rxReadyValue_true h) hc

/-- Settles O28: the polls that miss lead to a state with no poll left, or whose next poll finds TX_DS, or MAX_RT
without TX_DS. -/
theorem txEndsInOneOfThreeWays : Obligations.TxEndsInOneOfThreeWays := by
  refine ⟨fun len payload s hl => ⟨decode_of_operands (o := .tx) (counted_of_length hl _), fun h =>
    exec_of_operandFault (i := .tx len payload) (if_pos h), fun h =>
    exec_of_closed (i := .tx len payload) (op := 0x11) rfl (if_neg (Nat.not_lt.2 h))⟩,
    fun len payload s hv hd ho hl hlen => ?_⟩
  obtain ⟨misses, left, hcount, hpoll, hdrawn, hmiss, hend⟩ :=
    txPoll_misses s.cfg.txPollCap (s := txLoad payload s) hv
  have hload := State.response_drawn (s.exchange (flushTxBytes s.cfg)) (writePayloadBytes s.cfg payload)
  have hanswers := txPolled_answers payload misses s
  refine ⟨_, _, misses, s.response_drawn _, hload, fun k hk => ?_, hmiss, ?_⟩
  · have hk' := hdrawn k hk
    rw [txLoad_answers, List.drop_drop] at hk'
    exact hk'
  cases left with
  | zero =>
    have hflush := State.response_drawn_of (s := powerDownBody (txPolled payload misses s)) hanswers
    exact .inr (.inr ⟨hcount, _, hflush _, exec_tx_timeout ho hv hl hlen hpoll⟩)
  | succ left =>
    have hlt : misses.length < s.cfg.txPollCap := by omega
    have hstatus := State.response_drawn_of hanswers (readRegBytes s.cfg s.cfg.regStatus)
    have hclear := txPolled_clear_drawn payload misses s
    by_cases hs : byteAt (statusAnswer (txPolled payload misses s)) 1 &&& s.cfg.stTxDs = 0#8
    · have hm := not_and.1 (hend.resolve_left (Nat.succ_ne_zero left)) hs
      exact .inr (.inl ⟨hlt, _, _, _, hstatus, hclear _, txPolled_flush_drawn payload misses s _ _, hs, hm,
        exec_tx_maxRt ho hv hl hlen hd hpoll hs hm⟩)
    · exact .inl ⟨hlt, _, _, hstatus, hclear _, hs, exec_tx_sent ho hv hl hlen hd hpoll hs⟩

/-- Settles O31: of the writes that R197's instructions are allowed, those to STATUS have one flag. -/
theorem statusClearsWriteOneFlag : Obligations.StatusClearsWriteOneFlag := by
  intro i s t evs v r hv hd hp hi hexec hhist hmem
  obtain ⟨evs', hhist', hall⟩ := (ends_of_exec hexec).events_allowed hp
  obtain rfl : evs = evs' := List.append_cancel_left (hhist.symm.trans hhist')
  obtain ⟨hemitted, -⟩ := hall _ hmem
  exact writesOf_status hd hp hi (hemitted.write_allowed hv)

/-- Settles O30: the model's flush bytes are the commands that the contract's decoder reads as flushes. -/
theorem flushesSendOneByte : Obligations.FlushesSendOneByte := by
  refine ⟨⟨decode_of_operands (o := .flushTx) rfl, decode_of_operands (o := .flushRx) rfl⟩, fun s hv =>
    ⟨fun ho => ⟨?_, ?_⟩, fun hc => ⟨?_, ?_⟩, fun k k' => ⟨fun h => ?_, fun h => ?_⟩⟩⟩
  · exact ⟨_, s.response_drawn _, exec_flushTx_open ho hv⟩
  · exact ⟨_, s.response_drawn _, exec_flushRx_open ho hv⟩
  · exact exec_of_closed (i := .flushTx) (op := 0x12) rfl rfl hc
  · exact exec_of_closed (i := .flushRx) (op := 0x13) rfl rfl hc
  · rw [Chip.after_flushTx hv h]
  · rw [Chip.after_flushRx hv h]

end Sys2Proof.Machine
end

section
/-! Proofs about the host-level operations (44_host_ops.md): a run of events and what it leaves, a list of exchanges and
its answers, INIT request by request, RX_LOOP iteration by iteration, SHUTDOWN and WAIT. -/

namespace Sys2Proof.Machine

/-! ### A run of events and what it leaves -/

/-- RXB after the payloads `ps` were stored in it one after the other, each with its terminator (43_framing.md R192). -/
def storePayloads (rxb : Memory) (ps : List Bytes) : Memory :=
  ps.foldl (fun m p => Memory.writeBytes m 0 (p ++ [0x00])) rxb

/-- `s` after the events `evs`: the line follows the last level driven (10_state.md R31), the shadow the last CONFIG
write (R32), and every payload read is stored in RXB. -/
def State.ran (s : State) (evs : List Event) : State :=
  { s with
    hist := s.hist ++ evs
    answers := s.answers.drop (evs.countP isExchange)
    ce := ((evs.filterMap ceLevel).getLast?).getD s.ce
    cfgsh := (shadowOf s.cfg evs).or s.cfgsh
    rxb := storePayloads s.rxb (evs.filterMap (payloadRead s.cfg)) }

theorem State.ran_append (s : State) (es fs : List Event) : (s.ran es).ran fs = s.ran (es ++ fs) := by
  simp [State.ran, shadowOf, storePayloads, List.getLast?_append, Option.or_assoc, Option.getD_or]

/-- The events `evs` bring `s` to `t`, and their answers are the chip's next draws. -/
def Runs (s : State) (evs : List Event) (t : State) : Prop := drawnAll s.answers evs ∧ t = s.ran evs

theorem Runs.nil (s : State) : Runs s [] s := ⟨trivial, by simp [State.ran, shadowOf, storePayloads]⟩

theorem Runs.trans {s t u : State} {es fs : List Event} (h : Runs s es t) (h' : Runs t fs u) : Runs s (es ++ fs) u := by
  obtain ⟨hdrawn, rfl⟩ := h
  obtain ⟨hdrawn', rfl⟩ := h'
  exact ⟨(drawnAll_append _ es fs).2 ⟨hdrawn, hdrawn'⟩, s.ran_append es fs⟩

theorem Runs.cfg_eq {s t : State} {evs : List Event} (h : Runs s evs t) : t.cfg = s.cfg := by
  obtain ⟨-, rfl⟩ := h
  rfl

theorem setCE_runs (v : Bool) (s : State) : Runs s [.ce v] (s.setCE v) := ⟨trivial, rfl⟩

theorem waitFor_runs (d : Delay) (s : State) : Runs s [.wait d] (s.waitFor d) := ⟨trivial, rfl⟩

/-- The shadow follows the exchange as its event says. -/
theorem exchange_shadow (s : State) (b r : Bytes) :
    shadowAfter s.cfg s.cfgsh b = (shadowOf s.cfg [.xchg b r]).or s.cfgsh := by
  rw [shadowAfter_configWrite s.cfg s.cfgsh b r, shadowOf]
  cases h : configWrite s.cfg (.xchg b r) <;> simp [h]

theorem payloadRead_other {c : Cfg} {cmd : Byte} (h : cmd ≠ c.cmdRRxPayload) (rest r : Bytes) :
    payloadRead c (.xchg (cmd :: rest) r) = none := if_neg h

theorem payloadRead_wait (c : Cfg) (d : Delay) : payloadRead c (.wait d) = none := rfl

theorem payloadRead_payload (c : Cfg) (n : Nat) (r : Bytes) :
    payloadRead c (.xchg (readPayloadBytes c n) r) = some (r.drop 1) := if_pos rfl

/-- An exchange that reads no payload. -/
theorem exchange_runs {s : State} {cmd : Byte} (h : cmd ≠ s.cfg.cmdRRxPayload) (rest : Bytes) :
    Runs s [.xchg (cmd :: rest) (s.response (cmd :: rest))] (s.exchange (cmd :: rest)) := by
  refine ⟨⟨s.response_drawn _, trivial⟩, ?_⟩
  rw [State.exchange, State.ran, exchange_shadow s _ (s.response (cmd :: rest)), List.filterMap_cons_none
    (payloadRead_other h rest _)]
  rfl

/-- The payload read of RX_DYN, with the payload and its terminator in RXB. -/
theorem rxDynStored_runs (n : Nat) (s : State) :
    Runs s [.xchg (readPayloadBytes s.cfg n) (payloadAnswer n s)] (rxDynStored n s) := by
  refine ⟨⟨s.response_drawn _, trivial⟩, ?_⟩
  rw [State.ran, List.filterMap_cons_some (payloadRead_payload _ _ _), rxDynStored, State.exchange, exchange_shadow]
  rfl

section
variable {c : Cfg} (hv : c.Valid)
include hv

theorem rdcmd_ne_rxPayload (m : RegAddr) : rdcmd c m ≠ c.cmdRRxPayload := (fixed_ne_rdcmd hv (rxPayload_mem c) m).symm

theorem wrcmd_ne_rxPayload (m : RegAddr) : wrcmd c m ≠ c.cmdRRxPayload := (fixed_ne_wrcmd hv (rxPayload_mem c) m).symm

theorem rxPlWid_ne_rxPayload : c.cmdRRxPlWid ≠ c.cmdRRxPayload := by
  obtain ⟨⟨hwidth, -⟩, -⟩ := fixed_distinct hv
  exact hwidth

theorem flushRx_ne_rxPayload : c.cmdFlushRx ≠ c.cmdRRxPayload := by
  obtain ⟨-, ⟨-, -, hflush⟩, -⟩ := fixed_distinct hv
  exact hflush.symm

end

/-! ### A list of exchanges and its answers -/

/-- `s` after the exchanges of the request bytes `bs`, one after the other. -/
def State.sends (s : State) (bs : List Bytes) : State := bs.foldl State.exchange s

theorem State.sends_append (s : State) (bs ds : List Bytes) : s.sends (bs ++ ds) = (s.sends bs).sends ds :=
  List.foldl_append

/-- The answers to those exchanges. -/
def State.replies (s : State) : List Bytes → List Bytes
  | [] => []
  | b :: bs => s.response b :: (s.exchange b).replies bs

@[simp] theorem State.replies_length (s : State) (bs : List Bytes) : (s.replies bs).length = bs.length := by
  induction bs generalizing s with
  | nil => rfl
  | cons b bs ih => exact congrArg (· + 1) (ih (s.exchange b))

theorem State.replies_append (s : State) (bs ds : List Bytes) :
    s.replies (bs ++ ds) = s.replies bs ++ (s.sends bs).replies ds := by
  induction bs generalizing s with
  | nil => rfl
  | cons b bs ih => exact congrArg (s.response b :: ·) (ih (s.exchange b))

/-- The answers are the chip's next draws, in order. -/
theorem State.replies_drawn (s : State) {bs : List Bytes} {k : Nat} (hk : k < bs.length) :
    Drawn (s.answers.drop k) (bs.getD k []) ((s.replies bs).getD k []) := by
  induction bs generalizing s k with
  | nil => simp at hk
  | cons b bs ih =>
    cases k with
    | zero => exact s.response_drawn b
    | succ k =>
      have hrest := ih (s.exchange b) (Nat.lt_of_succ_lt_succ hk)
      rw [State.exchange_answers, List.drop_drop, Nat.add_comm 1 k] at hrest
      exact hrest

@[simp] theorem State.sends_cfg (s : State) (bs : List Bytes) : (s.sends bs).cfg = s.cfg := by
  induction bs generalizing s with
  | nil => rfl
  | cons b bs ih => exact ih (s.exchange b)

theorem State.sends_answers (s : State) (bs : List Bytes) : (s.sends bs).answers = s.answers.drop bs.length := by
  induction bs generalizing s with
  | nil => rfl
  | cons b bs ih => exact (ih (s.exchange b)).trans (by simp [Nat.add_comm])

/-- A request that begins with such exchanges: their events come before its own. -/
theorem State.sends_did (s : State) (bs : List Bytes) (evs : List Event) (n : Nat) (r : Result) :
    (s.sends bs).did evs n r =
      { s.did (List.zipWith Event.xchg bs (s.replies bs) ++ evs) (bs.length + n) r with
        cfgsh := bs.foldl (shadowAfter s.cfg) s.cfgsh } := by
  induction bs generalizing s with
  | nil => simp [State.sends, State.replies, State.did]
  | cons b bs ih =>
    refine (ih (s.exchange b)).trans ?_
    simp [State.did, State.replies, Nat.add_comm, Nat.add_left_comm]

theorem State.waitFor_did (s : State) (d : Delay) (evs : List Event) (n : Nat) (r : Result) :
    (s.waitFor d).did evs n r = s.did (.wait d :: evs) n r := by
  simp [State.did, State.waitFor]

/-! ### Operand bytes -/

theorem leAddr_five (v : Addr) :
    leAddr [v.extractLsb' 0 8, v.extractLsb' 8 8, v.extractLsb' 16 8, v.extractLsb' 24 8, v.extractLsb' 32 8] = v := by
  rw [← enc_five]
  exact leAddr_leBytes v

theorem ofNat_leNat_two (v : BitVec 16) : BitVec.ofNat 16 (leNat [v.extractLsb' 0 8, v.extractLsb' 8 8]) = v := by
  apply BitVec.eq_of_toNat_eq
  simp [leNat, BitVec.extractLsb'_toNat, Nat.shiftRight_eq_div_pow]
  omega

theorem ofNat_leNat_four (v : BitVec 32) :
    BitVec.ofNat 32 (leNat [v.extractLsb' 0 8, v.extractLsb' 8 8, v.extractLsb' 16 8, v.extractLsb' 24 8]) = v := by
  apply BitVec.eq_of_toNat_eq
  simp [leNat, BitVec.extractLsb'_toNat, Nat.shiftRight_eq_div_pow]
  omega

theorem decode_init (txa rxa : Addr) (ch rt : Byte) :
    decode (0x14 :: (enc txa 5 ++ enc rxa 5 ++ [ch, rt])) = .ok (.init txa rxa ch rt) := by
  rw [enc_five, enc_five]
  exact decode_of_operands (o := .init)
    (congrArg₂ (fun t r => some (Instr.init t r ch rt)) (leAddr_five txa) (leAddr_five rxa))

/-! ### INIT (R220) -/

/-- The request bytes of INIT's eight writes. -/
def initRequests (c : Cfg) (txa rxa : Addr) (ch rt : Byte) : List Bytes :=
  [wrcmd c c.regTxAddr :: enc txa 5, writeAddrBytes c (rxPipeReg c) rxa, writeRegBytes c c.regRfSetup c.initRfSetup,
    writeRegBytes c c.regDynpd c.initDynpd, writeRegBytes c c.regFeature c.initFeature, writeRegBytes c c.regRfCh ch,
    writeRegBytes c c.regConfig c.initConfig, writeRegBytes c c.regSetupRetr rt]

theorem initWrites_sends (txa rxa : Addr) (ch rt : Byte) (s : State) :
    initWrites txa rxa ch rt s = s.sends (initRequests s.cfg txa rxa ch rt) := by
  rw [initWrites_eq, writeAddrBody_eq]
  rfl

/-- The CONFIG byte that the startRadio of INIT writes back. -/
def initConfigByte (txa rxa : Addr) (ch rt : Byte) (s : State) : Byte :=
  byteAt (configAnswer (s.sends (initRequests s.cfg txa rxa ch rt))) 1 ||| s.cfg.cfgPwrUp

/-- The request bytes of INIT's exchanges before its delay: the eight writes, then the read and write-back of
CONFIG. -/
def initSent (txa rxa : Addr) (ch rt : Byte) (s : State) : List Bytes :=
  initRequests s.cfg txa rxa ch rt ++
    [readRegBytes s.cfg s.cfg.regConfig, writeRegBytes s.cfg s.cfg.regConfig (initConfigByte txa rxa ch rt s)]

theorem startRadioBody_sends (s : State) :
    startRadioBody s = (s.sends [readRegBytes s.cfg s.cfg.regConfig, writeRegBytes s.cfg s.cfg.regConfig
      (byteAt (configAnswer s) 1 ||| s.cfg.cfgPwrUp)]).waitFor .tRadio := rfl

theorem initBody_eq (txa rxa : Addr) (ch rt : Byte) (s : State) :
    initBody txa rxa ch rt s =
      ((s.sends (initSent txa rxa ch rt s)).waitFor .tRadio).exchange (flushRxBytes s.cfg) := by
  rw [initBody, initWrites_sends, startRadioBody_sends, State.sends_cfg, ← State.sends_append, initSent, initConfigByte]

/-- The last write is to CONFIG, and the shadow follows it. -/
theorem initSent_shadow (txa rxa : Addr) (ch rt : Byte) {s : State} (hv : s.cfg.Valid) :
    (initSent txa rxa ch rt s).foldl (shadowAfter s.cfg) s.cfgsh = some (initConfigByte txa rxa ch rt s) := by
  simp only [initSent, List.foldl_append, List.foldl_cons, List.foldl_nil]
  rw [shadowAfter_writeReg hv, if_pos rfl]

/-- The answer to INIT's flush, which follows the delay. -/
def initFlushAnswer (txa rxa : Addr) (ch rt : Byte) (s : State) : Bytes :=
  ((s.sends (initSent txa rxa ch rt s)).waitFor .tRadio).response (flushRxBytes s.cfg)

theorem initSent_length (txa rxa : Addr) (ch rt : Byte) (s : State) : (initSent txa rxa ch rt s).length = 10 := rfl

theorem rxPipeReg_eq_getD (c : Cfg) :
    rxPipeReg c = [c.regRxAddrP0, c.regRxAddrP1, c.regRxAddrP2, c.regRxAddrP3, c.regRxAddrP4, c.regRxAddrP5].getD
      c.rxPipe.val 0 := by
  unfold rxPipeReg
  split <;> simp [*]

theorem shortRegs_not_long {c : Cfg} (hd : c.RegistersDistinct) : ∀ m ∈ shortRegs c, m ∉ longRegs c := by
  simp only [Cfg.RegistersDistinct, Cfg.registers, List.nodup_cons, List.mem_cons, not_or] at hd
  simp only [longRegs, shortRegs, List.mem_cons, not_or]
  grind

theorem rxPipeReg_long_iff {c : Cfg} (hd : c.RegistersDistinct) : rxPipeReg c ∈ longRegs c ↔ c.rxPipe.val ≤ 1 := by
  have hshort := shortRegs_not_long hd
  simp only [shortRegs, List.forall_mem_cons] at hshort
  unfold rxPipeReg
  split <;> simp [*, mem_longRegs]

theorem exec_init_open {s : State} (ho : s.isOpen = true) (hv : s.cfg.Valid) (txa rxa : Addr) (ch rt : Byte) :
    exec (.init txa rxa ch rt) s =
      let sent := initSent txa rxa ch rt s
      .next { s.did (List.zipWith Event.xchg sent (s.replies sent) ++
          [.wait .tRadio, .xchg (flushRxBytes s.cfg) (initFlushAnswer txa rxa ch rt s)]) 11 { done := true } with
        cfgsh := some (initConfigByte txa rxa ch rt s) } := by
  have hflush := State.exchange_did (s := (s.sends (initSent txa rxa ch rt s)).waitFor .tRadio)
    (b := flushRxBytes s.cfg) (by simpa using keepsShadow_flushRx hv)
  rw [exec, execInit, State.onBus_open ho, State.complete_eq, initBody_eq, hflush, State.waitFor_did, State.sends_did,
    initSent_shadow _ _ _ _ hv, initSent_length, initFlushAnswer]

/-- The answers to INIT's eleven exchanges. -/
def initAnswer (txa rxa : Addr) (ch rt : Byte) (s : State) (k : Nat) : Bytes :=
  if k < 10 then (s.replies (initSent txa rxa ch rt s)).getD k [] else initFlushAnswer txa rxa ch rt s

theorem initAnswer_drawn (txa rxa : Addr) (ch rt : Byte) (s : State) {k : Nat} (hk : k < 11) :
    Drawn (s.answers.drop k) ((initSent txa rxa ch rt s ++ [flushRxBytes s.cfg]).getD k [])
      (initAnswer txa rxa ch rt s k) := by
  rcases Nat.lt_succ_iff_lt_or_eq.1 hk with h | rfl
  · rw [initAnswer, if_pos h, List.getD_append _ _ _ _ h]
    exact s.replies_drawn h
  · have hanswers : ((s.sends (initSent txa rxa ch rt s)).waitFor .tRadio).answers = s.answers.drop 10 :=
      s.sends_answers (initSent txa rxa ch rt s)
    exact State.response_drawn_of hanswers (flushRxBytes s.cfg)

/-- The CONFIG read is the ninth exchange. -/
theorem initAnswer_config (txa rxa : Addr) (ch rt : Byte) (s : State) :
    byteAt (initAnswer txa rxa ch rt s 8) 1 ||| s.cfg.cfgPwrUp = initConfigByte txa rxa ch rt s := by
  have hlen : (s.replies (initRequests s.cfg txa rxa ch rt)).length = 8 := s.replies_length _
  rw [initAnswer, if_pos (by decide), initSent, State.replies_append, List.getD_append_right _ _ _ _ hlen.le, hlen,
    initConfigByte, configAnswer, State.sends_cfg]
  rfl

theorem initAnswer_flush (txa rxa : Addr) (ch rt : Byte) (s : State) :
    initAnswer txa rxa ch rt s 10 = initFlushAnswer txa rxa ch rt s := if_neg (lt_irrefl 10)

/-- The exchanges before the delay, by number. -/
theorem initEvents_eq (txa rxa : Addr) (ch rt : Byte) (s : State) :
    List.zipWith Event.xchg (initSent txa rxa ch rt s) (s.replies (initSent txa rxa ch rt s)) =
      (List.range 10).map fun k =>
        Event.xchg ((initSent txa rxa ch rt s ++ [flushRxBytes s.cfg]).getD k []) (initAnswer txa rxa ch rt s k) := by
  refine List.ext_getElem (by simp [initSent_length]) fun k hk _ => ?_
  have hk' : k < (initSent txa rxa ch rt s).length := by simpa using hk
  have hlt : k < 10 := hk'
  simp [initAnswer, hlt, hk', List.getElem?_append_left]

/-- INIT with its requests, its answers and its events by number. -/
theorem init_numbered {s : State} (ho : s.isOpen = true) (hv : s.cfg.Valid) (txa rxa : Addr) (ch rt : Byte)
    {sent : List Bytes} (hsent : sent = initSent txa rxa ch rt s ++ [flushRxBytes s.cfg]) :
    (∀ k, k < 11 → Drawn (s.answers.drop k) (sent.getD k []) (initAnswer txa rxa ch rt s k)) ∧
      exec (.init txa rxa ch rt) s =
        .next { s.did (((List.range 10).map fun k => Event.xchg (sent.getD k []) (initAnswer txa rxa ch rt s k)) ++
            [.wait .tRadio, .xchg [s.cfg.cmdFlushRx] (initAnswer txa rxa ch rt s 10)]) 11 { done := true } with
          cfgsh := some (byteAt (initAnswer txa rxa ch rt s 8) 1 ||| s.cfg.cfgPwrUp) } := by
  subst hsent
  refine ⟨fun k hk => initAnswer_drawn txa rxa ch rt s hk, ?_⟩
  rw [exec_init_open ho hv, initAnswer_config, initAnswer_flush, ← initEvents_eq]
  rfl

/-! ### The receive role on and off (R175, R176 in R221) -/

/-- The events of START_RX and STOP_RX: the line driven and settled, CONFIG read and written back as `v`, `T_RX`
waited. -/
def roleEvents (c : Cfg) (level : Bool) (settle : Delay) (v : Byte) (r r2 : Bytes) : List Event :=
  [.ce level, .wait settle, .xchg (readRegBytes c c.regConfig) r, .xchg (writeRegBytes c c.regConfig v) r2, .wait .tRx]

section
variable {c : Cfg} (hv : c.Valid) (level : Bool) (settle : Delay) (v : Byte) (r r2 : Bytes)
include hv

theorem roleEvents_reads : (roleEvents c level settle v r r2).filterMap (payloadRead c) = [] := by
  simp [roleEvents, payloadRead, readRegBytes, writeRegBytes, rdcmd_ne_rxPayload hv, wrcmd_ne_rxPayload hv]

theorem roleEvents_shadow : shadowOf c (roleEvents c level settle v r r2) = some v := by
  have hwrites : (roleEvents c level settle v r r2).filterMap (configWrite c) = [v] := by
    simp [roleEvents, List.filterMap_cons, configWrite, readRegBytes, writeRegBytes, rdcmd_ne_wrcmd hv]
  rw [shadowOf, hwrites, List.getLast?_singleton]

end

section
variable {s : State} (hv : s.cfg.Valid)
include hv

theorem configRewrite_runs (v : Byte) :
    Runs s (configRewrite v s) (writeRegBody s.cfg.regConfig v (readRegBody s.cfg.regConfig s)) :=
  (exchange_runs (rdcmd_ne_rxPayload hv _) _).trans
    (exchange_runs (s := readRegBody s.cfg.regConfig s) (wrcmd_ne_rxPayload hv _) _)

end

section
variable {c : Cfg} {s : State} (hc : s.cfg = c) (hv : c.Valid)
include hc hv

/-- The line is driven and settles; then CONFIG is read and written back as `v`, and `T_RX` is waited. -/
theorem role_runs {t : State} {level : Bool} {settle : Delay} (hline : Runs s [.ce level, .wait settle] t) (v : Byte) :
    Runs s (roleEvents c level settle v (configAnswer t) (configEcho v t))
      ((writeRegBody t.cfg.regConfig v (readRegBody t.cfg.regConfig t)).waitFor .tRx) := by
  obtain rfl : t.cfg = c := hline.cfg_eq.trans hc
  exact (hline.trans (configRewrite_runs hv v)).trans (waitFor_runs .tRx _)

theorem startRxBody_runs :
    ∃ r r2, Runs s (roleEvents c true .tCeUp (byteAt r 1 ||| c.cfgPrimRx) r r2) (startRxBody s) := by
  subst hc
  exact ⟨_, _, role_runs rfl hv ((setCE_runs true s).trans (waitFor_runs .tCeUp _)) _⟩

theorem stopRxBody_runs :
    ∃ r r2, Runs s (roleEvents c false .tCeDown (byteAt r 1 &&& ~~~c.cfgPrimRx) r r2) (stopRxBody s) := by
  subst hc
  exact ⟨_, _, role_runs rfl hv ((setCE_runs false s).trans (waitFor_runs .tCeDown _)) _⟩

end

/-! ### One iteration of RX_LOOP (R221) -/

/-- The payloads that the events read and RX_LOOP returns: those of at least one byte. -/
def payloadsOf (c : Cfg) (evs : List Event) : List Bytes := (evs.filterMap (payloadRead c)).filter fun p => p ≠ []

theorem payloadsOf_append (c : Cfg) (es fs : List Event) :
    payloadsOf c (es ++ fs) = payloadsOf c es ++ payloadsOf c fs := by
  simp [payloadsOf]

/-- What RX_LOOP reads back from RXB after a dynamic receive that reported the length `n`. -/
def readBack (n : Byte) (rxb : Memory) : List Bytes := if 0 < n.toNat then [Memory.readBytes rxb 0 n.toNat] else []

/-- An iteration begins with one dynamic receive, whose payload is read back, and the poll delay. -/
theorem rxLoopIter_succ (n : Nat) (ps : List Bytes) (s : State) :
    rxLoopIter (n + 1) ps s =
      rxLoopIter n (ps ++ readBack (rxDynBody s).1 (rxDynBody s).2.rxb) ((rxDynBody s).2.waitFor .tRxPoll) := by
  rw [rxLoopIter, readBack]
  split_ifs <;> simp

/-- RXB gives back the payload that was just stored in it, and an empty one is dropped. -/
theorem readBack_writeBytes {n : Byte} {p : Bytes} (hlen : p.length = n.toNat) (m : Memory) :
    readBack n (Memory.writeBytes m 0 (p ++ [0x00])) = [p].filter fun p => p ≠ [] := by
  have hread : Memory.readBytes (Memory.writeBytes m 0 (p ++ [0x00])) 0 n.toNat = p := by
    rw [Memory.readBytes_writeBytes _ _ (by simp [hlen]), ← hlen, List.take_left]
  rw [readBack, hread, ← hlen]
  cases p <;> simp

@[simp] theorem lengthQueried_cfg (s : State) : (lengthQueried s).cfg = s.cfg := rfl

section
variable {s : State} (hv : s.cfg.Valid)
include hv

theorem rxReadyBody_runs : Runs s [statusRead s] (rxReadyBody s) := exchange_runs (rdcmd_ne_rxPayload hv _) _

theorem lengthQueried_runs :
    Runs s [statusRead s, .xchg (lengthQueryBytes s.cfg) (lengthAnswer s)] (lengthQueried s) :=
  (rxReadyBody_runs hv).trans (exchange_runs (s := rxReadyBody s) (rxPlWid_ne_rxPayload hv) _)

theorem rxDynPayload_runs (n : Byte) :
    Runs s [.xchg (readPayloadBytes s.cfg n.toNat) (payloadAnswer n.toNat s),
      .xchg (writeRegBytes s.cfg s.cfg.regStatus s.cfg.stRxDr)
        ((rxDynStored n.toNat s).response (writeRegBytes s.cfg s.cfg.regStatus s.cfg.stRxDr))] (rxDynPayload n s) :=
  (rxDynStored_runs n.toNat s).trans (exchange_runs (s := rxDynStored n.toNat s) (wrcmd_ne_rxPayload hv _) _)

/-- A dynamic receive and its poll delay are one iteration, and what is read back from RXB is the payload read on the
bus. -/
theorem rxDynBody_iteration :
    ∃ evs, Runs s evs ((rxDynBody s).2.waitFor .tRxPoll) ∧ rxIteration s.cfg evs ∧
      readBack (rxDynBody s).1 (rxDynBody s).2.rxb = payloadsOf s.cfg evs := by
  have hpoll := waitFor_runs .tRxPoll (rxDynBody s).2
  have hstatus : payloadRead s.cfg (statusRead s) = none := payloadRead_other (rdcmd_ne_rxPayload hv _) _ _
  have hquery : payloadRead s.cfg (.xchg (lengthQueryBytes s.cfg) (lengthAnswer s)) = none :=
    payloadRead_other (rxPlWid_ne_rxPayload hv) _ _
  by_cases h : byteAt (statusAnswer s) 1 &&& s.cfg.stRxEmptyField = s.cfg.stRxEmptyField
  · rw [rxDynBody_notReady (rxReadyValue_false h)] at hpoll ⊢
    refine ⟨_, (rxReadyBody_runs hv).trans hpoll, ⟨_, .inl ⟨h, rfl⟩⟩, ?_⟩
    simp [readBack, payloadsOf, hstatus, payloadRead_wait]
  by_cases hn : 32 < (byteAt (lengthAnswer s) 1).toNat
  · rw [rxDynBody_tooLong (rxReadyValue_true h) hn] at hpoll ⊢
    have hflush := exchange_runs (s := lengthQueried s) (flushRx_ne_rxPayload hv) []
    refine ⟨_, ((lengthQueried_runs hv).trans hflush).trans hpoll, ⟨_, .inr ⟨h, _, .inl ⟨hn, _, rfl⟩⟩⟩, ?_⟩
    have hother := fun r => payloadRead_other (flushRx_ne_rxPayload hv) [] r
    simp [readBack, payloadsOf, hstatus, hquery, hother, payloadRead_wait]
  · have hle := Nat.not_lt.1 hn
    rw [rxDynBody_payload (rxReadyValue_true h) hle] at hpoll ⊢
    have hpay := rxDynPayload_runs (s := lengthQueried s) hv (byteAt (lengthAnswer s) 1)
    refine ⟨_, ((lengthQueried_runs hv).trans hpay).trans hpoll, ⟨_, .inr ⟨h, _, .inr ⟨hle, _, _, rfl⟩⟩⟩, ?_⟩
    have hother := fun v r => payloadRead_other (wrcmd_ne_rxPayload hv s.cfg.regStatus) [v] r
    have hlen : ((payloadAnswer (byteAt (lengthAnswer s) 1).toNat (lengthQueried s)).drop 1).length =
        (byteAt (lengthAnswer s) 1).toNat := by
      rw [List.length_drop, payloadAnswer_length, Nat.add_sub_cancel]
    refine (readBack_writeBytes hlen (lengthQueried s).rxb).trans ?_
    simp [payloadsOf, hstatus, hquery, hother, writeRegBytes, List.filterMap_cons,
      payloadRead_payload, payloadRead_wait]

end

/-! ### The loop (R221) -/

theorem rxLoopIter_runs (n : Nat) (ps : List Bytes) {c : Cfg} (hv : c.Valid) {s : State} (hc : s.cfg = c) :
    ∃ (iters : List (List Event)) (t : State), iters.length = n ∧ (∀ it ∈ iters, rxIteration c it) ∧
      Runs s iters.flatten t ∧ rxLoopIter n ps s = (ps ++ payloadsOf c iters.flatten, t) := by
  induction n generalizing ps s with
  | zero => exact ⟨[], s, rfl, by simp, .nil s, by simp [rxLoopIter, payloadsOf]⟩
  | succ n ih =>
    subst hc
    obtain ⟨evs, hruns, hiter, hback⟩ := rxDynBody_iteration hv
    obtain ⟨iters, t, hlen, hiters, hrest, hloop⟩ := ih (ps ++ payloadsOf s.cfg evs) hruns.cfg_eq
    refine ⟨evs :: iters, t, by simp [hlen], List.forall_mem_cons.2 ⟨hiter, hiters⟩, hruns.trans hrest, ?_⟩
    rw [rxLoopIter_succ, hback, hloop, List.flatten_cons, payloadsOf_append, List.append_assoc]

/-- The events of RX_LOOP around those of its iterations. -/
def rxLoopEvents (c : Cfg) (r1 r2 r3 r4 : Bytes) (iters : List (List Event)) : List Event :=
  roleEvents c true .tCeUp (byteAt r1 1 ||| c.cfgPrimRx) r1 r2 ++ iters.flatten ++
    roleEvents c false .tCeDown (byteAt r3 1 &&& ~~~c.cfgPrimRx) r3 r4

/-- The whole request: the two role changes read no payload, so what is returned was read by the iterations. -/
theorem rxLoopBody_runs (cnt : Nat) {s : State} (hv : s.cfg.Valid) :
    ∃ r1 r2 r3 r4 iters t, iters.length = cnt ∧ (∀ it ∈ iters, rxIteration s.cfg it) ∧
      Runs s (rxLoopEvents s.cfg r1 r2 r3 r4 iters) t ∧
      rxLoopBody cnt s = (payloadsOf s.cfg (rxLoopEvents s.cfg r1 r2 r3 r4 iters), t) := by
  obtain ⟨r1, r2, hstart⟩ := startRxBody_runs rfl hv
  obtain ⟨iters, t, hlen, hiters, hloop, hout⟩ := rxLoopIter_runs cnt [] hv hstart.cfg_eq
  obtain ⟨r3, r4, hstop⟩ := stopRxBody_runs (hloop.cfg_eq.trans hstart.cfg_eq) hv
  refine ⟨r1, r2, r3, r4, iters, stopRxBody t, hlen, hiters, (hstart.trans hloop).trans hstop, ?_⟩
  rw [rxLoopBody, hout]
  simp [payloadsOf, rxLoopEvents, roleEvents_reads hv]

/-- A run that ends with STOP_RX's events leaves the line low and the shadow at the byte written back. -/
theorem stopped_complete {s t : State} (hv : s.cfg.Valid) {evs : List Event} {v : Byte} {r3 r4 : Bytes}
    (h : t = s.ran (evs ++ roleEvents s.cfg false .tCeDown v r3 r4)) (r : Result) :
    t.complete r =
      let all := evs ++ roleEvents s.cfg false .tCeDown v r3 r4
      { s.did all (all.countP isExchange) r with
        ce := false, cfgsh := some v,
        rxb := storePayloads s.rxb (all.filterMap (payloadRead s.cfg)) } := by
  have hshadow : shadowOf s.cfg (evs ++ roleEvents s.cfg false .tCeDown v r3 r4) = some v := by
    have hlast := roleEvents_shadow hv false .tCeDown v r3 r4
    rw [shadowOf] at hlast ⊢
    rw [List.filterMap_append, List.getLast?_append, hlast, Option.some_or]
  have hline : ((evs ++ roleEvents s.cfg false .tCeDown v r3 r4).filterMap ceLevel).getLast? = some false := by
    rw [List.filterMap_append, List.getLast?_append]
    rfl
  subst h
  simp only [State.complete, State.ran, State.did, hshadow, hline, Option.some_or, Option.getD_some]

theorem exec_rxLoop_open {s : State} (ho : s.isOpen = true) (hcap : 33 ≤ s.cfg.rxbufCap) {cnt : BitVec 16}
    {ps : List Bytes} {t : State} (h : rxLoopBody cnt.toNat s = (ps, t)) :
    exec (.rxLoop cnt) s = .next (t.complete { done := true, payloads := some ps }) := by
  rw [exec, execRxLoop, if_neg (Nat.not_lt.2 hcap), State.onBus_open ho, h]

/-! ### SHUTDOWN (R222) -/

theorem exec_shutdown_open {s : State} (ho : s.isOpen = true) (hv : s.cfg.Valid) :
    exec .shutdown s =
      let v := byteAt (configAnswer s) 1 &&& ~~~s.cfg.cfgPwrUp
      .next { s.did (configRewrite v s ++ [.wait .tRadio]) 2 { done := true } with
        isOpen := false, cfgsh := some v } := by
  have hstop := clrCfgBody_complete hv s.cfg.cfgPwrUp .tRadio { done := true }
  rw [exec, execShutdown, State.onBus_open ho]
  exact congrArg (fun t : State => Host.Outcome.next { t with isOpen := false }) hstop

/-! ### The obligations -/

/-- Settles O32: the requests that the statement lists are those of `initSent` and the flush, once the address bytes,
the receive pipe's register and its class are read as the model has them. -/
theorem initProgramsTheChip : Obligations.InitProgramsTheChip := by
  refine ⟨fun txa rxa ch rt s hc => exec_of_closed (i := .init txa rxa ch rt) (op := 0x14) rfl rfl hc,
    fun txa rxa ch rt s hv hd ho => ?_⟩
  simp only [← enc_five, ← rxPipeReg_eq_getD, ← rxPipeReg_long_iff hd]
  refine ⟨decode_init txa rxa ch rt, initAnswer txa rxa ch rt s, init_numbered ho hv txa rxa ch rt ?_⟩
  rw [initAnswer_config]
  rfl

/-- Settles O33: START_RX, the iterations and STOP_RX are one run of events, and such a run determines the buffer, the
line and the shadow that the request leaves. -/
theorem rxLoopReturnsThePayloadsRead : Obligations.RxLoopReturnsThePayloadsRead := by
  refine ⟨fun cnt s => ⟨?_, fun h => ?_, fun h hc => ?_⟩, fun cnt s hv _ hcap ho => ?_⟩
  · exact decode_of_operands (o := .rxLoop) (congrArg (fun n => some (Instr.rxLoop n)) (ofNat_leNat_two cnt))
  · exact exec_of_operandFault (i := .rxLoop cnt) (if_pos h)
  · exact exec_of_closed (i := .rxLoop cnt) (op := 0x15) rfl (if_neg (Nat.not_lt.2 h)) hc
  · obtain ⟨r1, r2, r3, r4, iters, t, hlen, hiters, ⟨hdrawn, ht⟩, hbody⟩ := rxLoopBody_runs cnt.toNat hv
    refine ⟨r1, r2, r3, r4, iters, hlen, hiters, hdrawn, ?_⟩
    rw [exec_rxLoop_open ho hcap hbody, stopped_complete hv ht]
    rfl

/-- Settles O34: the stopRadio events, in the state in which the handles are then released. -/
theorem shutdownReleasesTheBus : Obligations.ShutdownReleasesTheBus :=
  ⟨decode_of_operands (o := .shutdown) rfl, fun s hv =>
    ⟨fun ho => ⟨_, _, configAnswer_drawn s, configEcho_drawn _ s, exec_shutdown_open ho hv⟩,
      exec_of_closed (i := .shutdown) (op := 0x16) rfl rfl⟩⟩

/-- Settles O35: the arm has no bus check, so the state is any. -/
theorem waitRecordsOneEvent : Obligations.WaitRecordsOneEvent := fun us s =>
  ⟨decode_of_operands (o := .wait) (congrArg (fun n => some (Instr.wait n)) (ofNat_leNat_four us)), by
    rw [exec, execWait, State.complete_eq, State.waitFor_did]⟩

end Sys2Proof.Machine
end

section
/-! Proofs about reset (70_reset_and_hazards.md): the block that construction leaves. -/

namespace Sys2Proof.Machine

/-- While no CONFIG write has been seen, the power state is not known, whatever the line's level (10_state.md R43). -/
theorem State.power_of_cfgsh_none {s : State} (h : s.cfgsh = none) : s.power = .unknown := by
  rw [State.power, h, pstate]

/-- Settles O1: the fields are those of `State.construct`, and the power state follows from the shadow alone. -/
theorem resetIsTheConstructedBlock : Obligations.ResetIsTheConstructedBlock := by
  have hshadow : State.reset.cfgsh = none := rfl
  exact ⟨⟨rfl, hshadow, rfl, rfl, rfl, rfl⟩, State.power_of_cfgsh_none hshadow⟩

end Sys2Proof.Machine
end

section
/-! Proofs about the two ports' encodings (30_encoding.md R90 to R104): the operands of a row read forwards and
backwards, the bus command of each first byte, the two round trips, and the requests that fail to decode. -/

namespace Sys2Proof

/-! ### The operands of a row, read forwards -/

theorem numeral_leBytes (size : Nat) (make : Nat → Instr) (v : Nat) :
    numeral size make (leBytes size v) = some (make (v % 256 ^ size)) := by
  rw [numeral, if_pos (leBytes_length size v), leNat_leBytes]

theorem withAddr_leBytes (make : Byte → Addr → Instr) (b : Byte) (v : Addr) :
    withAddr make (b :: leBytes 5 v.toNat) = some (make b v) :=
  congrArg (fun a => some (make b a)) (leAddr_leBytes v)

theorem numeral_toNat {w size : Nat} (hw : 2 ^ w = 256 ^ size) (make : BitVec w → Instr) (v : BitVec w) :
    numeral size (fun n => make (BitVec.ofNat w n)) (leBytes size v.toNat) = some (make v) := by
  rw [numeral_leBytes, ← hw, Nat.mod_eq_of_lt v.isLt, BitVec.ofNat_toNat, BitVec.setWidth_eq]

/-! ### The operands of a row, read backwards -/

theorem plain_eq_some {i j : Instr} {rest : Bytes} (h : plain i rest = some j) : rest = [] ∧ j = i := by
  unfold plain at h
  split at h
  · exact ⟨rfl, (Option.some.inj h).symm⟩
  · cases h

theorem oneByte_eq_some {make : Byte → Instr} {rest : Bytes} {i : Instr} (h : oneByte make rest = some i) :
    ∃ b, rest = [b] ∧ i = make b := by
  unfold oneByte at h
  split at h
  · exact ⟨_, rfl, (Option.some.inj h).symm⟩
  · cases h

theorem twoBytes_eq_some {make : Byte → Byte → Instr} {rest : Bytes} {i : Instr} (h : twoBytes make rest = some i) :
    ∃ a b, rest = [a, b] ∧ i = make a b := by
  unfold twoBytes at h
  split at h
  · exact ⟨_, _, rfl, (Option.some.inj h).symm⟩
  · cases h

theorem withAddr_eq_some {make : Byte → Addr → Instr} {rest : Bytes} {i : Instr} (h : withAddr make rest = some i) :
    ∃ b v, rest = b :: leBytes 5 v.toNat ∧ i = make b v := by
  unfold withAddr at h
  split at h
  · exact ⟨_, _, by rw [leBytes_leAddr rfl], (Option.some.inj h).symm⟩
  · cases h

theorem counted_eq_some {make : Byte → Bytes → Instr} {rest : Bytes} {i : Instr} (h : counted make rest = some i) :
    ∃ n s, rest = n :: s ∧ s.length = n.toNat ∧ i = make n s := by
  unfold counted at h
  split at h
  · next n s =>
    obtain ⟨hlen, hmake⟩ := Option.ite_none_right_eq_some.1 h
    exact ⟨n, s, rfl, hlen, (Option.some.inj hmake).symm⟩
  · cases h

theorem numeral_eq_some {w size : Nat} (hw : 2 ^ w = 256 ^ size) {make : BitVec w → Instr} {rest : Bytes} {i : Instr}
    (h : numeral size (fun n => make (BitVec.ofNat w n)) rest = some i) :
    ∃ v : BitVec w, rest = leBytes size v.toNat ∧ i = make v := by
  obtain ⟨hlen, hmake⟩ := Option.ite_none_right_eq_some.1 h
  have hlt : leNat rest < 2 ^ w := by rw [hw, ← hlen]; exact leNat_lt rest
  refine ⟨_, ?_, (Option.some.inj hmake).symm⟩
  rw [BitVec.toNat_ofNat, Nat.mod_eq_of_lt hlt, ← hlen, leBytes_leNat]

theorem initOperands_eq_some {rest : Bytes} {i : Instr} (h : initOperands rest = some i) :
    ∃ txa rxa ch rt, rest = leBytes 5 txa.toNat ++ leBytes 5 rxa.toNat ++ [ch, rt] ∧ i = .init txa rxa ch rt := by
  unfold initOperands at h
  split at h
  · exact ⟨_, _, _, _, by rw [leBytes_leAddr rfl, leBytes_leAddr rfl]; rfl, (Option.some.inj h).symm⟩
  · cases h

/-- A row's operands give a request whose encoding is the row's op and those operands (30_encoding.md R91, R93). -/
theorem Op.encode_of_operands {o : Op} {rest : Bytes} {i : Instr} (h : o.operands rest = some i) (c : Cfg) :
    i.wf = true ∧ i.port = .request ∧ encode c i = o.code :: rest := by
  cases o with
  | readReg | readAddr =>
    obtain ⟨b, rfl, rfl⟩ := oneByte_eq_some h
    exact ⟨rfl, rfl, rfl⟩
  | writeReg =>
    obtain ⟨a, b, rfl, rfl⟩ := twoBytes_eq_some h
    exact ⟨rfl, rfl, rfl⟩
  | writeAddr | addrEncode =>
    obtain ⟨b, v, rfl, rfl⟩ := withAddr_eq_some h
    exact ⟨rfl, rfl, rfl⟩
  | addrDecode | addrParse | tx =>
    obtain ⟨n, s, rfl, hlen, rfl⟩ := counted_eq_some h
    exact ⟨beq_iff_eq.2 hlen, rfl, rfl⟩
  | init =>
    obtain ⟨txa, rxa, ch, rt, rfl, rfl⟩ := initOperands_eq_some h
    exact ⟨rfl, rfl, rfl⟩
  | rxLoop =>
    obtain ⟨v, rfl, rfl⟩ := numeral_eq_some (w := 16) (size := 2) rfl h
    exact ⟨rfl, rfl, rfl⟩
  | wait =>
    obtain ⟨v, rfl, rfl⟩ := numeral_eq_some (w := 32) (size := 4) rfl h
    exact ⟨rfl, rfl, rfl⟩
  | powerUp | powerDown | startRadio | stopRadio | startRx | stopRx | rxReady | rxDyn | rxFixed | flushTx | flushRx
  | shutdown =>
    obtain ⟨rfl, rfl⟩ := plain_eq_some h
    exact ⟨rfl, rfl, rfl⟩

/-- A row reads its operands from every request of its format's length (30_encoding.md R91, R94, R95). -/
theorem Op.operands_of_length {o : Op} {rest : Bytes} (h : rest.length + 1 = formatLength o.format (rest.headD 0)) :
    ∃ i, o.operands rest = some i := by
  cases o with
  | powerUp | powerDown | startRadio | stopRadio | startRx | stopRx | rxReady | rxDyn | rxFixed | flushTx | flushRx
  | shutdown =>
    obtain rfl := List.length_eq_zero_iff.1 (Nat.succ.inj h)
    exact ⟨_, rfl⟩
  | readReg | readAddr =>
    obtain ⟨b, rfl⟩ := List.length_eq_one_iff.1 (Nat.succ.inj h)
    exact ⟨_, rfl⟩
  | writeReg =>
    obtain ⟨a, b, rfl⟩ := List.length_eq_two.1 (Nat.succ.inj h)
    exact ⟨_, rfl⟩
  | writeAddr | addrEncode =>
    match rest, Nat.succ.inj h with
    | [_, _, _, _, _, _], _ => exact ⟨_, rfl⟩
  | addrDecode | addrParse | tx =>
    cases rest with
    | nil => simp [Op.format, formatLength] at h
    | cons n s =>
      have hlen : s.length = n.toNat := by
        simp only [Op.format, formatLength, List.length_cons, List.headD_cons] at h
        omega
      exact ⟨_, if_pos hlen⟩
  | init =>
    match rest, Nat.succ.inj h with
    | [_, _, _, _, _, _, _, _, _, _, _, _], _ => exact ⟨_, rfl⟩
  | rxLoop | wait => exact ⟨_, if_pos (Nat.succ.inj h)⟩

/-! ### The request port -/

/-- Decoding the encoding of a well-formed request (30_encoding.md R91, R93, R94). -/
theorem decode_encode (c : Cfg) {i : Instr} (hp : i.port = .request) (hw : i.wf = true) :
    decode (encode c i) = .ok i := by
  cases i with
  | readReg => exact decode_of_operands (o := .readReg) rfl
  | writeReg => exact decode_of_operands (o := .writeReg) rfl
  | readAddr => exact decode_of_operands (o := .readAddr) rfl
  | writeAddr reg v => exact decode_of_operands (o := .writeAddr) (withAddr_leBytes _ reg v)
  | addrEncode n v => exact decode_of_operands (o := .addrEncode) (withAddr_leBytes _ n v)
  | addrDecode n s => exact decode_of_operands (o := .addrDecode) (if_pos (beq_iff_eq.1 hw))
  | addrParse k t => exact decode_of_operands (o := .addrParse) (if_pos (beq_iff_eq.1 hw))
  | powerUp => exact decode_of_operands (o := .powerUp) rfl
  | powerDown => exact decode_of_operands (o := .powerDown) rfl
  | startRadio => exact decode_of_operands (o := .startRadio) rfl
  | stopRadio => exact decode_of_operands (o := .stopRadio) rfl
  | startRx => exact decode_of_operands (o := .startRx) rfl
  | stopRx => exact decode_of_operands (o := .stopRx) rfl
  | rxReady => exact decode_of_operands (o := .rxReady) rfl
  | rxDyn => exact decode_of_operands (o := .rxDyn) rfl
  | rxFixed => exact decode_of_operands (o := .rxFixed) rfl
  | tx len txb => exact decode_of_operands (o := .tx) (if_pos (beq_iff_eq.1 hw))
  | flushTx => exact decode_of_operands (o := .flushTx) rfl
  | flushRx => exact decode_of_operands (o := .flushRx) rfl
  | init txa rxa ch rt => exact Machine.decode_init txa rxa ch rt
  | rxLoop cnt => exact decode_of_operands (o := .rxLoop) (numeral_toNat rfl .rxLoop cnt)
  | shutdown => exact decode_of_operands (o := .shutdown) rfl
  | wait us => exact decode_of_operands (o := .wait) (numeral_toNat rfl .wait us)
  | reserved op rest => exact decode_reserved (by simpa [Instr.wf, reservedOp] using hw) rest
  | busRRegister | busWRegister | busRRxPlWid | busRRxPayload | busWTxPayload | busFlushTx | busFlushRx | busNop =>
    cases hp

/-- What the request decoder reads is well formed, a request, and encodes to its bytes. -/
theorem encode_decode {b : Bytes} {i : Instr} (h : decode b = .ok i) (c : Cfg) :
    i.wf = true ∧ i.port = .request ∧ encode c i = b := by
  cases b with
  | nil => cases h
  | cons op rest =>
    rw [decode] at h
    split at h
    · next hop =>
      cases h
      exact ⟨(reservedOp_iff op).2 hop, rfl, rfl⟩
    · next o hop =>
      obtain rfl := Op.code_of_ofByte hop
      split at h
      · next j hj =>
        cases h
        exact Op.encode_of_operands hj c
      · cases h

/-- A request fails to decode only by its length, since a row reads operands of every length that fits. -/
theorem decode_eq_error {op : Byte} {rest : Bytes} {e : DecodeError} (h : decode (op :: rest) = .error e) :
    e = .badLength op ∧ ∃ f, opFormat op = some f ∧ rest.length + 1 ≠ formatLength f (rest.headD 0) := by
  rw [decode] at h
  split at h
  · cases h
  · next o hop =>
    split at h
    · cases h
    · next hnone =>
      cases h
      refine ⟨rfl, o.format, by rw [opFormat, hop]; rfl, fun hlen => ?_⟩
      obtain ⟨i, hi⟩ := Op.operands_of_length hlen
      cases hnone.symm.trans hi

end Sys2Proof

namespace Sys2Proof.Machine

/-! ### The bus port: one equation for each first byte (30_encoding.md R97 to R104) -/

/-- A command byte that is none of the fixed ones goes on to the filler and the register commands. -/
theorem decodeBus_not_fixed {c : Cfg} {cmd : Byte} (h : ∀ x ∈ c.fixedCommands, x ≠ cmd) (rest : Bytes) :
    decodeBus c (cmd :: rest) =
      if cmd = c.cmdNop ∧ rest = [] then some .busNop
      else if cmd = rdcmd c (ma cmd) then
        if rest = [c.cmdNop] then some (.busRRegister (ma cmd) false)
        else if rest = List.replicate 5 c.cmdNop then some (.busRRegister (ma cmd) true)
        else none
      else if cmd = wrcmd c (ma cmd) then
        if rest.length = 1 ∨ rest.length = 5 then some (.busWRegister (ma cmd) rest) else none
      else none := by
  simp only [Cfg.fixedCommands, List.forall_mem_cons, List.not_mem_nil, false_implies, implies_true, and_true] at h
  obtain ⟨h1, h2, h3, h4, h5⟩ := h
  rw [decodeBus, if_neg h1.symm, if_neg h2.symm, if_neg h3.symm, if_neg h4.symm, if_neg h5.symm]

section
variable {c : Cfg} (hv : c.Valid)
include hv

theorem decodeBus_readRegister (m : RegAddr) (long : Bool) :
    decodeBus c (rdcmd c m :: List.replicate (if long then 5 else 1) c.cmdNop) = some (.busRRegister m long) := by
  rw [decodeBus_not_fixed fun x hx => fixed_ne_rdcmd hv hx m, ma_rdcmd hv]
  cases long <;> simp

theorem decodeBus_writeRegister (m : RegAddr) {data : Bytes} (h : data.length = 1 ∨ data.length = 5) :
    decodeBus c (wrcmd c m :: data) = some (.busWRegister m data) := by
  have hne : data ≠ [] := by rintro rfl; simp at h
  rw [decodeBus_not_fixed fun x hx => fixed_ne_wrcmd hv hx m, ma_wrcmd hv, if_neg fun e => hne e.2,
    if_neg (rdcmd_ne_wrcmd hv m m).symm, if_pos rfl, if_pos h]

theorem decodeBus_readPayload {n : Nat} (h : n ≤ 32) :
    decodeBus c (c.cmdRRxPayload :: List.replicate n c.cmdNop) = some (.busRRxPayload n) := by
  obtain ⟨⟨hw, -⟩, -⟩ := fixed_distinct hv
  simp [decodeBus, hw.symm, h]

theorem decodeBus_writePayload {data : Bytes} (h : data.length ≤ 32) :
    decodeBus c (c.cmdWTxPayload :: data) = some (.busWTxPayload data) := by
  obtain ⟨⟨-, hw, -⟩, ⟨hp, -⟩, -⟩ := fixed_distinct hv
  simp [decodeBus, hw.symm, hp.symm, h]

theorem decodeBus_nop : decodeBus c [c.cmdNop] = some .busNop := by
  obtain ⟨-, -, -, hn⟩ := fixed_distinct hv
  rw [decodeBus_not_fixed fun x hx => (hn x hx).symm, if_pos ⟨rfl, rfl⟩]

end

theorem decodeBus_lengthQuery (c : Cfg) : decodeBus c [c.cmdRRxPlWid, c.cmdNop] = some .busRRxPlWid := by
  simp [decodeBus]

/-- Decoding the encoding of a well-formed bus command (20_memory.md R69). -/
theorem decodeBus_encode {c : Cfg} (hv : c.Valid) {i : Instr} (hp : i.port = .bus) (hw : i.wf = true) :
    decodeBus c (encode c i) = some i := by
  cases i with
  | busRRegister m long => exact decodeBus_readRegister hv m long
  | busWRegister m data => exact decodeBus_writeRegister hv m (by simpa [Instr.wf] using hw)
  | busRRxPlWid => exact decodeBus_lengthQuery c
  | busRRxPayload n => exact decodeBus_readPayload hv (of_decide_eq_true hw)
  | busWTxPayload data => exact decodeBus_writePayload hv (of_decide_eq_true hw)
  | busFlushTx => exact decodeBus_flushTx hv
  | busFlushRx => exact decodeBus_flushRx hv
  | busNop => exact decodeBus_nop hv
  | _ => cases hp

/-- What the bus decoder reads is well formed, a bus command, and encodes to its bytes. -/
theorem encode_decodeBus {c : Cfg} {b : Bytes} {i : Instr} (h : decodeBus c b = some i) :
    i.wf = true ∧ i.port = .bus ∧ encode c i = b := by
  cases b with
  | nil => cases h
  | cons cmd rest =>
    rw [decodeBus] at h
    split_ifs at h with _ _ _ hpay _ hdata _ _ _ _ hnop hrd _ _ hwr hlen <;> cases h
    · subst_vars; exact ⟨rfl, rfl, rfl⟩
    · subst_vars; exact ⟨decide_eq_true hpay.1, rfl, congrArg _ hpay.2.symm⟩
    · subst_vars; exact ⟨decide_eq_true hdata, rfl, rfl⟩
    · subst_vars; exact ⟨rfl, rfl, rfl⟩
    · subst_vars; exact ⟨rfl, rfl, rfl⟩
    · obtain ⟨rfl, rfl⟩ := hnop; exact ⟨rfl, rfl, rfl⟩
    · subst_vars; exact ⟨rfl, rfl, congrArg (· :: _) hrd.symm⟩
    · subst_vars; exact ⟨rfl, rfl, congrArg (· :: _) hrd.symm⟩
    · exact ⟨by simpa [Instr.wf] using hlen, rfl, congrArg (· :: _) hwr.symm⟩

theorem decodeAt_bus_eq_ok {c : Cfg} {b : Bytes} {i : Instr} : decodeAt c .bus b = .ok i ↔ decodeBus c b = some i := by
  simp only [decodeAt]
  cases decodeBus c b <;> simp

/-! ### The obligations -/

/-- Settles O6: each port has its own round trip, row by row and command by command. -/
theorem decodingAnEncodingGivesTheInstruction : Obligations.DecodingAnEncodingGivesTheInstruction := by
  intro c i hv hw
  cases hp : i.port with
  | request => exact decode_encode c hp hw
  | bus => exact decodeAt_bus_eq_ok.2 (decodeBus_encode hv hp hw)

/-- Settles O7: a row's operands and an exchange's first byte determine the bytes they were read from. -/
theorem encodingADecodingGivesTheBytes : Obligations.EncodingADecodingGivesTheBytes := by
  intro c p b i h
  cases p with
  | request => exact encode_decode h c
  | bus => exact encode_decodeBus (decodeAt_bus_eq_ok.1 h)

/-- Settles O8: a row reads operands exactly from a request of its format's length. -/
theorem decodingFailsExactlyOnAWrongLength : Obligations.DecodingFailsExactlyOnAWrongLength := by
  intro op rest e
  refine ⟨decode_eq_error, ?_⟩
  rintro ⟨rfl, f, hf, hlen⟩
  exact decode_badLength hf hlen

/-- Settles O36: the reserved row decodes at any length, and its arm has no check before the fault. -/
theorem reservedOpsAreIllegalRequests : Obligations.ReservedOpsAreIllegalRequests := fun op rest s h =>
  ⟨decode_reserved h rest, exec_reserved op rest s⟩

/-- Settles O9: eight of the words are operands that fit their row or a reserved op, and the ninth begins with
`wrcmd(0x10)` of the default configuration. -/
theorem writtenOutWordsDecode : Obligations.WrittenOutWordsDecode := by
  refine ⟨?_, ?_, ?_, ?_, ?_, ?_, ?_, ?_, ?_⟩
  · exact decode_of_operands (o := .writeReg) rfl
  · exact decode_of_operands (o := .writeAddr) rfl
  · exact decode_of_operands (o := .addrEncode) rfl
  · exact decode_of_operands (o := .startRx) rfl
  · exact decode_of_operands (o := .tx) rfl
  · exact decode_of_operands (o := .init) rfl
  · exact decode_of_operands (o := .wait) rfl
  · exact decode_reserved (.inr (by decide)) []
  · rfl

/-- Settles O10: each expansion is one request whose operands are numbers of the default configuration. -/
theorem pseudoRequestsExpand : Obligations.PseudoRequestsExpand := ⟨rfl, rfl, rfl, rfl, fun _ => rfl⟩

end Sys2Proof.Machine
end

section
/-! Proofs about every instruction and every step: what an instruction adds to the history and what it leaves (from
`Ends`), what a step runs, and the invariant of the block. -/

namespace Sys2Proof.Machine

/-! ### What an instruction adds and what it leaves -/

theorem one_le_eventBound_of_bus {i : Instr} (hp : i.port = .bus) (hn : i ≠ .busNop) (c : Cfg) :
    1 ≤ eventBound c i := by
  cases i with
  | busRRegister | busWRegister | busRRxPlWid | busRRxPayload | busWTxPayload | busFlushTx | busFlushRx =>
    exact le_rfl
  | busNop => exact absurd rfl hn
  | _ => cases hp

section
variable {i : Instr} {s t : State}

/-- The events an instruction adds: within its bound, with `ce` and the shadow as they say (10_state.md R31, R32). -/
theorem Ends.events (h : Ends i s t) :
    ∃ evs, t.hist = s.hist ++ evs ∧ evs.length ≤ eventBound s.cfg i ∧
      t.ce = ((evs.filterMap ceLevel).getLast?).getD s.ce ∧
      t.cfgsh = ((evs.filterMap (configWrite s.cfg)).getLast?).or s.cfgsh := by
  cases h with
  | operand | closed | reserved => exact ⟨[], by simp⟩
  | completes _ _ _ _ hc =>
    obtain ⟨n, u, r, hn, -, -, hrun, -, rfl⟩ := hc
    obtain ⟨evs, hhist, hlen, -, hce, hshadow⟩ := hrun.events
    exact ⟨evs, hhist, hlen ▸ hn, hce, hshadow⟩
  | exchange b hp hn => exact ⟨_, rfl, one_le_eventBound_of_bus hp hn s.cfg, rfl, exchange_shadow s b _⟩
  | nothing => exact ⟨[], by simp⟩

/-- The configuration and the requests are inputs (00_scope.md R6, 20_memory.md R75). -/
theorem Ends.inputs (h : Ends i s t) : t.cfg = s.cfg ∧ t.stream = s.stream := by
  cases h with
  | operand | closed | reserved | exchange | nothing => exact ⟨rfl, rfl⟩
  | completes _ _ _ _ hc =>
    obtain ⟨n, u, r, -, -, -, hrun, -, rfl⟩ := hc
    obtain ⟨hcfg, hstream, -⟩ := hrun.frame
    exact ⟨hcfg, hstream⟩

theorem Ends.isOpen_eq (h : Ends i s t) : t.isOpen = (s.isOpen && decide (i ≠ .shutdown)) := by
  cases h with
  | operand f hf =>
    have hi : i ≠ .shutdown := by rintro rfl; cases hf
    simp [hi]
  | closed n hs => simp [hs]
  | reserved op rest hi => simp [hi]
  | completes _ _ _ _ hc =>
    obtain ⟨n, u, r, -, -, -, hrun, -, rfl⟩ := hc
    obtain ⟨-, -, -, hopen, -⟩ := hrun.frame
    exact congrArg (· && _) hopen
  | exchange b hp =>
    have hi : i ≠ .shutdown := by rintro rfl; cases hp
    simp [hi]
  | nothing hi => simp [hi]

/-- An instruction that runs neither powerUp nor powerDown makes no CE event (10_state.md R31). -/
theorem Ends.ce_frame (h : Ends i s t) (hi : ¬drivesCe i) (v : Bool) :
    t.ce = s.ce ∧ t.hist.count (.ce v) = s.hist.count (.ce v) := by
  cases h with
  | operand | closed | reserved | nothing => exact ⟨rfl, rfl⟩
  | completes _ _ _ _ hc =>
    obtain ⟨n, u, r, -, -, -, hrun, -, rfl⟩ := hc
    obtain ⟨hce, hcount⟩ := (hrun.mono (fun _ _ => id) hi le_rfl).ce_frame
    exact ⟨hce, hcount v⟩
  | exchange b => exact ⟨rfl, by simp [List.count_append]⟩

/-- RXB changes only at the offsets that the instruction may write (70_reset_and_hazards.md R276). -/
theorem Ends.rxb_frame (h : Ends i s t) {a : Nat} (ha : rxbReach s.cfg i ≤ a) :
    Memory.read t.rxb a = Memory.read s.rxb a := by
  cases h with
  | operand | closed | reserved | exchange | nothing => rfl
  | completes _ _ _ _ hc =>
    obtain ⟨n, u, r, -, -, -, hrun, -, rfl⟩ := hc
    exact hrun.rxb_frame ha

end

/-! ### What a step runs (40_register_access.md R127) -/

theorem fetchAt_ne_stuck (p : Port) (b : Bytes) (s : State) : fetchAt p b s ≠ .stuck := by
  unfold fetchAt
  split <;> simp

theorem fetch_eq_stuck {s : State} : fetch s = .stuck ↔ s.fault ≠ none := by
  unfold fetch
  cases s.fault with
  | some f => simp
  | none =>
    simp only [ne_eq, not_true_eq_false, iff_false]
    split
    · exact fetchAt_ne_stuck _ _ _
    · split
      · exact fetchAt_ne_stuck _ _ _
      · simp

/-- No instruction's meaning answers with a fault of its own, so a step's fault is the sticky one. -/
theorem step_eq_fault {s : State} : (∃ r, step s = .fault r) ↔ fetch s = .stuck := by
  unfold step
  cases fetch s with
  | stuck => exact ⟨fun _ => rfl, fun _ => ⟨_, rfl⟩⟩
  | idle | illegal | refuse => simp
  | run i s' =>
    obtain ⟨t, ht, -⟩ := exec_ends i s'
    simp [ht]

theorem step_of_idle {s : State} (hf : s.fault = none) (hb : s.busq = []) (hq : s.stream[s.pc]? = none) :
    step s = .next s := by
  unfold step fetch
  simp only [hf, hb, hq]

/-- The waiting bus command leaves the queue and runs (log 5). -/
theorem step_of_decodeBus {s : State} {b : Bytes} {bs : List Bytes} {i : Instr} (hf : s.fault = none)
    (hb : s.busq = b :: bs) (hd : decodeBus s.cfg b = some i) : step s = exec i { s with busq := bs } := by
  unfold step fetch
  simp only [hf, hb, fetchAt, decodeAt_bus_eq_ok.2 hd]

/-- A step idles, raises F_ILLEGAL_REQ, or runs an instruction in the state it has, but for the queue. -/
theorem exec_of_step {s t : State} (h : step s = .next t) :
    t = s ∨ (∃ n, t = s.faulted .illegalReq n) ∨ ∃ i bs, exec i { s with busq := bs } = .next t := by
  obtain ⟨hf, hsteps⟩ := steps_of_step h
  cases hsteps with
  | idle => exact .inl rfl
  | illegal op => exact .inr (.inl ⟨_, rfl⟩)
  | request i q _ hb hq hd => exact .inr (.inr ⟨i, s.busq, (step_of_decode hf hb hq hd).symm.trans h⟩)
  | bus i b bs _ hb hd =>
    exact .inr (.inr ⟨i, bs, (step_of_decodeBus hf hb (decodeAt_bus_eq_ok.1 hd)).symm.trans h⟩)

/-! ### A closed bus (10_state.md R33) -/

/-- Nothing is driven from `s` to `t`: the bus stays closed, and only literal waits are added. -/
def Silent (s t : State) : Prop :=
  t.isOpen = false ∧ t.ce = s.ce ∧ t.cfgsh = s.cfgsh ∧ t.rxb = s.rxb ∧
    ∃ evs, t.hist = s.hist ++ evs ∧ ∀ e ∈ evs, ∃ us, e = .wait (.micros us)

/-- The operand check of the codec passes on the widths 1 to 5 only. -/
theorem width_of_unfaulted {n : Byte} {f : FaultRecord}
    (h : (if n.toNat < 1 ∨ 5 < n.toNat then some f else none) = none) : 1 ≤ n.toNat ∧ n.toNat ≤ 5 := by
  split at h
  · cases h
  · omega

section
variable {s : State} (hs : s.isOpen = false)
include hs

theorem silent_refl : Silent s s := ⟨hs, rfl, rfl, rfl, [], by simp⟩

theorem silent_faulted (kind : FaultKind) (info : Nat) : Silent s (s.faulted kind info) :=
  ⟨hs, rfl, rfl, rfl, [], by simp⟩

theorem silent_did {evs : List Event} (h : ∀ e ∈ evs, ∃ us, e = .wait (.micros us)) (n : Nat) (r : Result) :
    Silent s (s.did evs n r) := ⟨hs, rfl, rfl, rfl, evs, rfl, h⟩

/-- A request without a port event on the bus or the line: the codec's three, WAIT and the reserved ones. -/
theorem silent_of_busOp_none {i : Instr} {t : State} (hp : i.port = .request) (hb : busOp i = none)
    (hf : operandFault s.cfg i = none) (h : exec i s = .next t) : Silent s t := by
  cases i with
  | addrEncode n v =>
    rw [exec_addrEncode_valid (width_of_unfaulted hf)] at h
    cases h
    exact silent_did hs (by simp) _ _
  | addrDecode n b =>
    rw [exec_addrDecode_valid (width_of_unfaulted hf)] at h
    cases h
    exact silent_did hs (by simp) _ _
  | addrParse k b =>
    rw [exec_addrParse] at h
    cases h
    exact silent_did hs (by simp) _ _
  | wait us =>
    rw [(waitRecordsOneEvent us s).2] at h
    cases h
    exact silent_did hs (by simp) _ _
  | reserved op rest =>
    cases h
    exact silent_faulted hs _ _
  | busRRegister | busWRegister | busRRxPlWid | busRRxPayload | busWTxPayload | busFlushTx | busFlushRx | busNop =>
    cases hp
  | _ => cases hb

theorem silent_of_exec {i : Instr} {t : State} (h : exec i s = .next t) : Silent s t := by
  cases ends_of_exec h with
  | operand | closed | reserved => exact silent_faulted hs _ _
  | completes _ hp ho hf =>
    have hb : busOp i = none := by
      by_contra hb
      cases hs.symm.trans (ho hb)
    exact silent_of_busOp_none hs hp hb hf h
  | exchange b _ _ ho => cases hs.symm.trans ho
  | nothing => exact silent_refl hs

end

/-! ### The invariant of the block -/

theorem ceOf_append (h es : List Event) : ceOf (h ++ es) = ((es.filterMap ceLevel).getLast?).getD (ceOf h) := by
  simp [ceOf, List.getLast?_append, Option.getD_or]

theorem shadowOf_append (c : Cfg) (h es : List Event) : shadowOf c (h ++ es) = (shadowOf c es).or (shadowOf c h) := by
  simp [shadowOf, List.getLast?_append]

/-- What SWX sends is 1 to 33 bytes long (20_memory.md R69). -/
theorem Emitted.length_bounds {c : Cfg} {w : RegAddr → Byte → Prop} {b : Bytes} (h : Emitted c w b) :
    1 ≤ b.length ∧ b.length ≤ 33 := by
  cases h with
  | readReg | writeReg | readLong | lengthQuery | flushTx | flushRx =>
    simp [readRegBytes, writeRegBytes, readLongBytes, lengthQueryBytes, flushTxBytes, flushRxBytes, rep]
  | writeLong m d hd => simp [hd]
  | readPayload n hn => simpa [readPayloadBytes, rep] using Nat.lt_succ_of_le hn
  | writePayload d hd => simpa [writePayloadBytes] using Nat.lt_succ_of_le hd

/-- What SWX sends is a bus command (30_encoding.md R96). -/
theorem Emitted.decodes {c : Cfg} (hv : c.Valid) {w : RegAddr → Byte → Prop} {b : Bytes} (h : Emitted c w b) :
    ∃ i, decodeBus c b = some i ∧ i ≠ .busNop := by
  cases h with
  | readReg m => exact ⟨_, decodeBus_readRegister hv m false, by simp⟩
  | writeReg m v => exact ⟨_, decodeBus_writeRegister hv m (.inl rfl), by simp⟩
  | readLong m => exact ⟨_, decodeBus_readRegister hv m true, by simp⟩
  | writeLong m d hd => exact ⟨_, decodeBus_writeRegister hv m (.inr hd), by simp⟩
  | lengthQuery => exact ⟨_, decodeBus_lengthQuery c, by simp⟩
  | readPayload n hn => exact ⟨_, decodeBus_readPayload hv hn, by simp⟩
  | writePayload d hd => exact ⟨_, decodeBus_writePayload hv hd, by simp⟩
  | flushTx => exact ⟨_, decodeBus_flushTx hv, by simp⟩
  | flushRx => exact ⟨_, decodeBus_flushRx hv, by simp⟩

theorem Allowed.shaped {c : Cfg} (hv : c.Valid) {w : RegAddr → Byte → Prop} {ce : Prop} {e : Event}
    (h : Allowed c w ce e) : shaped c e := by
  cases e with
  | xchg b r =>
    obtain ⟨hb, hr⟩ := h
    obtain ⟨hmin, hmax⟩ := hb.length_bounds
    exact ⟨⟨hmin, hmax, hr⟩, hb.decodes hv⟩
  | ce | wait => trivial

/-- A body keeps the invariant: it makes shaped events, and `ce`, the shadow and RXB follow them. -/
theorem PortRun.keeps_inv {w : RegAddr → Byte → Prop} {ce : Prop} {top n : Nat} {s t : State}
    (h : PortRun s.cfg w ce top n s t) (htop : top ≤ s.cfg.rxbufCap) (hs : s.Inv) : t.Inv := by
  obtain ⟨hcfg, -, -, -, hfault, hpc, hresults⟩ := h.frame
  obtain ⟨evs, hhist, -, hallowed, hce, hshadow⟩ := h.events
  exact {
    valid := hcfg ▸ hs.valid
    ceTracks := by rw [hce, hhist, ceOf_append, hs.ceTracks]
    shadowTracks := by rw [hshadow, hhist, hcfg, shadowOf_append, hs.shadowTracks]; rfl
    exchanges := by
      rw [hhist, hcfg]
      exact List.forall_mem_append.2 ⟨hs.exchanges, fun e he => (hallowed e he).shaped hs.valid⟩
    rxbCanonical := h.rxb_wf hs.rxbCanonical
    rxbInside := hcfg ▸ h.rxb_within hs.rxbInside htop
    pcCounts := by rw [hresults, hpc, hs.pcCounts]
    faultReported := by rw [hresults, hfault, hs.faultReported] }

/-- A `done = 0` result comes with the first fault. -/
theorem State.Inv.faulted {s : State} (hs : s.Inv) (hf : s.fault = none) (kind : FaultKind) (info : Nat) :
    (s.faulted kind info).Inv :=
  { hs with
    pcCounts := by simpa using hs.pcCounts
    faultReported := by simp [hs.faultReported, hf] }

/-- A `done = 1` result comes with a step of `pc`; whether the bus is open is not in the invariant. -/
theorem State.Inv.completed {s : State} (hs : s.Inv) {r : Result} (hr : r.done = true) (o : Bool) :
    State.Inv { s with isOpen := o, pc := s.pc + 1, results := s.results ++ [r] } :=
  { hs with
    pcCounts := by simp [hr, hs.pcCounts]
    faultReported := by simp [hr, hs.faultReported] }

theorem State.Inv.dequeued {s : State} (hs : s.Inv) (bs : List Bytes) : State.Inv { s with busq := bs } := { hs with }

/-- A well-formed instruction keeps the invariant. -/
theorem Ends.keeps_inv {i : Instr} {s t : State} (h : Ends i s t) (hw : i.wf = true) (hf : s.fault = none)
    (hs : s.Inv) : t.Inv := by
  cases h with
  | operand | closed | reserved => exact hs.faulted hf _ _
  | completes _ _ _ _ hc =>
    obtain ⟨n, u, r, -, hdone, -, hrun, hreach, rfl⟩ := hc
    exact (hrun.keeps_inv hreach hs).completed hdone _
  | exchange b _ _ _ he =>
    exact (exchange_run (ce := False) (top := 0) s (he hw)).keeps_inv (Nat.zero_le _) hs
  | nothing => exact hs

theorem Config.cfg_valid : Config.cfg.Valid where
  commandBits := by decide
  commands := by decide
  registers := by decide
  masks := by decide
  ceDown := by
    change 1000 < 1000 + 1 + Config.tCeDownExcess
    omega
  pollCap := by decide

/-! ### The obligations -/

/-- Settles O44: what a step decodes is well formed (`encode_decode`, `encode_decodeBus`), so every exchange it makes is
one of those SWX emits. -/
theorem everyStepKeepsTheInvariant : Obligations.EveryStepKeepsTheInvariant := by
  intro s t hs h
  obtain ⟨hf, hsteps⟩ := steps_of_step h
  cases hsteps with
  | idle => exact hs
  | illegal op => exact hs.faulted hf _ _
  | request i q _ hb hq hd hends =>
    obtain ⟨hw, -⟩ := encode_decode hd s.cfg
    exact hends.keeps_inv hw hf hs
  | bus i b bs _ hb hd hends =>
    obtain ⟨hw, -⟩ := encode_decodeBus (decodeAt_bus_eq_ok.1 hd)
    exact hends.keeps_inv hw hf (hs.dequeued bs)

/-- Settles O45: the history, the results and the buffer are empty, and the constraints speak of no OPEN parameter but
`T_CE_DOWN`, which is above `T_CE_UP` whatever its excess. -/
theorem resetHasTheInvariant : Obligations.ResetHasTheInvariant where
  valid := Config.cfg_valid
  ceTracks := rfl
  shadowTracks := rfl
  exchanges := by simp [State.reset, State.construct]
  rxbCanonical := reset_rxb_wf
  rxbInside := fun _ h => absurd h List.not_mem_nil
  pcCounts := rfl
  faultReported := rfl

/-- Settles O2: the fetch finds no fault and no bus command, and decodes the request in place. -/
theorem stepRunsTheDecodedRequest : Obligations.StepRunsTheDecodedRequest := fun _ _ _ hf hb hq hd =>
  step_of_decode hf hb hq hd

/-- Settles O3: the fetch looks at the queue before the stream. -/
theorem stepRunsTheWaitingBusCommand : Obligations.StepRunsTheWaitingBusCommand := fun _ _ _ _ hf hb hd =>
  step_of_decodeBus hf hb hd

/-- Settles O4: the fetch alone is stuck, and exactly on the sticky fault. -/
theorem stepIsStuckExactlyWhenFaulted : Obligations.StepIsStuckExactlyWhenFaulted :=
  ⟨fun _ => step_eq_fault.trans fetch_eq_stuck, fun _ hf hb hq => step_of_idle hf hb hq⟩

/-- Settles O41: of the ways to end, a failed operand check leaves the one. -/
theorem operandChecksComeBeforeTheBusCheck : Obligations.OperandChecksComeBeforeTheBusCheck := fun _ _ _ h =>
  exec_of_operandFault h

/-- Settles O43: the three ways to end that set a fault are the three clauses; the others keep the fault field. -/
theorem faultsComeFromTheTable : Obligations.FaultsComeFromTheTable := by
  intro i s t f hs h hf
  cases ends_of_exec h with
  | operand f' hop =>
    cases hf
    exact .inl hop
  | closed n ho hn =>
    cases hf
    exact .inr (.inl ⟨ho, rfl, hn⟩)
  | reserved op rest hi =>
    cases hf
    exact .inr (.inr ⟨op, rest, hi, rfl⟩)
  | completes _ _ _ _ hc =>
    obtain ⟨hfault, -⟩ := hc.result
    cases hs.symm.trans (hfault.symm.trans hf)
  | exchange | nothing => cases hs.symm.trans hf

/-- Settles O46: a step adds what its instruction adds, or nothing. -/
theorem theHistoryOnlyGrows : Obligations.TheHistoryOnlyGrows := by
  intro s t h
  rcases exec_of_step h with rfl | ⟨n, rfl⟩ | ⟨i, bs, hexec⟩
  · exact List.prefix_refl _
  · exact List.prefix_refl _
  · obtain ⟨evs, hhist, -⟩ := (ends_of_exec hexec).events
    exact hhist ▸ List.prefix_append s.hist evs

/-- Settles O47: a step is idle, a fault or an instruction, and none of them touches the inputs. -/
theorem noStepChangesTheConfigurationOrTheRequests : Obligations.NoStepChangesTheConfigurationOrTheRequests := by
  intro s t h
  rcases exec_of_step h with rfl | ⟨n, rfl⟩ | ⟨i, bs, hexec⟩
  · exact ⟨rfl, rfl⟩
  · exact ⟨rfl, rfl⟩
  · exact (ends_of_exec hexec).inputs

/-- Settles O48: the events of a run determine `ce` and the shadow, port event by port event. -/
theorem outputAndShadowFollowTheEvents : Obligations.OutputAndShadowFollowTheEvents := by
  intro i s t h
  obtain ⟨evs, hhist, -, hce, hshadow⟩ := (ends_of_exec h).events
  exact ⟨evs, hhist, hce, hshadow⟩

/-- Settles O49: the instructions that the premises leave are those that drive no line. -/
theorem onlyPowerRequestsTouchChipEnable : Obligations.OnlyPowerRequestsTouchChipEnable := by
  intro i s t v h hloop htx hpower
  refine (ends_of_exec h).ce_frame ?_ v
  cases i with
  | powerUp | powerDown | startRx | stopRx => simp at hpower
  | rxLoop cnt => exact absurd rfl (hloop cnt)
  | tx len d => exact absurd rfl (htx len d)
  | _ => exact id

/-- Settles O50: SHUTDOWN's own way to complete is the one that closes the bus. -/
theorem onlyShutdownClosesTheBus : Obligations.OnlyShutdownClosesTheBus := by
  intro i s t h
  rw [(ends_of_exec h).isOpen_eq, Bool.and_eq_true, decide_eq_true_eq]

/-- Settles O51: on a closed bus an instruction faults, or is one without a port event on the bus or the line. -/
theorem aClosedBlockIsSilent : Obligations.AClosedBlockIsSilent := by
  intro s t hs h
  rcases exec_of_step h with rfl | ⟨n, rfl⟩ | ⟨i, bs, hexec⟩
  · exact silent_refl hs
  · exact silent_faulted hs _ n
  · exact silent_of_exec (s := { s with busq := bs }) hs hexec

/-- Settles O53: the bound is the number of port events of the longest path of the body. -/
theorem eventsAreBounded : Obligations.EventsAreBounded := by
  intro i s t h
  obtain ⟨evs, hhist, hlen, -⟩ := (ends_of_exec h).events
  rw [hhist, List.length_append]
  exact Nat.add_le_add_left hlen _

/-- Settles O57: an offset is covered by the write or stands before or after it. -/
theorem bufferWritesAreReadBack : Obligations.BufferWritesAreReadBack := by
  refine fun m a v hm => ⟨Memory.writeBytes_wf hm a v, fun x => ?_⟩
  split_ifs with hx
  · have hread := Memory.read_writeBytes_inside m a v (x - a) (by omega)
    rwa [Nat.add_sub_cancel' hx.1] at hread
  · exact Memory.read_writeBytes_other m a v x (by omega)

/-- Settles O58: the other instructions reach no byte of RXB. -/
theorem onlyReceivesWriteTheBuffer : Obligations.OnlyReceivesWriteTheBuffer := by
  intro i s t a hdyn hfixed hloop h
  refine (ends_of_exec h).rxb_frame ?_
  cases i with
  | rxDyn => exact absurd rfl hdyn
  | rxFixed => exact absurd rfl hfixed
  | rxLoop cnt => exact absurd rfl (hloop cnt)
  | _ => exact Nat.zero_le a

/-- Settles O59: 33 and `FIXED_LEN` are the reaches of the three receives. -/
theorem receivesWriteOnlyTheirBytes : Obligations.ReceivesWriteOnlyTheirBytes := fun _ _ _ =>
  ⟨fun ha h => (ends_of_exec h).rxb_frame ha, fun _ ha h => (ends_of_exec h).rxb_frame ha,
    fun ha h => (ends_of_exec h).rxb_frame ha⟩

end Sys2Proof.Machine
end

section
/-! Proofs about single requests: the codec laws and the address text (41_address_codec.md), the power transition table
(42_power_fsm.md R177), the bounds of the framer (43_framing.md), and the bus commands by themselves (30_encoding.md R97
to R104). -/

namespace Sys2Proof.Machine

/-! ### The address text (20_memory.md R66) -/

/-- The `n` lowest hex digits of a number, most significant first. -/
def hexDigits (n v : Nat) : List Nat := (List.range n).map fun i => v / 16 ^ (n - 1 - i) % 16

theorem hexDigits_succ (n v : Nat) : hexDigits (n + 1) v = hexDigits n (v / 16) ++ [v % 16] := by
  have hshift : ∀ i ∈ List.range n, v / 16 ^ (n + 1 - 1 - i) % 16 = v / 16 / 16 ^ (n - 1 - i) % 16 := fun i hi => by
    have hlt := List.mem_range.1 hi
    rw [Nat.div_div_eq_div_mul, ← Nat.pow_succ', show n + 1 - 1 - i = n - 1 - i + 1 by omega]
  rw [hexDigits, List.range_succ, List.map_append, List.map_congr_left hshift]
  simp [hexDigits]

theorem hexNumber_hexDigits (n v : Nat) : hexNumber 0 (hexDigits n v) = v % 16 ^ n := by
  induction n generalizing v with
  | zero => simp [hexDigits, hexNumber, Nat.mod_one]
  | succ n ih =>
    have hlast : hexNumber 0 (hexDigits n (v / 16) ++ [v % 16]) = 16 * hexNumber 0 (hexDigits n (v / 16)) + v % 16 :=
      List.foldl_concat ..
    rw [hexDigits_succ, hlast, ih, Nat.pow_succ', Nat.mod_mul, Nat.add_comm]

theorem hexDigitOf_hexDigit {n : Nat} (h : n < 16) : hexDigitOf (hexDigit n) n := by
  have all : ∀ n : Fin 16, hexDigitOf (hexDigit n.val) n.val := by unfold hexDigitOf; decide
  exact all ⟨n, h⟩

theorem addressText_eq (v : Addr) : addressText v = (hexDigits 10 v.toNat).map hexDigit := by
  simp [addressText, hexDigits]

theorem beginsWithDigits_addressText (v : Addr) (tail : Bytes) :
    beginsWithDigits (addressText v ++ tail) (hexDigits 10 v.toNat) := by
  intro i n hi
  have hlt : n < 16 := by
    obtain ⟨j, -, rfl⟩ := List.mem_map.1 (List.mem_of_getElem? hi)
    exact Nat.mod_lt _ (by decide)
  have htext : (addressText v)[i]? = some (hexDigit n) := by rw [addressText_eq, List.getElem?_map, hi]; rfl
  exact ⟨hexDigit n, List.getElem?_append_left (List.getElem?_eq_some_iff.1 htext).1 ▸ htext, hexDigitOf_hexDigit hlt⟩

theorem parseAddress_addressText {v : Addr} (hv : v ≠ 0) (tail : Bytes) {k : Nat} (hk : 10 ≤ k) :
    parseAddress k (addressText v ++ tail) = some v := by
  have hnumber : hexNumber 0 (hexDigits 10 v.toNat) = v.toNat := by
    rw [hexNumber_hexDigits]
    exact Nat.mod_eq_of_lt v.isLt
  have hne : v.toNat ≠ 0 := fun h => hv (BitVec.eq_of_toNat_eq h)
  rw [parseAddress_digits hk (by simp [hexDigits]) (beginsWithDigits_addressText v tail), hnumber, if_neg hne,
    BitVec.ofNat_toNat, BitVec.setWidth_eq]

/-! ### The power state (10_state.md R43) -/

section
variable {c : Cfg} (hm : c.MasksValid)
include hm

/-- PWR_UP and PRIM_RX are two bits. -/
theorem pwrUp_primRx_disjoint : c.cfgPwrUp &&& c.cfgPrimRx = 0#8 ∧ c.cfgPrimRx &&& c.cfgPwrUp = 0#8 := by
  obtain ⟨⟨hprim, hpwr, hne⟩, -⟩ := hm
  exact ⟨singleBit_disjoint hpwr hprim hne.symm, singleBit_disjoint hprim hpwr hne⟩

theorem powerMasks_ne_zero : c.cfgPwrUp ≠ 0#8 ∧ c.cfgPrimRx ≠ 0#8 := by
  obtain ⟨⟨⟨hprim, -⟩, ⟨hpwr, -⟩, -⟩, -⟩ := hm
  exact ⟨hpwr, hprim⟩

theorem pstate_set_pwrUp (ce : Bool) (v : Byte) :
    pstate c ce (some (v ||| c.cfgPwrUp)) =
      if ce = false then .standby else if v &&& c.cfgPrimRx ≠ 0#8 then .listening else .transmitting := by
  have hset : (v ||| c.cfgPwrUp) &&& c.cfgPwrUp ≠ 0#8 := (setBits_self v c.cfgPwrUp).symm ▸ (powerMasks_ne_zero hm).1
  have hprim : (v ||| c.cfgPwrUp) &&& c.cfgPrimRx = v &&& c.cfgPrimRx := setBits_other (pwrUp_primRx_disjoint hm).1 v
  simp only [pstate, if_neg hset, hprim]

theorem pstate_set_primRx (v : Byte) :
    pstate c true (some (v ||| c.cfgPrimRx)) = if v &&& c.cfgPwrUp = 0#8 then .poweredDown else .listening := by
  have hset : (v ||| c.cfgPrimRx) &&& c.cfgPrimRx ≠ 0#8 :=
    (setBits_self v c.cfgPrimRx).symm ▸ (powerMasks_ne_zero hm).2
  have hpwr : (v ||| c.cfgPrimRx) &&& c.cfgPwrUp = v &&& c.cfgPwrUp := setBits_other (pwrUp_primRx_disjoint hm).2 v
  simp [pstate, hset, hpwr]

theorem pstate_clear_primRx (v : Byte) :
    pstate c false (some (v &&& ~~~c.cfgPrimRx)) = pstate c false (some v) := by
  have hpwr : (v &&& ~~~c.cfgPrimRx) &&& c.cfgPwrUp = v &&& c.cfgPwrUp :=
    clearBits_other (pwrUp_primRx_disjoint hm).2 v
  simp [pstate, hpwr]

end

theorem pstate_clear_pwrUp (c : Cfg) (ce : Bool) (v : Byte) :
    pstate c ce (some (v &&& ~~~c.cfgPwrUp)) = .poweredDown := if_pos (clearBits_self v c.cfgPwrUp)

theorem pstate_some_ne_unknown (c : Cfg) (ce : Bool) (v : Byte) : pstate c ce (some v) ≠ .unknown := by
  simp only [pstate]
  split_ifs <;> simp

/-! The table of R177, row by row: from the power state of the level `ce` and the byte `v`. -/

/-- The shadow's PRIM_RX bit. -/
def primSet (c : Cfg) (v : Byte) : Bool := decide (v &&& c.cfgPrimRx ≠ 0#8)

theorem powerTable_powerUp (c : Cfg) (ce : Bool) (v : Byte) :
    powerTable .powerUp (pstate c ce (some v)) ce (primSet c v) = some (pstate c true (some v)) := by
  simp only [powerTable, pstate, primSet]
  split_ifs <;> simp_all

/-- The rows that end with the line low and leave PWR_UP: POWER_DOWN, STOP_RX and TX. -/
theorem powerTable_low {i : Instr} (hi : i = .powerDown ∨ i = .stopRx ∨ ∃ len d, i = .tx len d) (c : Cfg) (ce prim : Bool)
    (v : Byte) : powerTable i (pstate c ce (some v)) ce prim = some (pstate c false (some v)) := by
  have hrow : some (if pstate c ce (some v) = .poweredDown then PowerState.poweredDown else .standby) =
      some (pstate c false (some v)) := by
    simp only [pstate]
    split_ifs <;> simp_all
  rcases hi with rfl | rfl | ⟨len, d, rfl⟩ <;> exact hrow

theorem powerTable_startRadio {c : Cfg} (hm : c.MasksValid) (ce : Bool) (v : Byte) :
    powerTable .startRadio (pstate c ce (some v)) ce (primSet c v) = some (pstate c ce (some (v ||| c.cfgPwrUp))) := by
  rw [pstate_set_pwrUp hm]
  simp only [powerTable, pstate, primSet]
  split_ifs <;> simp_all

theorem powerTable_stopRadio (c : Cfg) (ce prim : Bool) (v : Byte) :
    powerTable .stopRadio (pstate c ce (some v)) ce prim = some (pstate c ce (some (v &&& ~~~c.cfgPwrUp))) := by
  rw [pstate_clear_pwrUp]
  rfl

theorem powerTable_startRx {c : Cfg} (hm : c.MasksValid) (ce prim : Bool) (v : Byte) :
    powerTable .startRx (pstate c ce (some v)) ce prim = some (pstate c true (some (v ||| c.cfgPrimRx))) := by
  rw [pstate_set_primRx hm]
  simp only [powerTable, pstate]
  split_ifs <;> simp_all

/-- The poll loop leaves the line low, and makes no CONFIG write (43_framing.md R194). -/
theorem txPoll_leaves (n : Nat) {s : State} (hv : s.cfg.Valid) (hd : s.cfg.RegistersDistinct) :
    (txPoll n s).2.cfg = s.cfg ∧ (txPoll n s).2.ce = false ∧ (txPoll n s).2.cfgsh = s.cfgsh := by
  induction n generalizing s with
  | zero => exact ⟨rfl, rfl, keepsShadow_flushTx hv _⟩
  | succ n ih =>
    have hread : (readRegBody s.cfg.regStatus s).cfgsh = s.cfgsh := keepsShadow_readReg hv _ _
    have hclear : ∀ f, (clearFlag f (readRegBody s.cfg.regStatus s)).cfgsh = s.cfgsh := fun f =>
      (keepsShadow_clear hv hd f _).trans hread
    rw [txPoll]
    split_ifs
    · exact ⟨rfl, rfl, hclear _⟩
    · exact ⟨rfl, rfl, (keepsShadow_flushTx hv _).trans (hclear _)⟩
    · obtain ⟨hcfg, hce, hshadow⟩ := ih (s := (readRegBody s.cfg.regStatus s).waitFor .tTxPoll) hv hd
      exact ⟨hcfg, hce, hshadow.trans hread⟩

theorem txBody_leaves (payload : Bytes) {s : State} (hv : s.cfg.Valid) (hd : s.cfg.RegistersDistinct) :
    (txBody payload s).2.cfg = s.cfg ∧ (txBody payload s).2.ce = false ∧ (txBody payload s).2.cfgsh = s.cfgsh := by
  obtain ⟨hcfg, hce, hshadow⟩ := txPoll_leaves s.cfg.txPollCap (s := txLoad payload s) hv hd
  exact ⟨hcfg, hce, hshadow.trans ((keepsShadow_writePayload hv payload _).trans (keepsShadow_flushTx hv _))⟩

section
variable {s : State} (ho : s.isOpen = true)
include ho

/-! The power state after each request of the table, from the one before it. -/

theorem powerUp_power : ∃ t, exec .powerUp s = .next t ∧ t.power = pstate s.cfg true s.cfgsh :=
  ⟨_, exec_powerUp_open ho, rfl⟩

theorem powerDown_power : ∃ t, exec .powerDown s = .next t ∧ t.power = pstate s.cfg false s.cfgsh :=
  ⟨_, exec_powerDown_open ho, rfl⟩

theorem tx_power (hv : s.cfg.Valid) (hd : s.cfg.RegistersDistinct) {len : Byte} (hlen : len.toNat ≤ 32)
    (payload : Bytes) : ∃ t, exec (.tx len payload) s = .next t ∧ t.power = pstate s.cfg false s.cfgsh := by
  obtain ⟨hcfg, hce, hshadow⟩ := txBody_leaves (readTxb payload len.toNat) hv hd
  refine ⟨_, by rw [exec, execTx, if_neg (Nat.not_lt.2 hlen), State.onBus_open ho], ?_⟩
  rw [State.power, State.complete_cfg, State.complete_ce, State.complete_cfgsh, hcfg, hce, hshadow]

section
variable (hv : s.cfg.Valid)
include hv

theorem startRadio_power :
    ∃ t, exec .startRadio s = .next t ∧
      t.power = pstate s.cfg s.ce (some (byteAt (configAnswer s) 1 ||| s.cfg.cfgPwrUp)) :=
  ⟨_, exec_startRadio_open ho hv, rfl⟩

theorem stopRadio_power :
    ∃ t, exec .stopRadio s = .next t ∧
      t.power = pstate s.cfg s.ce (some (byteAt (configAnswer s) 1 &&& ~~~s.cfg.cfgPwrUp)) :=
  ⟨_, exec_stopRadio_open ho hv, rfl⟩

theorem startRx_power :
    ∃ t, exec .startRx s = .next t ∧
      t.power = pstate s.cfg true (some (byteAt (configAnswer (powerUpBody s)) 1 ||| s.cfg.cfgPrimRx)) :=
  ⟨_, exec_startRx_open ho hv, rfl⟩

theorem stopRx_power :
    ∃ t, exec .stopRx s = .next t ∧
      t.power = pstate s.cfg false (some (byteAt (configAnswer (powerDownBody s)) 1 &&& ~~~s.cfg.cfgPrimRx)) :=
  ⟨_, exec_stopRx_open ho hv, rfl⟩

end

end

/-- The CONFIG read answers the byte that the chip is going to give. -/
theorem configAnswer_byte {s : State} {v : Byte} (h : (s.answers.headD [])[1]? = some v) :
    byteAt (configAnswer s) 1 = v := readRegValue_of_answer (m := s.cfg.regConfig) h

/-- A request of the table, from a known power state, leaves the power state of its row (42_power_fsm.md R177). -/
theorem power_of_table {i : Instr} {s : State} {v : Byte} {p : PowerState} (hv : s.cfg.Valid)
    (hd : s.cfg.RegistersDistinct) (ho : s.isOpen = true) (hsh : s.cfgsh = some v) (hf : operandFault s.cfg i = none)
    (hans : i ∈ [Instr.startRadio, .stopRadio, .startRx, .stopRx] → (s.answers.headD [])[1]? = some v)
    (htable : powerTable i s.power s.ce (primSet s.cfg v) = some p) : ∃ t, exec i s = .next t ∧ t.power = p := by
  rw [State.power, hsh] at htable
  have hrow : ∀ {q : PowerState}, powerTable i (pstate s.cfg s.ce (some v)) s.ce (primSet s.cfg v) = some q → q = p :=
    fun h => Option.some.inj (h.symm.trans htable)
  cases i with
  | powerUp =>
    obtain ⟨t, ht, hpower⟩ := powerUp_power ho
    rw [hsh] at hpower
    exact ⟨t, ht, hpower.trans (hrow (powerTable_powerUp _ _ _))⟩
  | powerDown =>
    obtain ⟨t, ht, hpower⟩ := powerDown_power ho
    rw [hsh] at hpower
    exact ⟨t, ht, hpower.trans (hrow (powerTable_low (.inl rfl) _ _ _ _))⟩
  | startRadio =>
    obtain ⟨t, ht, hpower⟩ := startRadio_power ho hv
    rw [configAnswer_byte (hans (by simp))] at hpower
    exact ⟨t, ht, hpower.trans (hrow (powerTable_startRadio hv.masks _ _))⟩
  | stopRadio =>
    obtain ⟨t, ht, hpower⟩ := stopRadio_power ho hv
    rw [configAnswer_byte (hans (by simp))] at hpower
    exact ⟨t, ht, hpower.trans (hrow (powerTable_stopRadio _ _ _ _))⟩
  | startRx =>
    obtain ⟨t, ht, hpower⟩ := startRx_power ho hv
    rw [configAnswer_byte (s := powerUpBody s) (hans (by simp))] at hpower
    exact ⟨t, ht, hpower.trans (hrow (powerTable_startRx hv.masks _ _ _))⟩
  | stopRx =>
    obtain ⟨t, ht, hpower⟩ := stopRx_power ho hv
    rw [configAnswer_byte (s := powerDownBody s) (hans (by simp)), pstate_clear_primRx hv.masks] at hpower
    exact ⟨t, ht, hpower.trans (hrow (powerTable_low (.inr (.inl rfl)) _ _ _ _))⟩
  | tx len payload =>
    have hlen : len.toNat ≤ 32 := Nat.not_lt.1 fun h => by rw [operandFault, if_pos h] at hf; cases hf
    obtain ⟨t, ht, hpower⟩ := tx_power ho hv hd hlen payload
    rw [hsh] at hpower
    exact ⟨t, ht, hpower.trans (hrow (powerTable_low (.inr (.inr ⟨len, payload, rfl⟩)) _ _ _ _))⟩
  | _ => cases htable

/-! ### STATUS reads among the events -/

@[simp] theorem readsStatus_ce (c : Cfg) (v : Bool) : readsStatus c (.ce v) = false := rfl

@[simp] theorem readsStatus_wait (c : Cfg) (d : Delay) : readsStatus c (.wait d) = false := rfl

@[simp] theorem readsStatus_poll (c : Cfg) (rest r : Bytes) :
    readsStatus c (.xchg (rdcmd c c.regStatus :: rest) r) = true := by simp [readsStatus]

section
variable {c : Cfg} (hv : c.Valid)
include hv

theorem readsStatus_read {m : RegAddr} (h : m ≠ c.regStatus) (rest r : Bytes) :
    readsStatus c (.xchg (rdcmd c m :: rest) r) = false := by simp [readsStatus, rdcmd_inj hv, h]

theorem readsStatus_write (m : RegAddr) (rest r : Bytes) : readsStatus c (.xchg (wrcmd c m :: rest) r) = false := by
  simp [readsStatus, (rdcmd_ne_wrcmd hv c.regStatus m).symm]

theorem readsStatus_fixed {x : Byte} (hx : x ∈ c.fixedCommands) (rest r : Bytes) :
    readsStatus c (.xchg (x :: rest) r) = false := by
  simp [readsStatus, fixed_ne_rdcmd hv hx]

end

/-! ### The events of TX (43_framing.md R198) -/

/-- How many STATUS reads there are among the events. -/
def statusReads (c : Cfg) (evs : List Event) : Nat := (evs.filter (readsStatus c)).length

theorem statusReads_append (c : Cfg) (es fs : List Event) :
    statusReads c (es ++ fs) = statusReads c es + statusReads c fs := by
  simp [statusReads]

/-- Each poll that misses is a STATUS read and a delay. -/
theorem missEvents_counts (c : Cfg) (misses : List Bytes) :
    statusReads c (missEvents c misses) = misses.length ∧ (missEvents c misses).length = 2 * misses.length := by
  induction misses with
  | nil => exact ⟨rfl, rfl⟩
  | cons r misses ih =>
    obtain ⟨hreads, hlen⟩ := ih
    have hcons : missEvents c (r :: misses) =
        [.xchg [rdcmd c c.regStatus, c.cmdNop] r, .wait .tTxPoll] ++ missEvents c misses := rfl
    have hpoll : statusReads c [.xchg [rdcmd c c.regStatus, c.cmdNop] r, .wait .tTxPoll] = 1 := by
      simp [statusReads]
    rw [hcons, statusReads_append, hreads, hpoll, List.length_append, hlen]
    simp only [List.length_cons, List.length_nil]
    omega

/-- The events of TX: those before the polls that miss, with no STATUS read, those polls, and an ending with `k` more. -/
theorem tx_counts (c : Cfg) (misses : List Bytes) {load ending : List Event} {k extra : Nat}
    (hload : statusReads c load = 0) (hending : statusReads c ending = k)
    (hlen : load.length + ending.length = 2 * k + extra) :
    let evs := load ++ missEvents c misses ++ ending
    statusReads c evs = misses.length + k ∧ evs.length = 2 * statusReads c evs + extra := by
  obtain ⟨hreads, hmiss⟩ := missEvents_counts c misses
  simp only [statusReads_append, hload, hending, hreads, List.length_append, hmiss]
  omega

/-! ### The bus commands by themselves (30_encoding.md R97 to R104) -/

theorem keepsShadow_readLong {c : Cfg} (hv : c.Valid) (m : RegAddr) : keepsShadow c (readLongBytes c m) := fun sh =>
  shadowAfter_read hv sh m _

theorem State.busCommand_open {s : State} (ho : s.isOpen = true) (b : Bytes) : s.busCommand b = s.exchange b :=
  State.onBus_open ho _ _

/-- An exchange that leaves the shadow changes the history and the answers alone. -/
theorem State.exchange_eq {s : State} {b : Bytes} (h : keepsShadow s.cfg b) :
    s.exchange b = { s with hist := s.hist ++ [.xchg b (s.response b)], answers := s.answers.drop 1 } := by
  rw [State.exchange, h s.cfgsh]

/-- A bus command that leaves the shadow makes its exchange and nothing else. -/
theorem busCommand_one {s : State} (ho : s.isOpen = true) {b : Bytes} (h : keepsShadow s.cfg b) :
    ∃ r, Drawn s.answers b r ∧
      Host.Outcome.next (φ := Fault) (ρ := Refusal) (s.busCommand b) =
        .next { s with hist := s.hist ++ [.xchg b r], answers := s.answers.drop 1 } :=
  ⟨_, s.response_drawn b, by rw [State.busCommand_open ho, State.exchange_eq h]⟩

/-- The shadow after a register write of one or five data bytes (10_state.md R32). -/
theorem shadowAfter_writeRegister {c : Cfg} (hv : c.Valid) (sh : Option Byte) (m : RegAddr) {data : Bytes}
    (h : data.length = 1 ∨ data.length = 5) :
    shadowAfter c sh (wrcmd c m :: data) = if m = c.regConfig ∧ data.length = 1 then data.head? else sh := by
  rcases h with h | h
  · obtain ⟨v, rfl⟩ := List.length_eq_one_iff.1 h
    simpa [writeRegBytes] using shadowAfter_writeReg hv sh m v
  · rw [shadowAfter_length (by simp [h]), if_neg (by simp [h])]

/-! ### The obligations -/

/-- Settles O17: reading back low bytes is the number modulo `256^n`, and five bytes hold all of it. -/
theorem codecLaws : Obligations.CodecLaws := by
  refine ⟨leAddr_leBytes, fun b hb => leBytes_leAddr hb, fun v n _ _ => ?_, fun v w h => ?_⟩
  · have hlt : v.toNat % 2 ^ (8 * n) < 2 ^ 40 := (Nat.mod_le _ _).trans_lt v.isLt
    rw [dec, enc, leAddr, leNat_leBytes, show (256 : Nat) = 2 ^ 8 from rfl, ← Nat.pow_mul, BitVec.toNat_ofNat,
      Nat.mod_eq_of_lt hlt]
  · rw [← leAddr_leBytes v, ← leAddr_leBytes w]
    exact congrArg leAddr h

/-- Settles O18: the text's characters are the hex digits of the address, and the parser gives their number. -/
theorem parsingAnAddressTextGivesTheAddress : Obligations.ParsingAnAddressTextGivesTheAddress := by
  intro v tail k s hv hk
  rw [exec_addrParse, parseAddress_addressText hv tail (by omega)]
  rfl

/-- Settles O23: each request sets `ce` or rewrites one bit of CONFIG, and the power state it leaves is the one in the
row of the table. From Unknown, a CONFIG write makes the shadow known and the line alone does not. -/
theorem powerTransitionTable : Obligations.PowerTransitionTable := by
  refine ⟨fun i s v p hv hd ho hsh hf hans htable => ?_, fun s hv ho hsh => ⟨?_, ?_⟩⟩
  · exact power_of_table hv hd ho hsh hf hans htable
  · simp only [List.forall_mem_cons, List.not_mem_nil, false_implies, implies_true, and_true]
    have hup := powerUp_power ho
    have hdown := powerDown_power ho
    rw [hsh] at hup hdown
    exact ⟨hup, hdown⟩
  · simp only [List.forall_mem_cons, List.not_mem_nil, false_implies, implies_true, and_true]
    obtain ⟨t1, h1, hp1⟩ := startRadio_power ho hv
    obtain ⟨t2, h2, hp2⟩ := stopRadio_power ho hv
    obtain ⟨t3, h3, hp3⟩ := startRx_power ho hv
    obtain ⟨t4, h4, hp4⟩ := stopRx_power ho hv
    exact ⟨⟨t1, h1, hp1 ▸ pstate_some_ne_unknown _ _ _⟩, ⟨t2, h2, hp2 ▸ pstate_some_ne_unknown _ _ _⟩,
      ⟨t3, h3, hp3 ▸ pstate_some_ne_unknown _ _ _⟩, ⟨t4, h4, hp4 ▸ pstate_some_ne_unknown _ _ _⟩⟩

/-- Settles O26: the body returns 0 or a reported length that passed the test against 32. -/
theorem rxDynNeverReturnsMoreThan32 : Obligations.RxDynNeverReturnsMoreThan32 := by
  intro s t r n h hres hlen
  rw [exec, execRxDyn, State.onBus] at h
  split_ifs at h <;> cases h
  · cases List.append_cancel_left hres
    cases hlen
  · obtain ⟨hle, k, -, hrun⟩ := rxDynBody_run (ce := False) s rfl (framer_flags s.cfg)
    obtain ⟨-, -, -, -, -, -, hresults⟩ := hrun.frame
    rw [State.complete_results, hresults] at hres
    cases List.append_cancel_left hres
    cases hlen
    exact hle
  · cases List.append_cancel_left hres
    cases hlen

/-- Settles O29: of the three ends, two poll once more than the polls that missed, and the failures flush. -/
theorem txEventCounts : Obligations.TxEventCounts := by
  intro len payload s t hv hd ho hl hlen h
  obtain ⟨f, l, misses, -, -, -, -, hend⟩ := txEndsInOneOfThreeWays.2 len payload s hv hd ho hl hlen
  have hload : statusReads s.cfg [.xchg [s.cfg.cmdFlushTx] f, .xchg (s.cfg.cmdWTxPayload :: payload) l, .ce true,
      .wait .tCeUp] = 0 := by
    simp [statusReads, readsStatus_fixed hv (flushTx_mem s.cfg), readsStatus_fixed hv (txPayload_mem s.cfg)]
  have hflush := fun g => readsStatus_fixed hv (flushTx_mem s.cfg) [] g
  rcases hend with ⟨hlt, r, w, -, -, -, hexec⟩ | ⟨hlt, r, w, g, -, -, -, -, -, hexec⟩ | ⟨hcap, g, -, hexec⟩
  · have hending : statusReads s.cfg [.xchg [rdcmd s.cfg s.cfg.regStatus, s.cfg.cmdNop] r,
        .xchg [wrcmd s.cfg s.cfg.regStatus, s.cfg.stTxDs] w, .ce false, .wait .tCeDown] = 1 := by
      simp [statusReads, readsStatus_write hv]
    obtain ⟨hreads, hcount⟩ := tx_counts s.cfg misses hload hending (extra := 6) rfl
    cases h.symm.trans hexec
    exact ⟨_, true, rfl, rfl, hreads.trans_le hlt, hcount⟩
  · have hending : statusReads s.cfg [.xchg [rdcmd s.cfg s.cfg.regStatus, s.cfg.cmdNop] r,
        .xchg [wrcmd s.cfg s.cfg.regStatus, s.cfg.stMaxRt] w, .xchg [s.cfg.cmdFlushTx] g, .ce false,
        .wait .tCeDown] = 1 := by
      simp [statusReads, readsStatus_write hv, hflush]
    obtain ⟨hreads, hcount⟩ := tx_counts s.cfg misses hload hending (extra := 7) rfl
    cases h.symm.trans hexec
    exact ⟨_, false, rfl, rfl, hreads.trans_le hlt, hcount⟩
  · have hending : statusReads s.cfg [.ce false, .wait .tCeDown, .xchg [s.cfg.cmdFlushTx] g] = 0 := by
      simp [statusReads, hflush]
    obtain ⟨hreads, hcount⟩ := tx_counts s.cfg misses hload hending (extra := 7) rfl
    cases h.symm.trans hexec
    exact ⟨_, false, rfl, rfl, hreads.trans_le hcap.le, hcount⟩

/-- Settles O37: none of the four commands is a CONFIG write. -/
theorem busReadCommandsMakeOneExchange : Obligations.BusReadCommandsMakeOneExchange := fun m n _ hv ho _ =>
  ⟨busCommand_one ho (keepsShadow_readReg hv m), busCommand_one ho (keepsShadow_readLong hv m),
    busCommand_one ho (keepsShadow_lengthQuery hv), busCommand_one ho (keepsShadow_readPayload hv n)⟩

/-- Settles O38: of the four commands, the register write alone can be a CONFIG write. -/
theorem busWriteCommandsMakeOneExchange : Obligations.BusWriteCommandsMakeOneExchange := by
  intro m data payload s hv ho hdata _
  refine ⟨⟨_, s.response_drawn _, ?_⟩, busCommand_one ho (keepsShadow_writePayload hv payload),
    busCommand_one ho (keepsShadow_flushTx hv), busCommand_one ho (keepsShadow_flushRx hv)⟩
  rw [exec, execBusWRegister, State.busCommand_open ho, State.exchange, shadowAfter_writeRegister hv _ m hdata]
  rfl

/-- Settles O39: the arm answers the state it is given. -/
theorem busNopBeginsNoExchange : Obligations.BusNopBeginsNoExchange := fun _ => rfl

end Sys2Proof.Machine
end

section
/-! Proofs about the settle contract (70_reset_and_hazards.md R273, R274): what each event leaves owed, and each body as
a run that starts and ends with nothing owed. -/

namespace Sys2Proof.Machine

/-! ### What an event leaves owed -/

section
variable {c : Cfg} {p : Settle}

theorem Settle.afterExchange_ce (b r : Bytes) : (p.afterExchange c b r).ce = p.ce := by
  unfold Settle.afterExchange
  split
  · rfl
  · split_ifs
    · split <;> rfl
    · rfl
    · rfl
    · rfl

/-- A CONFIG read with nothing owed tells what CONFIG holds. -/
theorem Settle.afterExchange_readConfig (hv : c.Valid) (hp : p.quiet = true) (rest r : Bytes) :
    p.afterExchange c (rdcmd c c.regConfig :: rest) r = { p with config := r[1]? } := by
  have hcmd : ∀ m, rdcmd c c.regConfig ≠ wrcmd c m := rdcmd_ne_wrcmd hv _
  exact (if_neg (hcmd _)).trans ((if_neg fun h => hcmd _ h.1).trans (if_pos ⟨rfl, hp⟩))

theorem Settle.afterExchange_writeConfig (v : Byte) (r : Bytes) :
    p.afterExchange c [wrcmd c c.regConfig, v] r =
      { p with
        power := p.power || mayChange c.cfgPwrUp p.config v
        role := p.role || mayChange c.cfgPrimRx p.config v
        config := some v } := if_pos rfl

theorem Settle.quiet_after_wait (hp : p.quiet = true) (d : Delay) : (p.after c (.wait d)).quiet = true := by
  obtain ⟨hce, hpower, hrole⟩ := Settle.quiet_iff.1 hp
  exact Settle.quiet_iff.2 (by simp [Settle.after, hce, hpower, hrole])

/-- A wait that is long enough for both bits of CONFIG closes their windows. -/
theorem Settle.quiet_after_long_wait {d : Delay} (hce : p.ce = none)
    (hpower : p.power = true → covers c .tRadio d = true) (hrole : p.role = true → covers c .tRx d = true) :
    (p.after c (.wait d)).quiet = true := by
  refine Settle.quiet_iff.2 ⟨by simp [Settle.after, hce], ?_, ?_⟩
  · cases h : p.power with
    | false => simp [Settle.after, h]
    | true => simp [Settle.after, hpower h]
  · cases h : p.role with
    | false => simp [Settle.after, h]
    | true => simp [Settle.after, hrole h]

/-- With nothing owed, every event is allowed (R273). -/
theorem settleRun_cons_quiet (hp : p.quiet = true) (e : Event) (es : List Event) :
    settleRun c p (e :: es) = settleRun c (p.after c e) es := by
  rw [settleRun, if_neg (by simp [hp])]

/-- What CONFIG's read and write-back leave owed, up to the wait: the bits in which `v` differs from the byte read. -/
theorem settleRun_configRewrite (hv : c.Valid) (hp : p.quiet = true) {a : Bytes} {o : Byte} (ha : a[1]? = some o)
    (v : Byte) (e : Bytes) (d : Delay) :
    settleRun c p [.xchg (readRegBytes c c.regConfig) a, .xchg (writeRegBytes c c.regConfig v) e, .wait d] =
      some (Settle.after c
        ⟨none, mayChange c.cfgPwrUp (some o) v, mayChange c.cfgPrimRx (some o) v, some v⟩ (.wait d)) := by
  obtain ⟨hce, hpower, hrole⟩ := Settle.quiet_iff.1 hp
  have hread : p.after c (.xchg (readRegBytes c c.regConfig) a) = ⟨none, false, false, some o⟩ :=
    (Settle.afterExchange_readConfig hv hp [c.cmdNop] a).trans (by rw [hce, hpower, hrole, ha])
  have hwrite : Settle.after c ⟨none, false, false, some o⟩ (.xchg (writeRegBytes c c.regConfig v) e) =
      ⟨none, mayChange c.cfgPwrUp (some o) v, mayChange c.cfgPrimRx (some o) v, some v⟩ :=
    Settle.afterExchange_writeConfig v e
  rw [settleRun_cons_quiet hp, hread, settleRun_cons_quiet rfl, hwrite]
  rfl

end

/-! ### Runs that settle -/

/-- `s` runs to `t` by events that, started with nothing owed, read no STATUS inside a window and leave nothing owed. -/
def Settles (s t : State) : Prop :=
  t.cfg = s.cfg ∧ ∃ evs, t.hist = s.hist ++ evs ∧
    ∀ p : Settle, p.quiet = true → ∃ q, settleRun s.cfg p evs = some q ∧ q.quiet = true

theorem Settles.refl (s : State) : Settles s s := ⟨rfl, [], by simp, fun p hp => ⟨p, rfl, hp⟩⟩

/-- A run of one event that leaves nothing owed. -/
theorem settles_event {s t : State} {e : Event} (hc : t.cfg = s.cfg) (hh : t.hist = s.hist ++ [e])
    (h : ∀ p : Settle, p.quiet = true → (p.after s.cfg e).quiet = true) : Settles s t :=
  ⟨hc, [e], hh, fun p hp => ⟨_, settleRun_cons_quiet hp e [], h p hp⟩⟩

section
variable {s t u : State}

theorem Settles.trans (h : Settles s t) (h' : Settles t u) : Settles s u := by
  obtain ⟨hcfg, es, hes, hrun⟩ := h
  obtain ⟨hcfg', fs, hfs, hrun'⟩ := h'
  refine ⟨hcfg'.trans hcfg, es ++ fs, by rw [hfs, hes, List.append_assoc], fun p hp => ?_⟩
  obtain ⟨q, hq, hquiet⟩ := hrun p hp
  rw [settleRun_append, hq, Option.bind_some, ← hcfg]
  exact hrun' q hquiet

theorem Settles.exchange (h : Settles s t) {b : Bytes} (hb : settlesNothing t.cfg b) : Settles s (t.exchange b) :=
  h.trans (settles_event (e := .xchg b (t.response b)) rfl rfl fun _ hp => Settle.afterExchange_quiet hb _ hp)

theorem Settles.waitFor (h : Settles s t) (d : Delay) : Settles s (t.waitFor d) :=
  h.trans (settles_event (e := .wait d) rfl rfl fun _ hp => Settle.quiet_after_wait hp d)

theorem Settles.writeRxb (h : Settles s t) (v : Bytes) : Settles s (t.writeRxb 0 v) := h

theorem Settles.complete (h : Settles s t) (r : Result) : Settles s (t.complete r) := h

theorem settles_raise (s : State) (kind : FaultKind) (info : Nat) : Settles s (s.raise kind info) := .refl s

/-- A request on the bus settles where its body does, since a refused one makes no event (40_register_access.md R124). -/
theorem settles_onBus (op : Byte) {body : State → State} (h : Settles s (body s)) : Settles s (s.onBus op body) := by
  rw [State.onBus]
  split_ifs
  · exact h
  · exact settles_raise s _ _

/-- The line is driven, and the delay it owes is waited (R170, R171). -/
theorem settles_line {v : Bool} {d : Delay}
    (h : ∀ p : Settle, p.after s.cfg (.ce v) = { p with ce := some d }) : Settles s ((s.setCE v).waitFor d) := by
  refine ⟨rfl, [.ce v, .wait d], by simp, fun p hp => ?_⟩
  obtain ⟨-, hpower, hrole⟩ := Settle.quiet_iff.1 hp
  rw [settleRun_cons_quiet hp, h]
  exact ⟨_, rfl, Settle.quiet_iff.2 (by simp [Settle.after, hpower, hrole])⟩

theorem Settles.powerUp (h : Settles s t) : Settles s (powerUpBody t) := h.trans (settles_line fun _ => rfl)

theorem Settles.powerDown (h : Settles s t) : Settles s (powerDownBody t) := h.trans (settles_line fun _ => rfl)

/-- CONFIG is read and written back, and then waited for as long as each bit that the write changes owes (R172): what
CONFIG holds is known from the read. -/
theorem settles_configRewrite (hv : s.cfg.Valid) {v : Byte} {d : Delay}
    (hpower : covers s.cfg .tRadio d = true ∨ (byteAt (configAnswer s) 1 ^^^ v) &&& s.cfg.cfgPwrUp = 0#8)
    (hrole : covers s.cfg .tRx d = true ∨ (byteAt (configAnswer s) 1 ^^^ v) &&& s.cfg.cfgPrimRx = 0#8) :
    Settles s ((writeRegBody s.cfg.regConfig v (readRegBody s.cfg.regConfig s)).waitFor d) := by
  have hhist : ((writeRegBody s.cfg.regConfig v (readRegBody s.cfg.regConfig s)).waitFor d).hist =
      s.hist ++ (configRewrite v s ++ [.wait d]) := by
    simp [configRewrite, configAnswer, configEcho, readRegBody, writeRegBody]
  have hread : (configAnswer s)[1]? = some (byteAt (configAnswer s) 1) :=
    getElem?_of_lt (by simp [configAnswer, readRegBytes])
  refine ⟨rfl, _, hhist, fun p hp => ⟨_, settleRun_configRewrite hv hp hread v (configEcho v s) d, ?_⟩⟩
  exact Settle.quiet_after_long_wait rfl (fun h => hpower.resolve_right (of_decide_eq_true h))
    fun h => hrole.resolve_right (of_decide_eq_true h)

end

/-! ### The bodies -/

theorem addrRegs_registers {c : Cfg} (hd : c.RegistersDistinct) {m : RegAddr} (h : m ∈ longRegs c ++ shortRegs c) :
    m ≠ c.regConfig ∧ m ∈ c.registers := by
  simp only [Cfg.RegistersDistinct, Cfg.registers, List.nodup_cons, List.mem_cons, not_or] at hd
  simp only [longRegs, shortRegs, List.cons_append, List.nil_append, List.mem_cons, List.not_mem_nil, or_false] at h
  simp only [Cfg.registers, List.mem_cons, List.not_mem_nil, or_false]
  grind

theorem xor_and_of_eq {x y q : Byte} (h : x &&& q = y &&& q) : (x ^^^ y) &&& q = 0#8 := by
  ext i hi
  have hbit := congrArg (fun z : Byte => z[i]) h
  simp only [BitVec.getElem_and] at hbit
  simp only [BitVec.getElem_and, BitVec.getElem_xor, BitVec.getElem_zero]
  cases hq : q[i] <;> simp_all

theorem xor_setBits {p q : Byte} (h : p &&& q = 0#8) (v : Byte) : (v ^^^ setBits v p) &&& q = 0#8 :=
  xor_and_of_eq (setBits_other h v).symm

theorem xor_clearBits {p q : Byte} (h : p &&& q = 0#8) (v : Byte) : (v ^^^ clearBits v p) &&& q = 0#8 :=
  xor_and_of_eq (clearBits_other h v).symm

section
variable {s t : State} (h : Settles s t) (hv : s.cfg.Valid)
include h hv

theorem Settles.valid : t.cfg.Valid := h.1 ▸ hv

theorem Settles.readReg (m : RegAddr) : Settles s (readRegBody m t) :=
  h.exchange (settlesNothing_read (h.valid hv) m _)

theorem Settles.readLong (m : RegAddr) : Settles s (readLongBody m t) :=
  h.exchange (settlesNothing_read (h.valid hv) m _)

theorem Settles.fixed {b : Byte} (hb : b ∈ t.cfg.fixedCommands) (rest : Bytes) : Settles s (t.exchange (b :: rest)) :=
  h.exchange (settlesNothing_fixed (h.valid hv) hb rest)

theorem Settles.startRadio : Settles s (startRadioBody t) :=
  h.trans (settles_configRewrite (h.valid hv) (.inl (covers_self _ _))
    (.inr (xor_setBits (pwrUp_primRx_disjoint (h.valid hv).masks).1 _)))

theorem Settles.stopRadio : Settles s (stopRadioBody t) :=
  h.trans (settles_configRewrite (h.valid hv) (.inl (covers_self _ _))
    (.inr (xor_clearBits (pwrUp_primRx_disjoint (h.valid hv).masks).1 _)))

theorem Settles.startRx : Settles s (startRxBody t) :=
  h.powerUp.trans (settles_configRewrite (h.powerUp.valid hv)
    (.inr (xor_setBits (pwrUp_primRx_disjoint (h.valid hv).masks).2 _)) (.inl (covers_self _ _)))

theorem Settles.stopRx : Settles s (stopRxBody t) :=
  h.powerDown.trans (settles_configRewrite (h.powerDown.valid hv)
    (.inr (xor_clearBits (pwrUp_primRx_disjoint (h.valid hv).masks).2 _)) (.inl (covers_self _ _)))

theorem Settles.clearFlag (hd : s.cfg.RegistersDistinct) (f : Byte) : Settles s (clearFlag f t) :=
  h.exchange (settlesNothing_write (h.valid hv) (regStatus_distinct (h.1 ▸ hd)).1
    (outsideMap_of_mem (h.valid hv) (by simp [Cfg.registers])) _)

variable (hd : s.cfg.RegistersDistinct)
include hd

/-- RX_DYN reads STATUS first (43_framing.md R192). -/
theorem Settles.rxDyn : Settles s (rxDynBody t).2 := by
  have hready : Settles s (rxReadyBody t) := h.readReg hv _
  have hqueried : Settles s (lengthQueried t) := hready.fixed hv (plWid_mem _) _
  cases hr : rxReadyValue t with
  | false => rwa [rxDynBody_notReady hr]
  | true =>
    by_cases hn : 32 < (byteAt (lengthAnswer t) 1).toNat
    · rw [rxDynBody_tooLong hr hn]
      exact hqueried.fixed hv (flushRx_mem _) _
    · rw [rxDynBody_payload hr (Nat.not_lt.1 hn)]
      exact ((hqueried.fixed hv (rxPayload_mem _) _).writeRxb _).clearFlag hv hd _

/-- RX_FIXED reads STATUS first (43_framing.md R193). -/
theorem Settles.rxFixed : Settles s (rxFixedBody t).2 := by
  have hready : Settles s (rxReadyBody t) := h.readReg hv _
  have hstored : Settles s (rxFixedStored (rxReadyBody t)) := (hready.fixed hv (rxPayload_mem _) _).writeRxb _
  cases hr : rxReadyValue t with
  | false => rwa [rxFixedBody_notReady hr]
  | true =>
    cases hc : t.cfg.fixedRxClear with
    | false => rwa [rxFixedBody_keep hr hc]
    | true =>
      rw [rxFixedBody_clear hr hc]
      exact hstored.clearFlag hv hd _

/-- The polls come after powerUp's delay, and CE is lowered after the last of them (43_framing.md R194). -/
theorem Settles.txPoll (n : Nat) : Settles s (txPoll n t).2 := by
  induction n generalizing t with
  | zero => exact h.powerDown.fixed hv (flushTx_mem _) _
  | succ n ih =>
    have hread := h.readReg hv t.cfg.regStatus
    rw [Machine.txPoll]
    split_ifs
    · exact (hread.clearFlag hv hd _).powerDown
    · exact ((hread.clearFlag hv hd _).fixed hv (flushTx_mem _) _).powerDown
    · exact ih (hread.waitFor _)

theorem Settles.tx (payload : Bytes) : Settles s (txBody payload t).2 :=
  ((h.fixed hv (flushTx_mem _) _).fixed hv (txPayload_mem _) _).powerUp.txPoll hv hd _

theorem Settles.rxLoopIter (n : Nat) (ps : List Bytes) : Settles s (rxLoopIter n ps t).2 := by
  induction n generalizing ps t with
  | zero => exact h
  | succ n ih =>
    rw [rxLoopIter_succ]
    exact ih ((h.rxDyn hv hd).waitFor _) _

theorem Settles.rxLoop (cnt : Nat) : Settles s (rxLoopBody cnt t).2 :=
  ((h.startRx hv).rxLoopIter hv hd cnt []).stopRx hv

/-- WRITE_ADDR's register is neither CONFIG nor outside the map (20_memory.md R63). -/
theorem Settles.writeAddr {m : RegAddr} (hm : addrClass t.cfg m ≠ .none) (v : Addr) :
    Settles s (writeAddrBody m v t) := by
  have hmem : m ∈ longRegs t.cfg ++ shortRegs t.cfg := not_not.1 (mt addrClass_none_iff.2 hm)
  obtain ⟨hconfig, hregisters⟩ := addrRegs_registers (h.1 ▸ hd) hmem
  rw [writeAddrBody_eq]
  exact h.exchange (settlesNothing_write (h.valid hv) hconfig (outsideMap_of_mem (h.valid hv) hregisters) _)

end

/-! ### INIT (44_host_ops.md R220) -/

/-- Exchanges leave the line as it is. -/
theorem Settle.afterAll_ce {c : Cfg} {es : List Event} (h : ∀ e ∈ es, isExchange e = true) (p : Settle) :
    (p.afterAll c es).ce = p.ce := by
  induction es generalizing p with
  | nil => rfl
  | cons e es ih =>
    obtain ⟨he, hes⟩ := List.forall_mem_cons.1 h
    cases e with
    | xchg b r => exact (ih hes _).trans (Settle.afterExchange_ce b r)
    | ce | wait => cases he

/-- INIT's exchanges before its delay: none reads STATUS. -/
theorem initSent_readsStatus {s : State} (hv : s.cfg.Valid) (hd : s.cfg.RegistersDistinct) (txa rxa : Addr)
    (ch rt : Byte) : ∀ b ∈ initSent txa rxa ch rt s, ∀ r, readsStatus s.cfg (.xchg b r) = false := by
  simp only [initSent, initRequests, List.cons_append, List.nil_append, List.forall_mem_cons, List.not_mem_nil,
    false_implies, implies_true, and_true]
  have hw := readsStatus_write hv
  exact ⟨hw _ _, hw _ _, hw _ _, hw _ _, hw _ _, hw _ _, hw _ _, hw _ _,
    readsStatus_read hv (regStatus_distinct hd).1.symm _, hw _ _⟩

theorem forall_mem_zipWith_xchg {P : Event → Prop} {bs : List Bytes} (h : ∀ b ∈ bs, ∀ r, P (.xchg b r))
    (rs : List Bytes) : ∀ e ∈ List.zipWith Event.xchg bs rs, P e := by
  induction bs generalizing rs with
  | nil => simp
  | cons b bs ih =>
    obtain ⟨hb, hbs⟩ := List.forall_mem_cons.1 h
    cases rs with
    | nil => simp
    | cons r rs => exact List.forall_mem_cons.2 ⟨hb r, ih hbs rs⟩

/-- INIT reads no STATUS, and its one delay ends the window of PWR_UP, and that of PRIM_RX where it is long enough. -/
theorem init_settles {s : State} (ho : s.isOpen = true) (hv : s.cfg.Valid) (hd : s.cfg.RegistersDistinct) {p : Settle}
    (hp : p.quiet = true) (txa rxa : Addr) (ch rt : Byte) :
    ∃ t evs q, exec (.init txa rxa ch rt) s = .next t ∧ t.hist = s.hist ++ evs ∧ settleRun s.cfg p evs = some q ∧
      (s.cfg.tRx ≤ s.cfg.tRadio → q.quiet = true) := by
  obtain ⟨hce, -⟩ := Settle.quiet_iff.1 hp
  have hreads := forall_mem_zipWith_xchg (P := fun e => readsStatus s.cfg e = false)
    (initSent_readsStatus hv hd txa rxa ch rt) (s.replies (initSent txa rxa ch rt s))
  have hline := Settle.afterAll_ce (c := s.cfg) (forall_mem_zipWith_xchg (P := fun e => isExchange e = true)
    (fun b (_ : b ∈ initSent txa rxa ch rt s) r => rfl) (s.replies (initSent txa rxa ch rt s))) p
  refine ⟨_, _, _, exec_init_open ho hv txa rxa ch rt, rfl, settleRun_of_no_read _ _ _ ?_, fun hle => ?_⟩
  · refine List.forall_mem_append.2 ⟨hreads, ?_⟩
    simp [flushRxBytes, readsStatus_fixed hv (flushRx_mem s.cfg)]
  · rw [Settle.afterAll, List.foldl_append]
    have hwait := Settle.quiet_after_long_wait (d := .tRadio) (hline.trans hce) (fun _ => covers_self _ _)
      fun _ => decide_eq_true hle
    exact Settle.afterExchange_quiet (settlesNothing_fixed hv (flushRx_mem _) []) _ hwait

/-! ### Every request -/

/-- Every request but WRITE_REG and INIT settles. -/
theorem exec_settles {i : Instr} {s t : State} (hv : s.cfg.Valid) (hd : s.cfg.RegistersDistinct)
    (hp : i.port = .request) (hw : ∀ reg val, i ≠ .writeReg reg val) (hi : ∀ txa rxa ch rt, i ≠ .init txa rxa ch rt)
    (h : exec i s = .next t) : Settles s t := by
  have hs := Settles.refl s
  cases i with
  | readReg reg => cases h; exact settles_onBus _ ((hs.readReg hv _).complete _)
  | writeReg reg val => exact absurd rfl (hw reg val)
  | readAddr reg =>
    cases h
    split
    · exact settles_raise s _ _
    · exact settles_onBus _ ((hs.readLong hv _).complete _)
    · exact settles_onBus _ (((hs.readLong hv _).readReg hv _).complete _)
  | writeAddr reg v =>
    cases h
    split_ifs with hc
    · exact settles_raise s _ _
    · exact settles_onBus _ ((hs.writeAddr hv hd hc v).complete _)
  | addrEncode n v =>
    cases h
    split_ifs
    · exact hs.complete _
    · exact settles_raise s _ _
  | addrDecode n b =>
    cases h
    split_ifs
    · exact hs.complete _
    · exact settles_raise s _ _
  | addrParse k b => cases h; exact hs.complete _
  | powerUp => cases h; exact settles_onBus _ (hs.powerUp.complete _)
  | powerDown => cases h; exact settles_onBus _ (hs.powerDown.complete _)
  | startRadio => cases h; exact settles_onBus _ ((hs.startRadio hv).complete _)
  | stopRadio => cases h; exact settles_onBus _ ((hs.stopRadio hv).complete _)
  | startRx => cases h; exact settles_onBus _ ((hs.startRx hv).complete _)
  | stopRx => cases h; exact settles_onBus _ ((hs.stopRx hv).complete _)
  | rxReady => cases h; exact settles_onBus _ ((hs.readReg hv _).complete _)
  | rxDyn =>
    cases h
    split_ifs
    · exact settles_raise s _ _
    · exact settles_onBus _ ((hs.rxDyn hv hd).complete _)
  | rxFixed =>
    cases h
    split_ifs
    · exact settles_raise s _ _
    · exact settles_onBus _ ((hs.rxFixed hv hd).complete _)
  | tx len payload =>
    cases h
    split_ifs
    · exact settles_raise s _ _
    · exact settles_onBus _ ((hs.tx hv hd _).complete _)
  | flushTx => cases h; exact settles_onBus _ ((hs.fixed hv (flushTx_mem _) _).complete _)
  | flushRx => cases h; exact settles_onBus _ ((hs.fixed hv (flushRx_mem _) _).complete _)
  | init txa rxa ch rt => exact absurd rfl (hi txa rxa ch rt)
  | rxLoop cnt =>
    cases h
    split_ifs
    · exact settles_raise s _ _
    · exact settles_onBus _ ((hs.rxLoop hv hd _).complete _)
  | shutdown => cases h; exact settles_onBus _ (hs.stopRadio hv)
  | wait us => cases h; exact (hs.waitFor _).complete _
  | reserved op rest => cases h; exact settles_raise s _ _
  | busRRegister | busWRegister | busRRxPlWid | busRRxPayload | busWTxPayload | busFlushTx | busFlushRx | busNop =>
    cases hp

/-- WRITE_REG makes one exchange, or none. -/
theorem writeReg_settleRun {s t : State} {reg val : Byte} {p : Settle} (hp : p.quiet = true)
    (h : exec (.writeReg reg val) s = .next t) :
    ∃ evs q, t.hist = s.hist ++ evs ∧ settleRun s.cfg p evs = some q := by
  obtain ⟨evs, hhist, hlen, -⟩ := (ends_of_exec h).events
  cases evs with
  | nil => exact ⟨_, _, hhist, rfl⟩
  | cons e es =>
    obtain rfl : es = [] := List.length_eq_zero_iff.1 (Nat.le_zero.1 (Nat.le_of_succ_le_succ hlen))
    exact ⟨_, _, hhist, settleRun_cons_quiet hp e []⟩

theorem init_settleRun {s t : State} (hv : s.cfg.Valid) (hd : s.cfg.RegistersDistinct) {txa rxa : Addr} {ch rt : Byte}
    {p : Settle} (hp : p.quiet = true) (h : exec (.init txa rxa ch rt) s = .next t) :
    ∃ evs q, t.hist = s.hist ++ evs ∧ settleRun s.cfg p evs = some q ∧
      (s.cfg.tRx ≤ s.cfg.tRadio → q.quiet = true) := by
  cases ho : s.isOpen with
  | true =>
    obtain ⟨t', evs, q, ht, hhist, hrun, hq⟩ := init_settles ho hv hd hp txa rxa ch rt
    cases h.symm.trans ht
    exact ⟨evs, q, hhist, hrun, hq⟩
  | false =>
    cases h.symm.trans (exec_of_closed (i := .init txa rxa ch rt) (op := 0x14) rfl rfl ho)
    exact ⟨[], p, by simp, rfl, fun _ => hp⟩

/-- Settles O52: WRITE_REG by its one event, INIT by its one delay, and every other request as a run that settles. -/
theorem requestsKeepTheSettleContract : Obligations.RequestsKeepTheSettleContract := by
  intro i s t p hv hd hport hp h
  by_cases hw : ∃ reg val, i = .writeReg reg val
  · obtain ⟨reg, val, rfl⟩ := hw
    obtain ⟨evs, q, hhist, hrun⟩ := writeReg_settleRun hp h
    exact ⟨evs, q, hhist, hrun, fun hno _ => absurd rfl (hno reg val)⟩
  by_cases hi : ∃ txa rxa ch rt, i = .init txa rxa ch rt
  · obtain ⟨txa, rxa, ch, rt, rfl⟩ := hi
    obtain ⟨evs, q, hhist, hrun, hq⟩ := init_settleRun hv hd hp h
    exact ⟨evs, q, hhist, hrun, fun _ hle => hq (hle txa rxa ch rt rfl)⟩
  · push Not at hw hi
    obtain ⟨-, evs, hhist, hrun⟩ := exec_settles hv hd hport hw hi h
    obtain ⟨q, hq, hquiet⟩ := hrun p hp
    exact ⟨evs, q, hhist, hq, fun _ _ => hquiet⟩

end Sys2Proof.Machine
end

section
/-! Proofs about the chip contract (40_register_access.md R133, as Safety.lean writes it, log 19): what a conforming chip
answers to a register read, how its CONFIG follows the writes, how its flags and its oldest payload stay. -/

namespace Sys2Proof.Machine

section
variable {c : Cfg}

/-! ### Registers of the contract -/

theorem configWrite_other {cmd : Byte} (h : cmd ≠ wrcmd c c.regConfig) (rest r : Bytes) :
    configWrite c (.xchg (cmd :: rest) r) = none := by
  unfold configWrite
  split
  · next heq =>
    cases heq
    exact if_neg h
  · rfl

theorem configWrite_self (v : Byte) (r : Bytes) : configWrite c (.xchg [wrcmd c c.regConfig, v] r) = some v := if_pos rfl

/-- A register that is no address register holds one byte (10_state.md R38). -/
theorem registerWidth_of_not_addr {m : RegAddr} (h : m ∉ longRegs c ++ shortRegs c) : registerWidth c m = 1 :=
  if_neg fun e => h (List.mem_append_left _ (addrClass_long_iff.1 e))

theorem regConfig_not_addr (hd : c.RegistersDistinct) : c.regConfig ∉ longRegs c ++ shortRegs c := fun h =>
  (addrRegs_registers hd h).1 rfl

theorem regStatus_not_addr (hd : c.RegistersDistinct) : c.regStatus ∉ longRegs c ++ shortRegs c := by
  obtain ⟨-, -, haddr⟩ := regStatus_distinct hd
  exact haddr

/-! ### What a conforming chip answers -/

section
variable {k : Chip} {r : Bytes}

/-- A length query answers the length of the oldest received payload (R133 (c)). -/
theorem Chip.answers_of_lengthQuery {quiet : Bool} {p : Bytes} {ps : List Bytes} (hp : k.rxFifo = p :: ps)
    (h : k.answers c quiet [c.cmdRRxPlWid, c.cmdNop] r) : r[1]? = some (BitVec.ofNat 8 p.length) := by
  have hbound : unboundResponse c quiet [c.cmdRRxPlWid, c.cmdNop] = false := by
    rw [unboundResponse, decodeBus_lengthQuery]
  obtain ⟨-, hanswers⟩ := h
  obtain ⟨-, -, hlength, -⟩ := hanswers hbound
  exact hlength p ps hp rfl (by simp)

variable (hv : c.Valid)
include hv

/-- A 2-byte register read outside every window answers the snapshot and the content (R133 (a), (b)). -/
theorem Chip.answers_of_read {m : RegAddr} (hm : m ∈ c.registers) (h : k.answers c true [rdcmd c m, c.cmdNop] r) :
    (∀ x, (k.content c.regStatus)[0]? = some x → r[0]? = some x) ∧ ∀ x, (k.content m)[0]? = some x → r[1]? = some x := by
  have hbound : unboundResponse c true [rdcmd c m, c.cmdNop] = false := by
    rw [unboundResponse_read hv, outsideMap_of_mem hv hm]
    rfl
  obtain ⟨-, hanswers⟩ := h
  obtain ⟨hsnapshot, hcontent, -⟩ := hanswers hbound
  exact ⟨fun x hx => hsnapshot x hx (by simp), fun x hx => hcontent m 0 x rfl hx (by simp)⟩

/-- A read of as many bytes as the oldest received payload has answers that payload (R133 (d)). -/
theorem Chip.answers_of_readPayload {quiet : Bool} {p : Bytes} {ps : List Bytes} (hp : k.rxFifo = p :: ps)
    (hlen : p.length ≤ 32) (h : k.answers c quiet (c.cmdRRxPayload :: List.replicate p.length c.cmdNop) r) :
    r.drop 1 = p := by
  have hbound : unboundResponse c quiet (c.cmdRRxPayload :: List.replicate p.length c.cmdNop) = false := by
    rw [unboundResponse, decodeBus_readPayload hv hlen]
  obtain ⟨hrlen, hanswers⟩ := h
  obtain ⟨-, -, -, hbytes⟩ := hanswers hbound
  rw [List.length_cons, List.length_replicate] at hrlen
  refine List.ext_getElem (by rw [List.length_drop, hrlen]; rfl) fun i hi hip => ?_
  have hbyte := hbytes p ps i p[i] hp rfl (List.getElem?_eq_getElem hip) (by simpa using hip)
  rwa [List.getElem_drop, ← Option.some_inj, ← List.getElem?_eq_getElem, Nat.add_comm]

end

/-! ### CONFIG follows the writes -/

/-- An event of a history that keeps CONFIG known: a bus command, with CONFIG written in 2-byte exchanges only and
nothing written outside the map. -/
def KeepsConfigKnown (c : Cfg) (e : Event) : Prop :=
  shaped c e ∧ ∀ b r, e = .xchg b r →
    (b.head? = some (wrcmd c c.regConfig) → b.length = 2) ∧ ∀ m : RegAddr, 0x1D < m.toNat → b.head? ≠ some (wrcmd c m)

/-- The chip holds the shadow's byte in CONFIG, where the shadow is known. -/
def HoldsConfig (c : Cfg) (k : Chip) (sh : Option Byte) : Prop := ∀ v, sh = some v → k.content c.regConfig = [v]

theorem Chip.drift_config (hd : c.RegistersDistinct) {k k' : Chip} (h : k.drift c k') :
    k'.content c.regConfig = k.content c.regConfig := by
  obtain ⟨-, -, hcontent, -⟩ := h
  exact hcontent _ (by simp [Cfg.registers]) (regStatus_distinct hd).1.symm

/-- What a register write inside the map makes of CONFIG (20_memory.md R70). -/
theorem Chip.after_writeRegister_config (hv : c.Valid) (hd : c.RegistersDistinct) {k k' : Chip} {m : RegAddr}
    {data : Bytes} (hm : ¬0x1D < m.toNat) (hdec : decodeBus c (wrcmd c m :: data) = some (.busWRegister m data))
    (hlen : m = c.regConfig → data.length = 1) (h : k.after c (wrcmd c m :: data) k') {sh : Option Byte}
    (hk : HoldsConfig c k sh) (r : Bytes) :
    HoldsConfig c k' ((configWrite c (.xchg (wrcmd c m :: data) r)).or sh) := by
  simp only [Chip.after, hdec] at h
  obtain ⟨-, -, hwrite⟩ := h
  obtain ⟨hother, hwritten, -⟩ := hwrite (decide_eq_false hm)
  by_cases hconfig : m = c.regConfig
  · subst hconfig
    obtain ⟨v, rfl⟩ := List.length_eq_one_iff.1 (hlen rfl)
    rw [writtenContent, if_neg (regStatus_distinct hd).1.symm, registerWidth_of_not_addr (regConfig_not_addr hd)]
      at hwritten
    rw [configWrite_self]
    rintro _ ⟨⟩
    exact hwritten rfl
  · rw [configWrite_other (mt (wrcmd_inj hv).1 hconfig), Option.none_or]
    exact fun v hsh => (hother _ (Ne.symm hconfig)).trans (hk v hsh)

/-- An exchange of such a history keeps CONFIG known (20_memory.md R70). -/
theorem Chip.after_config (hv : c.Valid) (hd : c.RegistersDistinct) {k k' : Chip} {b r : Bytes}
    (he : KeepsConfigKnown c (.xchg b r)) (h : k.after c b k') {sh : Option Byte} (hk : HoldsConfig c k sh) :
    HoldsConfig c k' ((configWrite c (.xchg b r)).or sh) := by
  obtain ⟨⟨-, i, hi, hnop⟩, hwrites⟩ := he
  obtain ⟨hlen, hout⟩ := hwrites b r rfl
  obtain ⟨-, hp, rfl⟩ := encode_decodeBus hi
  have hsame : k'.content = k.content → ∀ {x rest}, x ∈ c.fixedCommands → encode c i = x :: rest →
      HoldsConfig c k' ((configWrite c (.xchg (encode c i) r)).or sh) := fun hcontent x rest hx henc => by
    rw [henc, configWrite_other (fixed_ne_wrcmd hv hx _), Option.none_or]
    exact fun v hsh => (congrFun hcontent _).trans (hk v hsh)
  have hafter := h
  simp only [Chip.after, hi] at hafter
  obtain ⟨-, -, heffect⟩ := hafter
  cases i with
  | busRRegister m long =>
    rw [encode, configWrite_other (rdcmd_ne_wrcmd hv m _), Option.none_or, heffect]
    exact hk
  | busWRegister m data =>
    refine Chip.after_writeRegister_config hv hd (fun hm => hout m hm rfl) hi (fun hm => ?_) h hk r
    exact Nat.succ.inj (hlen (by rw [hm]; rfl))
  | busRRxPlWid => exact hsame (by rw [heffect]) (plWid_mem c) rfl
  | busRRxPayload n => exact hsame (by rw [heffect]) (rxPayload_mem c) rfl
  | busWTxPayload d =>
    obtain ⟨hcontent, -⟩ := heffect
    exact hsame hcontent (txPayload_mem c) rfl
  | busFlushTx => exact hsame (by rw [heffect]) (flushTx_mem c) rfl
  | busFlushRx => exact hsame (by rw [heffect]) (flushRx_mem c) rfl
  | busNop => exact absurd rfl hnop
  | _ => cases hp

theorem shadowOf_cons (e : Event) (h : List Event) : shadowOf c (e :: h) = (shadowOf c h).or (configWrite c e) := by
  have happ := shadowOf_append c [e] h
  rw [List.singleton_append] at happ
  rw [happ]
  cases hw : configWrite c e <;> simp [shadowOf, hw]

/-- Along a conforming history that keeps CONFIG known, the chip holds the byte last written to it. -/
theorem Conforms.holdsConfig (hv : c.Valid) (hd : c.RegistersDistinct) {h es : List Event} {p : Settle} {k : Chip}
    (hh : ∀ e ∈ h, KeepsConfigKnown c e) (hc : Conforms c p k (h ++ es)) {sh : Option Byte} (hk : HoldsConfig c k sh) :
    ∃ k', Conforms c (p.afterAll c h) k' es ∧ HoldsConfig c k' ((shadowOf c h).or sh) := by
  induction h generalizing p k sh with
  | nil => exact ⟨k, hc, hk⟩
  | cons e h ih =>
    obtain ⟨he, hrest⟩ := List.forall_mem_cons.1 hh
    rw [shadowOf_cons, Option.or_assoc]
    cases e with
    | xchg b r =>
      obtain ⟨k₁, k₂, hdrift, -, hafter, hc'⟩ := hc
      have hk₁ : HoldsConfig c k₁ sh := fun v hsh => (Chip.drift_config hd hdrift).trans (hk v hsh)
      exact ih hrest hc' (Chip.after_config hv hd he hafter hk₁)
    | ce | wait => exact ih hrest hc hk

/-! ### Flags of STATUS (10_state.md R40) -/

/-- STATUS holds one byte. -/
theorem Chip.Ok.status {k : Chip} (hd : c.RegistersDistinct) (h : k.Ok c) : ∃ v, k.content c.regStatus = [v] :=
  List.length_eq_one_iff.1 ((h.widths _).trans (registerWidth_of_not_addr (regStatus_not_addr hd)))

/-- By itself the chip clears no flag. -/
theorem Chip.drift_flags {k k' : Chip} (h : k.drift c k') {v v' : Byte} (hv : k.content c.regStatus = [v])
    (hv' : k'.content c.regStatus = [v']) : v &&& flagMask c &&& ~~~v' = 0#8 := by
  obtain ⟨-, -, -, hflags, -⟩ := h
  exact hflags v v' (by rw [hv]; rfl) (by rw [hv']; rfl)

/-- A flag set in `v` and not written as 1 is set after the write, and so it is after the two drifts around it. -/
theorem flags_kept {m w v x y : Byte} (h : v &&& m &&& ~~~x = 0#8) (h' : x &&& ~~~(w &&& m) &&& m &&& ~~~y = 0#8) :
    v &&& m &&& ~~~w &&& ~~~y = 0#8 := by
  ext i hi
  have hbit := congrArg (fun z : Byte => z[i]) h
  have hbit' := congrArg (fun z : Byte => z[i]) h'
  simp only [BitVec.getElem_and, BitVec.getElem_not, BitVec.getElem_zero] at hbit hbit' ⊢
  cases hv : v[i] <;> cases hm : m[i] <;> cases hw : w[i] <;> simp_all

end

/-! ### The obligations -/

/-- Settles O54: along the history the chip's CONFIG follows the 2-byte writes, and the read answers its content. -/
theorem aConformingChipReadsBackConfig : Obligations.AConformingChipReadsBackConfig := by
  intro c p k h r v hv hd hshaped hconfig houtside hquiet hc hsh
  have hknown : ∀ e ∈ h, KeepsConfigKnown c e := fun e he =>
    ⟨hshaped e he, fun b a heq => ⟨hconfig b a (heq ▸ he), fun m => houtside b a m (heq ▸ he)⟩⟩
  obtain ⟨k', hc', hk'⟩ := Conforms.holdsConfig hv hd hknown hc (sh := none) (fun _ h => by cases h)
  obtain ⟨k₁, -, hdrift, hanswers, -⟩ := hc'
  rw [hquiet] at hanswers
  have hcontent : k₁.content c.regConfig = [v] :=
    (Chip.drift_config hd hdrift).trans (hk' v (by rw [hsh]; rfl))
  obtain ⟨-, hread⟩ := Chip.answers_of_read hv (by simp [Cfg.registers]) hanswers
  exact hread v (by rw [hcontent]; rfl)

/-- Settles O55: the reads answer STATUS as it is, and of the steps between them the write alone clears flags, those
written as 1. -/
theorem aConformingChipKeepsItsFlags : Obligations.AConformingChipKeepsItsFlags := by
  intro c p k w r1 r2 r3 hv hd hp hc
  obtain ⟨k₁, k₁', hdrift₁, hanswers₁, hafter₁, k₂, k₂', hdrift₂, -, hafter₂, k₃, -, hdrift₃, hanswers₃, -⟩ := hc
  have hstatus : c.regStatus ∈ c.registers := by simp [Cfg.registers]
  have hoff := outsideMap_of_mem hv hstatus
  have hq₁ := Settle.afterExchange_quiet (settlesNothing_read hv c.regStatus [c.cmdNop]) r1 hp
  have hq₂ := Settle.afterExchange_quiet (settlesNothing_write hv (regStatus_distinct hd).1 hoff [w]) r2 hq₁
  simp only [Settle.after, hp, hq₂] at hanswers₁ hanswers₃
  obtain ⟨hok, rfl⟩ := (Chip.after_read_iff hv _).1 hafter₁
  obtain ⟨-, -, -, hwritten, -⟩ := (Chip.after_write_iff hv hoff w).1 hafter₂
  obtain ⟨v1, hv1⟩ := hok.status hd
  obtain ⟨v2, hv2⟩ := hdrift₂.1.status hd
  obtain ⟨v3, hv3⟩ := hdrift₃.1.status hd
  obtain ⟨hsnapshot, hread₁⟩ := Chip.answers_of_read hv hstatus hanswers₁
  obtain ⟨-, hread₃⟩ := Chip.answers_of_read hv hstatus hanswers₃
  have h1 := hread₁ v1 (by rw [hv1]; rfl)
  rw [writtenContent, if_pos rfl] at hwritten
  have hcleared : k₂'.content c.regStatus = [v2 &&& ~~~(w &&& flagMask c)] := by rw [hwritten w rfl, hv2]; rfl
  exact ⟨(hsnapshot v1 (by rw [hv1]; rfl)).trans h1.symm, v1, v3, h1, hread₃ v3 (by rw [hv3]; rfl),
    flags_kept (Chip.drift_flags hdrift₂ hv1 hv2) (Chip.drift_flags hdrift₃ hcleared hv3)⟩

/-- Settles O56: what arrives meanwhile joins the FIFO behind the oldest payload, and the length query takes nothing
out. -/
theorem aConformingChipDeliversItsOldestPayload : Obligations.AConformingChipDeliversItsOldestPayload := by
  intro c p k payload rest r1 r2 hv hfifo hc
  obtain ⟨k₁, k₁', hdrift₁, hanswers₁, hafter₁, k₂, -, hdrift₂, hanswers₂, -⟩ := hc
  obtain ⟨hok, -, -, -, ⟨l₁, hl₁⟩, -⟩ := hdrift₁
  rw [hfifo, List.cons_append] at hl₁
  have hlen : payload.length ≤ 32 := hok.payloads payload (by simp [← hl₁])
  simp only [Chip.after, decodeBus_lengthQuery] at hafter₁
  obtain ⟨-, -, rfl⟩ := hafter₁
  obtain ⟨-, -, -, -, ⟨l₂, hl₂⟩, -⟩ := hdrift₂
  rw [← hl₁, List.cons_append] at hl₂
  exact ⟨hlen, Chip.answers_of_lengthQuery hl₁.symm hanswers₁, Chip.answers_of_readPayload hv hl₂.symm hlen hanswers₂⟩

end Sys2Proof.Machine
end
